-- ==== Sys2Proof/Word.lean ====
section
/-!
DEFINITION. The machine's two word types: bytes (registers, status byte, memory cells) and 16-bit addresses
(`00_scope.md` R7).
-/

namespace Sys2Proof

/-- 8 bits: A, X, Y, SP, P and every memory cell (R7). -/
abbrev Byte := BitVec 8

/-- 16 bits: PC and every effective address (R7, R51). -/
abbrev Addr := BitVec 16

end Sys2Proof
end

