-- ==== Sys2Proof/Syntax/Operand.lean ====
section
/-!
DEFINITION. The vocabulary of the opcode table: addressing modes, mnemonics, descriptors, and the operand forms an
instruction carries (`30_encoding.md` R81 to R86).
-/

namespace Sys2Proof

/-- The 13 addressing-mode tags (R81). -/
inductive Mode where
  | imp | acc | imm | zp | zpx | zpy | izx | izy | rel | abs | abx | aby | ind
  deriving DecidableEq, Repr

/-- The length of an instruction, by its addressing mode (R80, R81). -/
def Mode.size : Mode → Nat
  | .imp | .acc => 1
  | .imm | .zp | .zpx | .zpy | .izx | .izy | .rel => 2
  | .abs | .abx | .aby | .ind => 3

/-- The mnemonics of the opcode table: the 56 documented ones and `ILL` (R84). -/
inductive Mnemonic where
  | ADC | AND | ASL | BCC | BCS | BEQ | BIT | BMI | BNE | BPL | BRK | BVC | BVS | CLC | CLD | CLI | CLV | CMP | CPX
  | CPY | DEC | DEX | DEY | EOR | ILL | INC | INX | INY | JMP | JSR | LDA | LDX | LDY | LSR | NOP | ORA | PHA | PHP
  | PLA | PLP | ROL | ROR | RTI | RTS | SBC | SEC | SED | SEI | STA | STX | STY | TAX | TAY | TSX | TXA | TXS | TYA
  deriving DecidableEq, Repr

/-- An opcode's descriptor (R86). Its size is its mode's (`Desc.size`); the source's `mode-tag` field has no meaning
in the spec and is not modelled (D42). -/
structure Desc where
  mnemonic : Mnemonic
  mode : Mode
  /-- Base cycles (R123). -/
  base : Nat
  /-- 1 where a page cross costs a cycle, else 0 (R121). -/
  pageCrossExtra : Nat
  deriving DecidableEq, Repr

/-- The instruction's length in bytes (R80, R86). -/
def Desc.size (d : Desc) : Nat := d.mode.size

/-- An operand in memory, with its operand bytes (R83); its effective address is `Machine.resolve`. -/
inductive MemOp where
  | zp (z : Byte)
  | zpx (z : Byte)
  | zpy (z : Byte)
  | abs (a : Addr)
  | abx (a : Addr)
  | aby (a : Addr)
  | izx (z : Byte)
  | izy (z : Byte)
  deriving DecidableEq, Repr

/-- The source of a read-class instruction (R118): the immediate byte (R107) or a memory operand. -/
inductive Src where
  | imm (n : Byte)
  | mem (m : MemOp)
  deriving DecidableEq, Repr

/-- What a shift or rotate reads and writes: A (R106) or a memory operand. -/
inductive Place where
  | acc
  | mem (m : MemOp)
  deriving DecidableEq, Repr

/-- The target of JMP: the operand itself (R111) or the word a pointer in memory points to (R114). -/
inductive Target where
  | abs (a : Addr)
  | ind (ptr : Addr)
  deriving DecidableEq, Repr

/-- The addressing mode of a memory operand. -/
def MemOp.mode : MemOp → Mode
  | .zp _ => .zp
  | .zpx _ => .zpx
  | .zpy _ => .zpy
  | .abs _ => .abs
  | .abx _ => .abx
  | .aby _ => .aby
  | .izx _ => .izx
  | .izy _ => .izy

/-- The addressing mode of a source. -/
def Src.mode : Src → Mode
  | .imm _ => .imm
  | .mem m => m.mode

/-- The addressing mode of a shift's operand. -/
def Place.mode : Place → Mode
  | .acc => .acc
  | .mem m => m.mode

/-- The addressing mode of a jump's target. -/
def Target.mode : Target → Mode
  | .abs _ => .abs
  | .ind _ => .ind

end Sys2Proof
end

