-- ==== Sys2Proof/Syntax.lean ====
section
/-!
DEFINITION. The instructions: one constructor per mnemonic of spec/opcode_table.json, with the operand form as its
argument, so that a row of the table is a constructor with one of its forms (log 1). Which forms are rows is said by
`Instr.wellFormed`.
-/

namespace Sys2Proof

/-- The 56 documented instructions and the suspend instruction of the 105 illegal opcodes (R84, R87). -/
inductive Instr where
  -- loads and stores (`41_load_store_transfer.md`)
  | lda (src : Src)
  | ldx (src : Src)
  | ldy (src : Src)
  | sta (dst : MemOp)
  | stx (dst : MemOp)
  | sty (dst : MemOp)
  -- register transfers
  | tax
  | tay
  | txa
  | tya
  | tsx
  | txs
  -- stack (`42_stack.md`)
  | pha
  | php
  | pla
  | plp
  -- arithmetic, logic, compare, increment and decrement (`43_arith_logic.md`)
  | adc (src : Src)
  | sbc (src : Src)
  | and (src : Src)
  | ora (src : Src)
  | eor (src : Src)
  | bit (src : MemOp)
  | cmp (src : Src)
  | cpx (src : Src)
  | cpy (src : Src)
  | inc (dst : MemOp)
  | dec (dst : MemOp)
  | inx
  | iny
  | dex
  | dey
  -- shifts and rotates (`44_shift_rotate.md`)
  | asl (place : Place)
  | lsr (place : Place)
  | rol (place : Place)
  | ror (place : Place)
  -- branches, each with its signed offset (`45_control.md`)
  | bcc (offset : Byte)
  | bcs (offset : Byte)
  | beq (offset : Byte)
  | bmi (offset : Byte)
  | bne (offset : Byte)
  | bpl (offset : Byte)
  | bvc (offset : Byte)
  | bvs (offset : Byte)
  -- jumps, calls and returns
  | jmp (target : Target)
  | jsr (target : Addr)
  | rts
  | rti
  -- flags, no operation, break and the illegal opcodes (`46_flags_system.md`)
  | clc
  | cld
  | cli
  | clv
  | sec
  | sed
  | sei
  | nop
  | brk
  | ill (opcode : Byte)
  deriving DecidableEq, Repr

/-- The mnemonic of the instruction's rows in the opcode table. -/
def Instr.mnemonic : Instr → Mnemonic
  | .lda _ => .LDA
  | .ldx _ => .LDX
  | .ldy _ => .LDY
  | .sta _ => .STA
  | .stx _ => .STX
  | .sty _ => .STY
  | .tax => .TAX
  | .tay => .TAY
  | .txa => .TXA
  | .tya => .TYA
  | .tsx => .TSX
  | .txs => .TXS
  | .pha => .PHA
  | .php => .PHP
  | .pla => .PLA
  | .plp => .PLP
  | .adc _ => .ADC
  | .sbc _ => .SBC
  | .and _ => .AND
  | .ora _ => .ORA
  | .eor _ => .EOR
  | .bit _ => .BIT
  | .cmp _ => .CMP
  | .cpx _ => .CPX
  | .cpy _ => .CPY
  | .inc _ => .INC
  | .dec _ => .DEC
  | .inx => .INX
  | .iny => .INY
  | .dex => .DEX
  | .dey => .DEY
  | .asl _ => .ASL
  | .lsr _ => .LSR
  | .rol _ => .ROL
  | .ror _ => .ROR
  | .bcc _ => .BCC
  | .bcs _ => .BCS
  | .beq _ => .BEQ
  | .bmi _ => .BMI
  | .bne _ => .BNE
  | .bpl _ => .BPL
  | .bvc _ => .BVC
  | .bvs _ => .BVS
  | .jmp _ => .JMP
  | .jsr _ => .JSR
  | .rts => .RTS
  | .rti => .RTI
  | .clc => .CLC
  | .cld => .CLD
  | .cli => .CLI
  | .clv => .CLV
  | .sec => .SEC
  | .sed => .SED
  | .sei => .SEI
  | .nop => .NOP
  | .brk => .BRK
  | .ill _ => .ILL

/-- The addressing mode of the instruction's form. -/
def Instr.mode : Instr → Mode
  | .lda s | .ldx s | .ldy s | .adc s | .sbc s | .and s | .ora s | .eor s | .cmp s | .cpx s | .cpy s => s.mode
  | .sta m | .stx m | .sty m | .bit m | .inc m | .dec m => m.mode
  | .asl p | .lsr p | .rol p | .ror p => p.mode
  | .bcc _ | .bcs _ | .beq _ | .bmi _ | .bne _ | .bpl _ | .bvc _ | .bvs _ => .rel
  | .jmp t => t.mode
  | .jsr _ => .abs
  | .tax | .tay | .txa | .tya | .tsx | .txs | .pha | .php | .pla | .plp | .inx | .iny | .dex | .dey | .rts | .rti
  | .clc | .cld | .cli | .clv | .sec | .sed | .sei | .nop | .brk | .ill _ => .imp

end Sys2Proof
end

