-- ==== Sys2Proof/Decode.lean ====
section
/-!
DEFINITION. The opcode descriptor table (`30_encoding.md` R84, R86; `40_execute_cycle.md` R123), the decoder, total on
every byte, and after it the encoder, written from R123's columns of opcodes.
-/

namespace Sys2Proof

/-! ### Byte order -/

/-- `word(hi, lo)`: `hi` in bits 15:8, `lo` in bits 7:0 (R9). -/
def word (hi lo : Byte) : Addr := (hi.zeroExtend 16 <<< 8) ||| lo.zeroExtend 16

/-- Bits 7:0 of a 16-bit value. -/
def loByte (a : Addr) : Byte := a.extractLsb' 0 8

/-- Bits 15:8 of a 16-bit value: its page. -/
def hiByte (a : Addr) : Byte := a.extractLsb' 8 8

/-! ### The descriptor table

Row `n` holds the opcodes 0x`n`0 to 0x`n`F of R84's map, in the order of its columns, each with its base cycles (R123)
and its page-cross extra (R121). -/

/-- Opcodes 0x00 to 0x0F (R84, R123). -/
def opcodeRow0 : List Desc :=
  [⟨.BRK, .imp, 7, 0⟩, ⟨.ORA, .izx, 6, 0⟩, ⟨.ILL, .imp, 7, 0⟩, ⟨.ILL, .imp, 7, 0⟩,
   ⟨.ILL, .imp, 7, 0⟩, ⟨.ORA, .zp, 3, 0⟩, ⟨.ASL, .zp, 5, 0⟩, ⟨.ILL, .imp, 7, 0⟩,
   ⟨.PHP, .imp, 3, 0⟩, ⟨.ORA, .imm, 2, 0⟩, ⟨.ASL, .acc, 2, 0⟩, ⟨.ILL, .imp, 7, 0⟩,
   ⟨.ILL, .imp, 7, 0⟩, ⟨.ORA, .abs, 4, 0⟩, ⟨.ASL, .abs, 6, 0⟩, ⟨.ILL, .imp, 7, 0⟩]

/-- Opcodes 0x10 to 0x1F (R84, R123). -/
def opcodeRow1 : List Desc :=
  [⟨.BPL, .rel, 2, 0⟩, ⟨.ORA, .izy, 5, 1⟩, ⟨.ILL, .imp, 7, 0⟩, ⟨.ILL, .imp, 7, 0⟩,
   ⟨.ILL, .imp, 7, 0⟩, ⟨.ORA, .zpx, 4, 0⟩, ⟨.ASL, .zpx, 6, 0⟩, ⟨.ILL, .imp, 7, 0⟩,
   ⟨.CLC, .imp, 2, 0⟩, ⟨.ORA, .aby, 4, 1⟩, ⟨.ILL, .imp, 7, 0⟩, ⟨.ILL, .imp, 7, 0⟩,
   ⟨.ILL, .imp, 7, 0⟩, ⟨.ORA, .abx, 4, 1⟩, ⟨.ASL, .abx, 7, 0⟩, ⟨.ILL, .imp, 7, 0⟩]

/-- Opcodes 0x20 to 0x2F (R84, R123). -/
def opcodeRow2 : List Desc :=
  [⟨.JSR, .abs, 6, 0⟩, ⟨.AND, .izx, 6, 0⟩, ⟨.ILL, .imp, 7, 0⟩, ⟨.ILL, .imp, 7, 0⟩,
   ⟨.BIT, .zp, 3, 0⟩, ⟨.AND, .zp, 3, 0⟩, ⟨.ROL, .zp, 5, 0⟩, ⟨.ILL, .imp, 7, 0⟩,
   ⟨.PLP, .imp, 4, 0⟩, ⟨.AND, .imm, 2, 0⟩, ⟨.ROL, .acc, 2, 0⟩, ⟨.ILL, .imp, 7, 0⟩,
   ⟨.BIT, .abs, 4, 0⟩, ⟨.AND, .abs, 4, 0⟩, ⟨.ROL, .abs, 6, 0⟩, ⟨.ILL, .imp, 7, 0⟩]

/-- Opcodes 0x30 to 0x3F (R84, R123). -/
def opcodeRow3 : List Desc :=
  [⟨.BMI, .rel, 2, 0⟩, ⟨.AND, .izy, 5, 1⟩, ⟨.ILL, .imp, 7, 0⟩, ⟨.ILL, .imp, 7, 0⟩,
   ⟨.ILL, .imp, 7, 0⟩, ⟨.AND, .zpx, 4, 0⟩, ⟨.ROL, .zpx, 6, 0⟩, ⟨.ILL, .imp, 7, 0⟩,
   ⟨.SEC, .imp, 2, 0⟩, ⟨.AND, .aby, 4, 1⟩, ⟨.ILL, .imp, 7, 0⟩, ⟨.ILL, .imp, 7, 0⟩,
   ⟨.ILL, .imp, 7, 0⟩, ⟨.AND, .abx, 4, 1⟩, ⟨.ROL, .abx, 7, 0⟩, ⟨.ILL, .imp, 7, 0⟩]

/-- Opcodes 0x40 to 0x4F (R84, R123). -/
def opcodeRow4 : List Desc :=
  [⟨.RTI, .imp, 6, 0⟩, ⟨.EOR, .izx, 6, 0⟩, ⟨.ILL, .imp, 7, 0⟩, ⟨.ILL, .imp, 7, 0⟩,
   ⟨.ILL, .imp, 7, 0⟩, ⟨.EOR, .zp, 3, 0⟩, ⟨.LSR, .zp, 5, 0⟩, ⟨.ILL, .imp, 7, 0⟩,
   ⟨.PHA, .imp, 3, 0⟩, ⟨.EOR, .imm, 2, 0⟩, ⟨.LSR, .acc, 2, 0⟩, ⟨.ILL, .imp, 7, 0⟩,
   ⟨.JMP, .abs, 3, 0⟩, ⟨.EOR, .abs, 4, 0⟩, ⟨.LSR, .abs, 6, 0⟩, ⟨.ILL, .imp, 7, 0⟩]

/-- Opcodes 0x50 to 0x5F (R84, R123). -/
def opcodeRow5 : List Desc :=
  [⟨.BVC, .rel, 2, 0⟩, ⟨.EOR, .izy, 5, 1⟩, ⟨.ILL, .imp, 7, 0⟩, ⟨.ILL, .imp, 7, 0⟩,
   ⟨.ILL, .imp, 7, 0⟩, ⟨.EOR, .zpx, 4, 0⟩, ⟨.LSR, .zpx, 6, 0⟩, ⟨.ILL, .imp, 7, 0⟩,
   ⟨.CLI, .imp, 2, 0⟩, ⟨.EOR, .aby, 4, 1⟩, ⟨.ILL, .imp, 7, 0⟩, ⟨.ILL, .imp, 7, 0⟩,
   ⟨.ILL, .imp, 7, 0⟩, ⟨.EOR, .abx, 4, 1⟩, ⟨.LSR, .abx, 7, 0⟩, ⟨.ILL, .imp, 7, 0⟩]

/-- Opcodes 0x60 to 0x6F (R84, R123). -/
def opcodeRow6 : List Desc :=
  [⟨.RTS, .imp, 6, 0⟩, ⟨.ADC, .izx, 6, 0⟩, ⟨.ILL, .imp, 7, 0⟩, ⟨.ILL, .imp, 7, 0⟩,
   ⟨.ILL, .imp, 7, 0⟩, ⟨.ADC, .zp, 3, 0⟩, ⟨.ROR, .zp, 5, 0⟩, ⟨.ILL, .imp, 7, 0⟩,
   ⟨.PLA, .imp, 4, 0⟩, ⟨.ADC, .imm, 2, 0⟩, ⟨.ROR, .acc, 2, 0⟩, ⟨.ILL, .imp, 7, 0⟩,
   ⟨.JMP, .ind, 5, 0⟩, ⟨.ADC, .abs, 4, 0⟩, ⟨.ROR, .abs, 6, 0⟩, ⟨.ILL, .imp, 7, 0⟩]

/-- Opcodes 0x70 to 0x7F (R84, R123). -/
def opcodeRow7 : List Desc :=
  [⟨.BVS, .rel, 2, 0⟩, ⟨.ADC, .izy, 5, 1⟩, ⟨.ILL, .imp, 7, 0⟩, ⟨.ILL, .imp, 7, 0⟩,
   ⟨.ILL, .imp, 7, 0⟩, ⟨.ADC, .zpx, 4, 0⟩, ⟨.ROR, .zpx, 6, 0⟩, ⟨.ILL, .imp, 7, 0⟩,
   ⟨.SEI, .imp, 2, 0⟩, ⟨.ADC, .aby, 4, 1⟩, ⟨.ILL, .imp, 7, 0⟩, ⟨.ILL, .imp, 7, 0⟩,
   ⟨.ILL, .imp, 7, 0⟩, ⟨.ADC, .abx, 4, 1⟩, ⟨.ROR, .abx, 7, 0⟩, ⟨.ILL, .imp, 7, 0⟩]

/-- Opcodes 0x80 to 0x8F (R84, R123). -/
def opcodeRow8 : List Desc :=
  [⟨.ILL, .imp, 7, 0⟩, ⟨.STA, .izx, 6, 0⟩, ⟨.ILL, .imp, 7, 0⟩, ⟨.ILL, .imp, 7, 0⟩,
   ⟨.STY, .zp, 3, 0⟩, ⟨.STA, .zp, 3, 0⟩, ⟨.STX, .zp, 3, 0⟩, ⟨.ILL, .imp, 7, 0⟩,
   ⟨.DEY, .imp, 2, 0⟩, ⟨.ILL, .imp, 7, 0⟩, ⟨.TXA, .imp, 2, 0⟩, ⟨.ILL, .imp, 7, 0⟩,
   ⟨.STY, .abs, 4, 0⟩, ⟨.STA, .abs, 4, 0⟩, ⟨.STX, .abs, 4, 0⟩, ⟨.ILL, .imp, 7, 0⟩]

/-- Opcodes 0x90 to 0x9F (R84, R123). -/
def opcodeRow9 : List Desc :=
  [⟨.BCC, .rel, 2, 0⟩, ⟨.STA, .izy, 6, 0⟩, ⟨.ILL, .imp, 7, 0⟩, ⟨.ILL, .imp, 7, 0⟩,
   ⟨.STY, .zpx, 4, 0⟩, ⟨.STA, .zpx, 4, 0⟩, ⟨.STX, .zpy, 4, 0⟩, ⟨.ILL, .imp, 7, 0⟩,
   ⟨.TYA, .imp, 2, 0⟩, ⟨.STA, .aby, 5, 0⟩, ⟨.TXS, .imp, 2, 0⟩, ⟨.ILL, .imp, 7, 0⟩,
   ⟨.ILL, .imp, 7, 0⟩, ⟨.STA, .abx, 5, 0⟩, ⟨.ILL, .imp, 7, 0⟩, ⟨.ILL, .imp, 7, 0⟩]

/-- Opcodes 0xA0 to 0xAF (R84, R123). -/
def opcodeRowA : List Desc :=
  [⟨.LDY, .imm, 2, 0⟩, ⟨.LDA, .izx, 6, 0⟩, ⟨.LDX, .imm, 2, 0⟩, ⟨.ILL, .imp, 7, 0⟩,
   ⟨.LDY, .zp, 3, 0⟩, ⟨.LDA, .zp, 3, 0⟩, ⟨.LDX, .zp, 3, 0⟩, ⟨.ILL, .imp, 7, 0⟩,
   ⟨.TAY, .imp, 2, 0⟩, ⟨.LDA, .imm, 2, 0⟩, ⟨.TAX, .imp, 2, 0⟩, ⟨.ILL, .imp, 7, 0⟩,
   ⟨.LDY, .abs, 4, 0⟩, ⟨.LDA, .abs, 4, 0⟩, ⟨.LDX, .abs, 4, 0⟩, ⟨.ILL, .imp, 7, 0⟩]

/-- Opcodes 0xB0 to 0xBF (R84, R123). -/
def opcodeRowB : List Desc :=
  [⟨.BCS, .rel, 2, 0⟩, ⟨.LDA, .izy, 5, 1⟩, ⟨.ILL, .imp, 7, 0⟩, ⟨.ILL, .imp, 7, 0⟩,
   ⟨.LDY, .zpx, 4, 0⟩, ⟨.LDA, .zpx, 4, 0⟩, ⟨.LDX, .zpy, 4, 0⟩, ⟨.ILL, .imp, 7, 0⟩,
   ⟨.CLV, .imp, 2, 0⟩, ⟨.LDA, .aby, 4, 1⟩, ⟨.TSX, .imp, 2, 0⟩, ⟨.ILL, .imp, 7, 0⟩,
   ⟨.LDY, .abx, 4, 1⟩, ⟨.LDA, .abx, 4, 1⟩, ⟨.LDX, .aby, 4, 1⟩, ⟨.ILL, .imp, 7, 0⟩]

/-- Opcodes 0xC0 to 0xCF (R84, R123). -/
def opcodeRowC : List Desc :=
  [⟨.CPY, .imm, 2, 0⟩, ⟨.CMP, .izx, 6, 0⟩, ⟨.ILL, .imp, 7, 0⟩, ⟨.ILL, .imp, 7, 0⟩,
   ⟨.CPY, .zp, 3, 0⟩, ⟨.CMP, .zp, 3, 0⟩, ⟨.DEC, .zp, 5, 0⟩, ⟨.ILL, .imp, 7, 0⟩,
   ⟨.INY, .imp, 2, 0⟩, ⟨.CMP, .imm, 2, 0⟩, ⟨.DEX, .imp, 2, 0⟩, ⟨.ILL, .imp, 7, 0⟩,
   ⟨.CPY, .abs, 4, 0⟩, ⟨.CMP, .abs, 4, 0⟩, ⟨.DEC, .abs, 6, 0⟩, ⟨.ILL, .imp, 7, 0⟩]

/-- Opcodes 0xD0 to 0xDF (R84, R123). -/
def opcodeRowD : List Desc :=
  [⟨.BNE, .rel, 2, 0⟩, ⟨.CMP, .izy, 5, 1⟩, ⟨.ILL, .imp, 7, 0⟩, ⟨.ILL, .imp, 7, 0⟩,
   ⟨.ILL, .imp, 7, 0⟩, ⟨.CMP, .zpx, 4, 0⟩, ⟨.DEC, .zpx, 6, 0⟩, ⟨.ILL, .imp, 7, 0⟩,
   ⟨.CLD, .imp, 2, 0⟩, ⟨.CMP, .aby, 4, 1⟩, ⟨.ILL, .imp, 7, 0⟩, ⟨.ILL, .imp, 7, 0⟩,
   ⟨.ILL, .imp, 7, 0⟩, ⟨.CMP, .abx, 4, 1⟩, ⟨.DEC, .abx, 7, 0⟩, ⟨.ILL, .imp, 7, 0⟩]

/-- Opcodes 0xE0 to 0xEF (R84, R123). -/
def opcodeRowE : List Desc :=
  [⟨.CPX, .imm, 2, 0⟩, ⟨.SBC, .izx, 6, 0⟩, ⟨.ILL, .imp, 7, 0⟩, ⟨.ILL, .imp, 7, 0⟩,
   ⟨.CPX, .zp, 3, 0⟩, ⟨.SBC, .zp, 3, 0⟩, ⟨.INC, .zp, 5, 0⟩, ⟨.ILL, .imp, 7, 0⟩,
   ⟨.INX, .imp, 2, 0⟩, ⟨.SBC, .imm, 2, 0⟩, ⟨.NOP, .imp, 2, 0⟩, ⟨.ILL, .imp, 7, 0⟩,
   ⟨.CPX, .abs, 4, 0⟩, ⟨.SBC, .abs, 4, 0⟩, ⟨.INC, .abs, 6, 0⟩, ⟨.ILL, .imp, 7, 0⟩]

/-- Opcodes 0xF0 to 0xFF (R84, R123). -/
def opcodeRowF : List Desc :=
  [⟨.BEQ, .rel, 2, 0⟩, ⟨.SBC, .izy, 5, 1⟩, ⟨.ILL, .imp, 7, 0⟩, ⟨.ILL, .imp, 7, 0⟩,
   ⟨.ILL, .imp, 7, 0⟩, ⟨.SBC, .zpx, 4, 0⟩, ⟨.INC, .zpx, 6, 0⟩, ⟨.ILL, .imp, 7, 0⟩,
   ⟨.SED, .imp, 2, 0⟩, ⟨.SBC, .aby, 4, 1⟩, ⟨.ILL, .imp, 7, 0⟩, ⟨.ILL, .imp, 7, 0⟩,
   ⟨.ILL, .imp, 7, 0⟩, ⟨.SBC, .abx, 4, 1⟩, ⟨.INC, .abx, 7, 0⟩, ⟨.ILL, .imp, 7, 0⟩]

/-- The opcode map: 16 rows of 16 descriptors (R84). -/
def opcodeRows : List (List Desc) :=
  [opcodeRow0, opcodeRow1, opcodeRow2, opcodeRow3, opcodeRow4, opcodeRow5, opcodeRow6, opcodeRow7] ++
  [opcodeRow8, opcodeRow9, opcodeRowA, opcodeRowB, opcodeRowC, opcodeRowD, opcodeRowE, opcodeRowF]

/-- The descriptor of an illegal opcode (R87). -/
def illegalDesc : Desc := ⟨.ILL, .imp, 7, 0⟩

/-- The descriptor of an opcode: a total function over the 256 byte values (R86). -/
def desc (op : Byte) : Desc := (opcodeRows.getD (op.toNat / 16) []).getD (op.toNat % 16) illegalDesc

/-! ### Decoding -/

/-- The memory operand a mode makes of its operand bytes (R82, R83). -/
def memOp? : Mode → Byte → Byte → Option MemOp
  | .zp, b1, _ => some (.zp b1)
  | .zpx, b1, _ => some (.zpx b1)
  | .zpy, b1, _ => some (.zpy b1)
  | .izx, b1, _ => some (.izx b1)
  | .izy, b1, _ => some (.izy b1)
  | .abs, b1, b2 => some (.abs (word b2 b1))
  | .abx, b1, b2 => some (.abx (word b2 b1))
  | .aby, b1, b2 => some (.aby (word b2 b1))
  | .imp, _, _ | .acc, _, _ | .imm, _, _ | .ind, _, _ | .rel, _, _ => none

/-- The source of a read-class instruction. -/
def src? (md : Mode) (b1 b2 : Byte) : Option Src :=
  match md with
  | .imm => some (.imm b1)
  | _ => (memOp? md b1 b2).map .mem

/-- The operand of a shift or rotate. -/
def place? (md : Mode) (b1 b2 : Byte) : Option Place :=
  match md with
  | .acc => some .acc
  | _ => (memOp? md b1 b2).map .mem

/-- The target of JMP. -/
def target? (md : Mode) (b1 b2 : Byte) : Option Target :=
  match md with
  | .abs => some (.abs (word b2 b1))
  | .ind => some (.ind (word b2 b1))
  | _ => none

/-- The instruction a documented descriptor makes of the operand bytes; none for `ILL`. -/
def documented? (d : Desc) (b1 b2 : Byte) : Option Instr :=
  match d.mnemonic with
  | .LDA => (src? d.mode b1 b2).map .lda
  | .LDX => (src? d.mode b1 b2).map .ldx
  | .LDY => (src? d.mode b1 b2).map .ldy
  | .ADC => (src? d.mode b1 b2).map .adc
  | .SBC => (src? d.mode b1 b2).map .sbc
  | .AND => (src? d.mode b1 b2).map .and
  | .ORA => (src? d.mode b1 b2).map .ora
  | .EOR => (src? d.mode b1 b2).map .eor
  | .CMP => (src? d.mode b1 b2).map .cmp
  | .CPX => (src? d.mode b1 b2).map .cpx
  | .CPY => (src? d.mode b1 b2).map .cpy
  | .STA => (memOp? d.mode b1 b2).map .sta
  | .STX => (memOp? d.mode b1 b2).map .stx
  | .STY => (memOp? d.mode b1 b2).map .sty
  | .BIT => (memOp? d.mode b1 b2).map .bit
  | .INC => (memOp? d.mode b1 b2).map .inc
  | .DEC => (memOp? d.mode b1 b2).map .dec
  | .ASL => (place? d.mode b1 b2).map .asl
  | .LSR => (place? d.mode b1 b2).map .lsr
  | .ROL => (place? d.mode b1 b2).map .rol
  | .ROR => (place? d.mode b1 b2).map .ror
  | .BCC => some (.bcc b1)
  | .BCS => some (.bcs b1)
  | .BEQ => some (.beq b1)
  | .BMI => some (.bmi b1)
  | .BNE => some (.bne b1)
  | .BPL => some (.bpl b1)
  | .BVC => some (.bvc b1)
  | .BVS => some (.bvs b1)
  | .JMP => (target? d.mode b1 b2).map .jmp
  | .JSR => some (.jsr (word b2 b1))
  | .TAX => some .tax
  | .TAY => some .tay
  | .TXA => some .txa
  | .TYA => some .tya
  | .TSX => some .tsx
  | .TXS => some .txs
  | .PHA => some .pha
  | .PHP => some .php
  | .PLA => some .pla
  | .PLP => some .plp
  | .INX => some .inx
  | .INY => some .iny
  | .DEX => some .dex
  | .DEY => some .dey
  | .RTS => some .rts
  | .RTI => some .rti
  | .CLC => some .clc
  | .CLD => some .cld
  | .CLI => some .cli
  | .CLV => some .clv
  | .SEC => some .sec
  | .SED => some .sed
  | .SEI => some .sei
  | .NOP => some .nop
  | .BRK => some .brk
  | .ILL => none

/-- The instruction of an opcode byte and the two bytes after it, as far as its length reaches (R82). Every byte value
decodes: what is no documented opcode is `ill` (R87). -/
def decodeOp (op b1 b2 : Byte) : Instr := (documented? (desc op) b1 b2).getD (.ill op)

/-- Why a list of bytes holds no whole instruction. -/
inductive DecodeReject where
  /-- The list ends before the instruction does. No byte value is rejected (R80, R87). -/
  | truncated
  deriving DecidableEq, Repr

/-- The instruction at the head of a list of bytes, and the bytes after it (R80, R82). -/
def decode : List Byte → Except DecodeReject (Instr × List Byte)
  | [] => .error .truncated
  | op :: rest =>
    match (desc op).size, rest with
    | 1, _ => .ok (decodeOp op 0 0, rest)
    | 2, b1 :: rest => .ok (decodeOp op b1 0, rest)
    | 3, b1 :: b2 :: rest => .ok (decodeOp op b1 b2, rest)
    | _, _ => .error .truncated

/-- The low `nbits` bits of `w`, as the three bytes an instruction can have: byte `k` holds bits `8k+7` to `8k`. -/
def tableWordBytes (nbits w : Nat) : List Byte :=
  let v := w % 2 ^ nbits
  [BitVec.ofNat 8 v, BitVec.ofNat 8 (v / 2 ^ 8), BitVec.ofNat 8 (v / 2 ^ 16)]

/-- The instruction the decoder reads from a word of the opcode table, operand bits above `nbits` being zero. -/
def decodeTableWord (nbits w : Nat) : Option Instr :=
  match decode (tableWordBytes nbits w) with
  | .ok (i, _) => some i
  | .error _ => none

/-! ### Encoding -/

/-- The opcode of a memory form, from a mnemonic's columns in R123. -/
def MemOp.opcode (zp zpx zpy abs abx aby izx izy : Option Byte) : MemOp → Option Byte
  | .zp _ => zp
  | .zpx _ => zpx
  | .zpy _ => zpy
  | .abs _ => abs
  | .abx _ => abx
  | .aby _ => aby
  | .izx _ => izx
  | .izy _ => izy

/-- The opcode of a source form: the `imm` column, or a memory form's. -/
def Src.opcode (imm : Option Byte) (mem : MemOp → Option Byte) : Src → Option Byte
  | .imm _ => imm
  | .mem m => mem m

/-- The opcode of a shift's form: the `acc` column, or a memory form's. -/
def Place.opcode (acc : Option Byte) (mem : MemOp → Option Byte) : Place → Option Byte
  | .acc => acc
  | .mem m => mem m

/-- The instruction's opcode byte (R123, R87); none where the term is no row of the table. -/
def Instr.opcode? : Instr → Option Byte
  | .lda s => s.opcode (some 0xA9)
      (MemOp.opcode (some 0xA5) (some 0xB5) none (some 0xAD) (some 0xBD) (some 0xB9) (some 0xA1) (some 0xB1))
  | .ldx s => s.opcode (some 0xA2)
      (MemOp.opcode (some 0xA6) none (some 0xB6) (some 0xAE) none (some 0xBE) none none)
  | .ldy s => s.opcode (some 0xA0)
      (MemOp.opcode (some 0xA4) (some 0xB4) none (some 0xAC) (some 0xBC) none none none)
  | .sta m => m.opcode (some 0x85) (some 0x95) none (some 0x8D) (some 0x9D) (some 0x99) (some 0x81) (some 0x91)
  | .stx m => m.opcode (some 0x86) none (some 0x96) (some 0x8E) none none none none
  | .sty m => m.opcode (some 0x84) (some 0x94) none (some 0x8C) none none none none
  | .tax => some 0xAA
  | .tay => some 0xA8
  | .txa => some 0x8A
  | .tya => some 0x98
  | .tsx => some 0xBA
  | .txs => some 0x9A
  | .pha => some 0x48
  | .php => some 0x08
  | .pla => some 0x68
  | .plp => some 0x28
  | .adc s => s.opcode (some 0x69)
      (MemOp.opcode (some 0x65) (some 0x75) none (some 0x6D) (some 0x7D) (some 0x79) (some 0x61) (some 0x71))
  | .sbc s => s.opcode (some 0xE9)
      (MemOp.opcode (some 0xE5) (some 0xF5) none (some 0xED) (some 0xFD) (some 0xF9) (some 0xE1) (some 0xF1))
  | .and s => s.opcode (some 0x29)
      (MemOp.opcode (some 0x25) (some 0x35) none (some 0x2D) (some 0x3D) (some 0x39) (some 0x21) (some 0x31))
  | .ora s => s.opcode (some 0x09)
      (MemOp.opcode (some 0x05) (some 0x15) none (some 0x0D) (some 0x1D) (some 0x19) (some 0x01) (some 0x11))
  | .eor s => s.opcode (some 0x49)
      (MemOp.opcode (some 0x45) (some 0x55) none (some 0x4D) (some 0x5D) (some 0x59) (some 0x41) (some 0x51))
  | .bit m => m.opcode (some 0x24) none none (some 0x2C) none none none none
  | .cmp s => s.opcode (some 0xC9)
      (MemOp.opcode (some 0xC5) (some 0xD5) none (some 0xCD) (some 0xDD) (some 0xD9) (some 0xC1) (some 0xD1))
  | .cpx s => s.opcode (some 0xE0)
      (MemOp.opcode (some 0xE4) none none (some 0xEC) none none none none)
  | .cpy s => s.opcode (some 0xC0)
      (MemOp.opcode (some 0xC4) none none (some 0xCC) none none none none)
  | .inc m => m.opcode (some 0xE6) (some 0xF6) none (some 0xEE) (some 0xFE) none none none
  | .dec m => m.opcode (some 0xC6) (some 0xD6) none (some 0xCE) (some 0xDE) none none none
  | .inx => some 0xE8
  | .iny => some 0xC8
  | .dex => some 0xCA
  | .dey => some 0x88
  | .asl p => p.opcode (some 0x0A)
      (MemOp.opcode (some 0x06) (some 0x16) none (some 0x0E) (some 0x1E) none none none)
  | .lsr p => p.opcode (some 0x4A)
      (MemOp.opcode (some 0x46) (some 0x56) none (some 0x4E) (some 0x5E) none none none)
  | .rol p => p.opcode (some 0x2A)
      (MemOp.opcode (some 0x26) (some 0x36) none (some 0x2E) (some 0x3E) none none none)
  | .ror p => p.opcode (some 0x6A)
      (MemOp.opcode (some 0x66) (some 0x76) none (some 0x6E) (some 0x7E) none none none)
  | .bcc _ => some 0x90
  | .bcs _ => some 0xB0
  | .beq _ => some 0xF0
  | .bmi _ => some 0x30
  | .bne _ => some 0xD0
  | .bpl _ => some 0x10
  | .bvc _ => some 0x50
  | .bvs _ => some 0x70
  | .jmp (.abs _) => some 0x4C
  | .jmp (.ind _) => some 0x6C
  | .jsr _ => some 0x20
  | .rts => some 0x60
  | .rti => some 0x40
  | .clc => some 0x18
  | .cld => some 0xD8
  | .cli => some 0x58
  | .clv => some 0xB8
  | .sec => some 0x38
  | .sed => some 0xF8
  | .sei => some 0x78
  | .nop => some 0xEA
  | .brk => some 0x00
  | .ill op => if illegalOpcodes.contains op then some op else none

/-- A 16-bit operand as its two bytes, low byte first (R82). -/
def addrBytes (a : Addr) : List Byte := [loByte a, hiByte a]

/-- The operand bytes of a memory form (R82). -/
def MemOp.bytes : MemOp → List Byte
  | .zp z | .zpx z | .zpy z | .izx z | .izy z => [z]
  | .abs a | .abx a | .aby a => addrBytes a

/-- The operand bytes of a source form. -/
def Src.bytes : Src → List Byte
  | .imm n => [n]
  | .mem m => m.bytes

/-- The operand bytes of a shift's form. -/
def Place.bytes : Place → List Byte
  | .acc => []
  | .mem m => m.bytes

/-- The operand bytes of a jump's target. -/
def Target.bytes : Target → List Byte
  | .abs a | .ind a => addrBytes a

/-- The bytes after the opcode (R82). -/
def Instr.operandBytes : Instr → List Byte
  | .lda s | .ldx s | .ldy s | .adc s | .sbc s | .and s | .ora s | .eor s | .cmp s | .cpx s | .cpy s => s.bytes
  | .sta m | .stx m | .sty m | .bit m | .inc m | .dec m => m.bytes
  | .asl p | .lsr p | .rol p | .ror p => p.bytes
  | .bcc d | .bcs d | .beq d | .bmi d | .bne d | .bpl d | .bvc d | .bvs d => [d]
  | .jmp t => t.bytes
  | .jsr a => addrBytes a
  | .tax | .tay | .txa | .tya | .tsx | .txs | .pha | .php | .pla | .plp | .inx | .iny | .dex | .dey | .rts | .rti
  | .clc | .cld | .cli | .clv | .sec | .sed | .sei | .nop | .brk | .ill _ => []

/-- The bytes of an instruction (R82); none where the term is no row of the table. -/
def encode (i : Instr) : Option (List Byte) := i.opcode?.map (· :: i.operandBytes)

/-- The descriptor of an instruction's opcode (R86); none where the term is no row of the table. -/
def Instr.desc? (i : Instr) : Option Desc := i.opcode?.map desc

end Sys2Proof
end

