-- ==== Sys2Proof/Config.lean ====
section
/-!
DEFINITION. The named parameters the spec's model takes as arguments (`00_scope.md` R8). They are plain data: State
carries a value of this type that no step changes (log 2), so what is stated of every state is stated of every
parameter value.
-/

namespace Sys2Proof

/-- `BRK_PC_MODE` (R8, R233): PC after BRK or an illegal opcode is 0xFFFE itself, or the word stored there. -/
inductive BrkPcMode where
  | literal
  | vector
  deriving DecidableEq, Repr

/-- `DECIMAL_MODE` (R8, R170 to R173): ADC and SBC with D set do NMOS decimal arithmetic, or ignore D. -/
inductive DecimalMode where
  | nmos
  | binary
  deriving DecidableEq, Repr

/-- The parameters of R8 that belong to the machine (`CAPTURE_BEGIN` and `CAPTURE_END` belong to a recorder). -/
structure Config where
  /-- `MAX_CYCLES`: the cycle budget of one Capture (R272; OPEN, D34). -/
  maxCycles : Nat
  /-- `BRK_PC_MODE` (R233; OPEN, D4). -/
  brkPcMode : BrkPcMode
  /-- `RTS_SUSPEND_AT_FE`: whether RTS with SP = 0xFE also suspends (R217; OPEN, D6). -/
  rtsSuspendAtFe : Bool
  /-- `DECIMAL_MODE` (R170; OPEN, D20). -/
  decimalMode : DecimalMode
  /-- `JMP_IND_PAGE_WRAP`: whether JMP (ind) fetches its high byte from the pointer's own page (R114; OPEN, D21). -/
  jmpIndPageWrap : Bool
  /-- `RESET_X` (R300, D12). -/
  resetX : Byte
  /-- `RESET_Y` (R300, D12). -/
  resetY : Byte
  /-- `RESET_SP` (R300, D12). -/
  resetSp : Byte
  /-- `RESET_P` (R300, D12). -/
  resetP : Byte
  deriving DecidableEq, Repr

/-- The values R8 lists as the defaults of its parameters. -/
def Config.default : Config where
  maxCycles := 20000
  brkPcMode := .literal
  rtsSuspendAtFe := false
  decimalMode := .nmos
  jmpIndPageWrap := true
  resetX := 0x00
  resetY := 0x00
  resetSp := 0xFF
  resetP := 0x00

end Sys2Proof
end

