-- ==== Sys2Proof/Machine/Flags.lean ====
section
/-!
DEFINITION. The status byte's flags (`10_state.md` R24) and every flag computation: N and Z of a result (R10), the
binary and NMOS decimal additions and subtractions (`43_arith_logic.md` R170 to R173), the compares (R178), BIT (R177)
and the shifts and rotates (`44_shift_rotate.md` R195 to R198).
-/

namespace Sys2Proof.Machine

/-- The eight status flags, from bit 7 to bit 0 (R24). -/
inductive Flag where
  | n | v | u | b | d | i | z | c
  deriving DecidableEq, Repr

/-- A flag's bit of P (R24). -/
def Flag.index : Flag → Nat
  | .n => 7
  | .v => 6
  | .u => 5
  | .b => 4
  | .d => 3
  | .i => 2
  | .z => 1
  | .c => 0

/-- The byte with only the flag's bit set. -/
def Flag.mask (f : Flag) : Byte := 1#8 <<< f.index

/-- A flag of a status byte. -/
def getFlag (p : Byte) (f : Flag) : Bool := p.getLsbD f.index

/-- A status byte with one flag written. -/
def putFlag (p : Byte) (f : Flag) (v : Bool) : Byte := if v then p ||| f.mask else p &&& ~~~f.mask

/-- `setNZ(v)`: `P.N <- v[7]; P.Z <- (v = 0)` (R10). -/
def putNZ (p v : Byte) : Byte := putFlag (putFlag p .n v.msb) .z (v == 0)

/-- The byte a push of P stores: bits 5 and 4 are 1 whatever P holds (R161, D23). -/
def pushedStatus (p : Byte) : Byte := p ||| 0x30

/-- P.C as a number. -/
def carryIn (p : Byte) : Nat := (getFlag p .c).toNat

/-- Binary addition with carry (R170): the new A and P. -/
def adcBinary (a m p : Byte) : Byte × Byte :=
  let s := a.toNat + m.toNat + carryIn p
  let r := BitVec.ofNat 8 s
  let p1 := putFlag p .c (decide (s > 0xFF))
  let p2 := putFlag p1 .v (((a ^^^ r) &&& (m ^^^ r) &&& 0x80) != 0)
  (r, putNZ p2 r)

/-- NMOS decimal addition (R171): the new A and P. -/
def adcDecimal (a m p : Byte) : Byte × Byte :=
  let c := carryIn p
  let bin := BitVec.ofNat 8 (a.toNat + m.toNat + c)
  let lo0 := a.toNat % 16 + m.toNat % 16 + c
  let lo := if lo0 > 9 then lo0 + 6 else lo0
  let hi0 := a.toNat / 16 + m.toNat / 16 + (if lo > 0x0F then 1 else 0)
  let p1 := putFlag p .z (bin == 0)
  let p2 := putFlag p1 .n (hi0.testBit 3)
  let p3 := putFlag p2 .v ((~~~(a ^^^ m) &&& (a ^^^ BitVec.ofNat 8 (hi0 * 16)) &&& 0x80) != 0)
  let hi := if hi0 > 9 then hi0 + 6 else hi0
  let p4 := putFlag p3 .c (decide (hi > 0x0F))
  (BitVec.ofNat 8 (hi * 16 + lo % 16), p4)

/-- The binary difference of a subtraction with borrow, plus 256 (R173). -/
def sbcSum (a m p : Byte) : Nat := a.toNat + (~~~m).toNat + carryIn p

/-- The four flags of SBC, the same in binary and in decimal (R172, R173). -/
def sbcFlags (a m p : Byte) : Byte :=
  let s := sbcSum a m p
  let r := BitVec.ofNat 8 s
  let p1 := putFlag p .c (decide (s > 0xFF))
  let p2 := putFlag p1 .v (((a ^^^ m) &&& (a ^^^ r) &&& 0x80) != 0)
  putNZ p2 r

/-- Binary subtraction with borrow (R173): the new A and P. -/
def sbcBinary (a m p : Byte) : Byte × Byte := (BitVec.ofNat 8 (sbcSum a m p), sbcFlags a m p)

/-- NMOS decimal subtraction (R172): the new A and P. -/
def sbcDecimal (a m p : Byte) : Byte × Byte :=
  let b : Int := 1 - carryIn p
  let lo0 : Int := (a.toNat % 16 : Nat) - (m.toNat % 16 : Nat) - b
  let hb : Int := if lo0 < 0 then 1 else 0
  let lo := if lo0 < 0 then lo0 - 6 else lo0
  let hi0 : Int := (a.toNat / 16 : Nat) - (m.toNat / 16 : Nat) - hb
  let hi := if hi0 < 0 then hi0 - 6 else hi0
  (BitVec.ofInt 8 (hi % 16 * 16 + lo % 16), sbcFlags a m p)

/-- ADC and SBC do decimal arithmetic when P.D is 1 and `DECIMAL_MODE` is `nmos` (R170, R173). -/
def decimalActive (mode : DecimalMode) (p : Byte) : Bool := getFlag p .d && mode == .nmos

/-- ADC's new A and P (R170, R171). -/
def adcResult (mode : DecimalMode) (a m p : Byte) : Byte × Byte :=
  if decimalActive mode p then adcDecimal a m p else adcBinary a m p

/-- SBC's new A and P (R172, R173). -/
def sbcResult (mode : DecimalMode) (a m p : Byte) : Byte × Byte :=
  if decimalActive mode p then sbcDecimal a m p else sbcBinary a m p

/-- P after comparing register `r` with `m` (R178 to R180). -/
def compareFlags (r m p : Byte) : Byte :=
  let t := r - m
  let p1 := putFlag p .c (decide (m ≤ r))
  putFlag (putFlag p1 .z (r == m)) .n t.msb

/-- P after BIT (R177). -/
def bitFlags (a m p : Byte) : Byte :=
  putFlag (putFlag (putFlag p .n (m.getLsbD 7)) .v (m.getLsbD 6)) .z ((a &&& m) == 0)

/-- INC: the new value and P (R181). -/
def incResult (v p : Byte) : Byte × Byte := (v + 1, putNZ p (v + 1))

/-- DEC: the new value and P (R182). -/
def decResult (v p : Byte) : Byte × Byte := (v - 1, putNZ p (v - 1))

/-- ASL: the new value and P (R195). -/
def aslResult (v p : Byte) : Byte × Byte :=
  let r := v <<< 1
  (r, putNZ (putFlag p .c (v.getLsbD 7)) r)

/-- LSR: the new value and P (R196). -/
def lsrResult (v p : Byte) : Byte × Byte :=
  let r := v >>> 1
  (r, putNZ (putFlag p .c (v.getLsbD 0)) r)

/-- ROL: the new value and P (R197). -/
def rolResult (v p : Byte) : Byte × Byte :=
  let r := (v <<< 1) ||| BitVec.ofNat 8 (carryIn p)
  (r, putNZ (putFlag p .c (v.getLsbD 7)) r)

/-- ROR: the new value and P (R198). -/
def rorResult (v p : Byte) : Byte × Byte :=
  let r := (v >>> 1) ||| (BitVec.ofNat 8 (carryIn p) <<< 7)
  (r, putNZ (putFlag p .c (v.getLsbD 0)) r)

end Sys2Proof.Machine
end

