-- ==== Sys2Proof/Machine/State.lean ====
section
/-!
DEFINITION. The machine's state: the CPU registers (`10_state.md` R20), memory and its snapshot slot (`20_memory.md`
R50, R74), the recorder bound to the write hook (R36, R37), and the configuration; the reasons a step can stop; and the
state after reset.
-/

namespace Sys2Proof.Machine

/-- Memory: the bytes that differ from 0x00, by strictly rising address (R50; the canonical form is `Memory.wf`). -/
abbrev Memory := List Host.Cell

/-- What suspended the core (R250, R251): bookkeeping that no output depends on (log 7). -/
inductive SuspendCause where
  | brk
  | illegalOpcode
  | rtsEmptyStack
  deriving DecidableEq, Repr

/-- One captured write (R37, R265): its address, its value, and the cycle its instruction started at. -/
structure WriteCapture where
  address : Addr
  value : Byte
  cycle : Nat
  deriving DecidableEq, Repr

/-- A recorder (R37): its inclusive capture range, its log, and the indicator of R276. -/
structure Recorder where
  rangeBegin : Addr
  rangeEnd : Addr
  log : List WriteCapture
  reachedMaxCycles : Bool
  deriving DecidableEq, Repr

/-- Everything the spec gives the machine. -/
@[ext]
structure State where
  /-- The accumulator (R21). -/
  a : Byte
  /-- Index register X (R22). -/
  x : Byte
  /-- Index register Y (R22). -/
  y : Byte
  /-- The low byte of the next free stack location (R23). -/
  sp : Byte
  /-- The status byte, N V U B D I Z C from bit 7 to bit 0 (R24). -/
  p : Byte
  /-- The address of the instruction about to execute (R33). -/
  pc : Addr
  /-- The cycle counter (R34). Until an instruction ends it is also the stamp of its writes (R101, R266; log 10). -/
  cycles : Nat
  /-- The suspended flag (R35). -/
  suspended : Bool
  /-- The cause of the suspension (R251), none while running. -/
  cause : Option SuspendCause
  /-- The 64 KiB of memory (R50). -/
  mem : Memory
  /-- The snapshot slot (R74): the host's, reached by no instruction. -/
  snapshot : Option Memory
  /-- The recorder bound to the write-notification hook, if one is (R36, R269). -/
  recorder : Option Recorder
  /-- The machine's parameters (R8): fixed, changed by no step (log 2). -/
  cfg : Config
  deriving DecidableEq, Repr

/-- Reasons for the machine to stop with a fault. There are none: the core raises no exception and takes no interrupt
(R255, R256), and every way it stops is a suspension, which is an ordinary next state (R250, R252). -/
inductive Fault where
  deriving DecidableEq, Repr

/-- Reasons for the model to give no next state. -/
inductive Refusal where
  /-- An arm of `exec` without a meaning yet; safe. No arm of this model answers it. -/
  | notModelled (mnemonic : String)
  /-- A meaning given a term that is no row of the opcode table (`Instr.wellFormed` is false); safe, and never raised
  by a step, since the decoder yields rows only (log 8). -/
  | noSuchForm
  /-- A host call that needs the memory lock, made without it (R70, R311, D41); safe. -/
  | lockNotHeld
  /-- A host block call that reaches past the end of memory (R72, D45); safe. -/
  | blockPastEnd
  /-- RestoreFromSnapshot with an empty slot (R74, D40); safe. -/
  | snapshotEmpty
  /-- Capture with no repetition (R270, D43); safe. -/
  | noRepetitions
  /-- Constructing a recorder on a CPU that has one (R269, D35); safe. -/
  | recorderBound
  /-- A call on the CPU's recorder when none is bound (log 12); safe. -/
  | noRecorder
  deriving DecidableEq, Repr

/-- The machine right after reset: `CpuReset` and the start of a repetition with entry address and seed 0 (R300, R301;
log 3), memory with nothing listed (log 4), no snapshot and no recorder (log 5), the default parameters (log 2). -/
def State.reset : State where
  a := 0x00
  x := 0x00
  y := 0x00
  sp := 0xFF
  p := 0x00
  pc := 0x0000
  cycles := 0
  suspended := false
  cause := none
  mem := []
  snapshot := none
  recorder := none
  cfg := Config.default

end Sys2Proof.Machine
end

