-- ==== Sys2Proof/Machine/Ops.lean ====
section
/-!
DEFINITION. The named operations over memory, the registers, the write hook and the stack (`20_memory.md` R50 to R62,
`60_exceptions.md` R265), suspension (R251), the suspend entry that BRK and the illegal opcodes share (R233, R240), the
return RTI makes (R218), and the end of an instruction (R103, R104).
-/

namespace Sys2Proof.Machine

/-! ### Memory -/

/-- What an address that memory does not list reads as: 0x00, as after `Clear` (R73; log 4). -/
def Memory.unlisted : Byte := 0x00

/-- The byte at an address (R56). -/
def Memory.read : Memory → Nat → Byte
  | [], _ => Memory.unlisted
  | (k, v) :: rest, a => if k = a then v else Memory.read rest a

/-- List a byte at its place by address, over an earlier entry for the address. -/
def Memory.setEntry : Memory → Nat → Byte → Memory
  | [], a, v => [(a, v)]
  | (k, w) :: rest, a, v =>
    if a < k then (a, v) :: (k, w) :: rest
    else if k = a then (a, v) :: rest
    else (k, w) :: Memory.setEntry rest a v

/-- Take an address out of the list. -/
def Memory.dropEntry (m : Memory) (a : Nat) : Memory := m.filter fun c => c.1 != a

/-- Store a byte (R50, R55), keeping the canonical form. -/
def Memory.write (m : Memory) (a : Nat) (v : Byte) : Memory :=
  if v = Memory.unlisted then m.dropEntry a else m.setEntry a v

/-- Store bytes at consecutive addresses from `a` on, wrapping past 0xFFFF (R51, R52). -/
def Memory.writeAll (m : Memory) (a : Addr) : List Byte → Memory
  | [] => m
  | v :: rest => Memory.writeAll (m.write a.toNat v) (a + 1) rest

/-- The canonical form: addresses below 0x10000, strictly rising from `lo` on, and no entry that holds what an unlisted
address reads as. -/
def Memory.wfFrom : Nat → Memory → Bool
  | _, [] => true
  | lo, (k, v) :: rest => decide (lo ≤ k) && decide (k < 0x10000) && (v != Memory.unlisted) && Memory.wfFrom (k + 1) rest

/-- Memory is in its canonical form, so that equal memories are equal lists. -/
def Memory.wf (m : Memory) : Bool := Memory.wfFrom 0 m

/-! ### Registers -/

/-- `A <- v`. -/
def State.setA (s : State) (v : Byte) : State := { s with a := v }

/-- `X <- v`. -/
def State.setX (s : State) (v : Byte) : State := { s with x := v }

/-- `Y <- v`. -/
def State.setY (s : State) (v : Byte) : State := { s with y := v }

/-- `SP <- v`. -/
def State.setSp (s : State) (v : Byte) : State := { s with sp := v }

/-- `P <- v`: all eight bits are stored (R24, R163). -/
def State.setP (s : State) (v : Byte) : State := { s with p := v }

/-- `PC <- v`. -/
def State.setPc (s : State) (v : Addr) : State := { s with pc := v }

/-- `cycles <- cycles + n` (R34, R104). -/
def State.addCycles (s : State) (n : Nat) : State := { s with cycles := s.cycles + n }

/-- `setNZ(v)` on the status byte (R10). -/
def State.setNZ (s : State) (v : Byte) : State := s.setP (putNZ s.p v)

/-- `suspend(cause)` (R251). -/
def State.suspend (s : State) (c : SuspendCause) : State := { s with suspended := true, cause := some c }

/-! ### CPU accesses -/

/-- `MemRead(addr, 1)`: no side effect, notified to no one (R56). -/
def State.read (s : State) (a : Addr) : Byte := s.mem.read a.toNat

/-- The instruction at PC (R101): its opcode byte, and the bytes after it that its length takes in, wrapping past 0xFFFF
(R89). -/
def State.fetch (s : State) : Instr := decodeOp (s.read s.pc) (s.read (s.pc + 1)) (s.read (s.pc + 2))

/-- The recorder's notification (R265): log the write if its address is in the inclusive range. -/
def Recorder.notify (r : Recorder) (a : Addr) (v : Byte) (stamp : Nat) : Recorder :=
  if r.rangeBegin ≤ a ∧ a ≤ r.rangeEnd then { r with log := r.log ++ [⟨a, v, stamp⟩] } else r

/-- `MemWrite(addr, 1, v)` (R55): store, then notify the recorder, if one is bound, with the stamp of the instruction,
which is `cycles` until the instruction's cycles are added (R101, R104). -/
def State.write (s : State) (a : Addr) (v : Byte) : State :=
  { s with mem := s.mem.write a.toNat v, recorder := s.recorder.map fun r => r.notify a v s.cycles }

/-! ### The stack -/

/-- The address a stack pointer stands for, in page 1 (R60). -/
def stackAddr (sp : Byte) : Addr := word 0x01 sp

/-- `Push(v)` (R61). -/
def State.push (s : State) (v : Byte) : State := (s.write (stackAddr s.sp) v).setSp (s.sp - 1)

/-- `Pull()` (R62): the byte, and the state after. -/
def State.pull (s : State) : Byte × State := (s.read (stackAddr (s.sp + 1)), s.setSp (s.sp + 1))

/-- Push a 16-bit value, high byte first (R58). -/
def State.pushWord (s : State) (w : Addr) : State := (s.push (hiByte w)).push (loByte w)

/-- Pull a 16-bit value, low byte first (R58). -/
def State.pullWord (s : State) : Addr × State :=
  let (lo, s1) := s.pull
  let (hi, s2) := s1.pull
  (word hi lo, s2)

/-! ### The suspend entry and the return -/

/-- The address BRK and the illegal opcodes jump to or through (R59, R233). -/
def brkVector : Addr := 0xFFFE

/-- PC after the suspend entry (R233): the vector's address, or the word stored there. -/
def State.brkTarget (s : State) : Addr :=
  match s.cfg.brkPcMode with
  | .literal => brkVector
  | .vector => word (s.read (brkVector + 1)) (s.read brkVector)

/-- What BRK and every illegal opcode do (R233, R240, R254): push PC + 2, high byte first, then P with bits 5 and 4
set; set I; set PC; suspend. -/
def State.suspendEntry (s : State) (c : SuspendCause) : State :=
  let s1 := (s.pushWord (s.pc + 2)).push (pushedStatus s.p)
  let s2 := s1.setP (putFlag s1.p .i true)
  (s2.setPc s2.brkTarget).suspend c

/-- What RTI does (R218): pull P, all eight bits, then PC, low byte first, with no increment. -/
def State.returnFromInterrupt (s : State) : State :=
  let (p, s1) := s.pull
  let (target, s2) := (s1.setP p).pullWord
  s2.setPc target

/-! ### The end of an instruction -/

/-- The end of an instruction that did not set PC: `PC <- next`, and its cycles (R103, R104). -/
def State.finish (s : State) (d : Desc) (extra : Nat) : State :=
  (s.setPc (s.pc + BitVec.ofNat 16 d.size)).addCycles (d.base + extra)

/-- The end of an instruction that set PC: its cycles (R103, R104). -/
def State.finishTransfer (s : State) (d : Desc) (extra : Nat) : State := s.addCycles (d.base + extra)

/-- The meaning of a row of the opcode table, given what the row's descriptor makes of the state; a term that is no row
is refused by name (log 8). -/
def withRow (i : Instr) (k : Desc → State) : Host.Outcome State Fault Refusal :=
  match i.desc? with
  | some d => .next (k d)
  | none => .refused .noSuchForm

end Sys2Proof.Machine
end

