-- ==== Sys2Proof/Machine/Operands.lean ====
section
/-!
DEFINITION. The addressing modes (`40_execute_cycle.md` R105 to R117), the value and the page-cross report of a source,
and the shapes of the operand classes (R118): read, write, read-modify-write, implied and branch.
-/

namespace Sys2Proof.Machine

/-- A resolved memory operand: its effective address, and whether indexing crossed a page. -/
structure Resolved where
  ea : Addr
  crossed : Bool
  deriving DecidableEq, Repr

/-- An 8-bit address in page 0, `zext_16` (R83). -/
def zeroPage (z : Byte) : Addr := z.zeroExtend 16

/-- The word at a page-0 pointer, both bytes in page 0 (R115, R116). -/
def State.zeroPageWord (s : State) (z : Byte) : Addr := word (s.read (zeroPage (z + 1))) (s.read (zeroPage z))

/-- `base +16 zext_16(index)`, with its page-cross report (R112, R113, R116). -/
def indexed (base : Addr) (index : Byte) : Resolved :=
  let ea := base + index.zeroExtend 16
  ⟨ea, hiByte base != hiByte ea⟩

/-- The effective address of a memory operand and its page-cross report (R108 to R113, R115, R116). -/
def resolve (m : MemOp) (s : State) : Resolved :=
  match m with
  | .zp z => ⟨zeroPage z, false⟩
  | .zpx z => ⟨zeroPage (z + s.x), false⟩
  | .zpy z => ⟨zeroPage (z + s.y), false⟩
  | .abs a => ⟨a, false⟩
  | .abx a => indexed a s.x
  | .aby a => indexed a s.y
  | .izx z => ⟨s.zeroPageWord (z + s.x), false⟩
  | .izy z => indexed (s.zeroPageWord z) s.y

/-- The operand byte `M` of a source: the immediate (R107), or the byte at the effective address. -/
def srcValue (src : Src) (s : State) : Byte :=
  match src with
  | .imm n => n
  | .mem m => s.read (resolve m s).ea

/-- Whether resolving a source crossed a page. -/
def srcCrossed (src : Src) (s : State) : Bool :=
  match src with
  | .imm _ => false
  | .mem m => (resolve m s).crossed

/-- The extra cycle of a page cross, where the descriptor has one (R104, R121). -/
def crossExtra (d : Desc) (crossed : Bool) : Nat := if crossed then d.pageCrossExtra else 0

/-- The target of JMP (R111, R114). With `JMP_IND_PAGE_WRAP` the high byte comes from the pointer's own page. -/
def jumpTarget (t : Target) (s : State) : Addr :=
  match t with
  | .abs a => a
  | .ind ptr =>
    let hiAt := if s.cfg.jmpIndPageWrap then word (hiByte ptr) (loByte ptr + 1) else ptr + 1
    word (s.read hiAt) (s.read ptr)

/-- The target of a branch: `next +16 sext_16(offset)` (R83, R117). -/
def branchTarget (next : Addr) (offset : Byte) : Addr := next + offset.signExtend 16

/-! ### The shapes of the operand classes -/

/-- A read-class instruction (R118): read `M`, then change the registers by it. -/
def readClass (i : Instr) (src : Src) (s : State) (k : Byte → State) : Host.Outcome State Fault Refusal :=
  withRow i fun d => (k (srcValue src s)).finish d (crossExtra d (srcCrossed src s))

/-- A write-class instruction (R118): one write of `v` at the effective address, and no read of it. -/
def writeClass (i : Instr) (m : MemOp) (v : Byte) (s : State) : Host.Outcome State Fault Refusal :=
  withRow i fun d => (s.write (resolve m s).ea v).finish d (crossExtra d (resolve m s).crossed)

/-- One read, then one write of what `f` makes of the byte and P; P becomes `f`'s (R118). -/
def modifyMem (m : MemOp) (s : State) (f : Byte → Byte → Byte × Byte) : State :=
  let ea := (resolve m s).ea
  let r := f (s.read ea) s.p
  (s.write ea r.1).setP r.2

/-- A read-modify-write instruction of memory (R118). -/
def modifyMemClass (i : Instr) (m : MemOp) (s : State) (f : Byte → Byte → Byte × Byte) :
    Host.Outcome State Fault Refusal :=
  withRow i fun d => (modifyMem m s f).finish d (crossExtra d (resolve m s).crossed)

/-- The accumulator form of a shift or rotate (R106): what `f` makes of A and P. -/
def modifyAcc (s : State) (f : Byte → Byte → Byte × Byte) : State :=
  let r := f s.a s.p
  (s.setA r.1).setP r.2

/-- A shift or rotate, of A (R106) or of memory. -/
def shiftClass (i : Instr) (place : Place) (s : State) (f : Byte → Byte → Byte × Byte) :
    Host.Outcome State Fault Refusal :=
  match place with
  | .acc => withRow i fun d => (modifyAcc s f).finish d 0
  | .mem m => modifyMemClass i m s f

/-- An implied instruction that does not set PC (R118): change the state, then end. -/
def impliedClass (i : Instr) (after : State) : Host.Outcome State Fault Refusal :=
  withRow i fun d => after.finish d 0

/-- An instruction that set PC itself (R103). -/
def transferClass (i : Instr) (after : State) : Host.Outcome State Fault Refusal :=
  withRow i fun d => after.finishTransfer d 0

/-- A branch (R205, R122): when the condition holds, to the target, one more cycle, and another across a page. -/
def branchClass (i : Instr) (taken : Bool) (offset : Byte) (s : State) : Host.Outcome State Fault Refusal :=
  withRow i fun d =>
    let next := s.pc + BitVec.ofNat 16 d.size
    let target := branchTarget next offset
    if taken then (s.setPc target).finishTransfer d (1 + (hiByte next != hiByte target).toNat) else s.finish d 0

end Sys2Proof.Machine
end

