-- ==== Sys2Proof/Machine/Arith.lean ====
section
/-!
DEFINITION. Arithmetic, logic, compare, increment and decrement (`43_arith_logic.md` R170 to R187).
-/

namespace Sys2Proof.Machine

/-- ADC, add with carry, binary or decimal (R170, R171). -/
def execAdc (src : Src) (s : State) : Host.Outcome State Fault Refusal :=
  readClass (.adc src) src s fun m =>
    let r := adcResult s.cfg.decimalMode s.a m s.p
    (s.setA r.1).setP r.2

/-- SBC, subtract with borrow, binary or decimal (R172, R173). -/
def execSbc (src : Src) (s : State) : Host.Outcome State Fault Refusal :=
  readClass (.sbc src) src s fun m =>
    let r := sbcResult s.cfg.decimalMode s.a m s.p
    (s.setA r.1).setP r.2

/-- AND, bitwise and with accumulator (R174). -/
def execAnd (src : Src) (s : State) : Host.Outcome State Fault Refusal :=
  readClass (.and src) src s fun m => (s.setA (s.a &&& m)).setNZ (s.a &&& m)

/-- ORA, bitwise or with accumulator (R175). -/
def execOra (src : Src) (s : State) : Host.Outcome State Fault Refusal :=
  readClass (.ora src) src s fun m => (s.setA (s.a ||| m)).setNZ (s.a ||| m)

/-- EOR, bitwise exclusive or with accumulator (R176). -/
def execEor (src : Src) (s : State) : Host.Outcome State Fault Refusal :=
  readClass (.eor src) src s fun m => (s.setA (s.a ^^^ m)).setNZ (s.a ^^^ m)

/-- BIT, test bits: no register is written (R177). -/
def execBit (src : MemOp) (s : State) : Host.Outcome State Fault Refusal :=
  readClass (.bit src) (.mem src) s fun m => s.setP (bitFlags s.a m s.p)

/-- CMP, compare with accumulator (R178). -/
def execCmp (src : Src) (s : State) : Host.Outcome State Fault Refusal :=
  readClass (.cmp src) src s fun m => s.setP (compareFlags s.a m s.p)

/-- CPX, compare with X (R179). -/
def execCpx (src : Src) (s : State) : Host.Outcome State Fault Refusal :=
  readClass (.cpx src) src s fun m => s.setP (compareFlags s.x m s.p)

/-- CPY, compare with Y (R180). -/
def execCpy (src : Src) (s : State) : Host.Outcome State Fault Refusal :=
  readClass (.cpy src) src s fun m => s.setP (compareFlags s.y m s.p)

/-- INC, increment memory (R181). -/
def execInc (dst : MemOp) (s : State) : Host.Outcome State Fault Refusal :=
  modifyMemClass (.inc dst) dst s incResult

/-- DEC, decrement memory (R182). -/
def execDec (dst : MemOp) (s : State) : Host.Outcome State Fault Refusal :=
  modifyMemClass (.dec dst) dst s decResult

/-- INX, increment X (R183). -/
def execInx (s : State) : Host.Outcome State Fault Refusal :=
  impliedClass .inx ((s.setX (s.x + 1)).setNZ (s.x + 1))

/-- INY, increment Y (R184). -/
def execIny (s : State) : Host.Outcome State Fault Refusal :=
  impliedClass .iny ((s.setY (s.y + 1)).setNZ (s.y + 1))

/-- DEX, decrement X (R185). -/
def execDex (s : State) : Host.Outcome State Fault Refusal :=
  impliedClass .dex ((s.setX (s.x - 1)).setNZ (s.x - 1))

/-- DEY, decrement Y (R186). -/
def execDey (s : State) : Host.Outcome State Fault Refusal :=
  impliedClass .dey ((s.setY (s.y - 1)).setNZ (s.y - 1))

end Sys2Proof.Machine
end

