-- ==== Sys2Proof/Machine/Control.lean ====
section
/-!
DEFINITION. Branches, jumps, calls and returns (`45_control.md` R205 to R218).
-/

namespace Sys2Proof.Machine

/-- BCC, branch if carry clear (R205, R206). -/
def execBcc (offset : Byte) (s : State) : Host.Outcome State Fault Refusal :=
  branchClass (.bcc offset) (!getFlag s.p .c) offset s

/-- BCS, branch if carry set (R205, R207). -/
def execBcs (offset : Byte) (s : State) : Host.Outcome State Fault Refusal :=
  branchClass (.bcs offset) (getFlag s.p .c) offset s

/-- BEQ, branch if equal (R205, R208). -/
def execBeq (offset : Byte) (s : State) : Host.Outcome State Fault Refusal :=
  branchClass (.beq offset) (getFlag s.p .z) offset s

/-- BMI, branch if minus (R205, R209). -/
def execBmi (offset : Byte) (s : State) : Host.Outcome State Fault Refusal :=
  branchClass (.bmi offset) (getFlag s.p .n) offset s

/-- BNE, branch if not equal (R205, R210). -/
def execBne (offset : Byte) (s : State) : Host.Outcome State Fault Refusal :=
  branchClass (.bne offset) (!getFlag s.p .z) offset s

/-- BPL, branch if plus (R205, R211). -/
def execBpl (offset : Byte) (s : State) : Host.Outcome State Fault Refusal :=
  branchClass (.bpl offset) (!getFlag s.p .n) offset s

/-- BVC, branch if overflow clear (R205, R212). -/
def execBvc (offset : Byte) (s : State) : Host.Outcome State Fault Refusal :=
  branchClass (.bvc offset) (!getFlag s.p .v) offset s

/-- BVS, branch if overflow set (R205, R213). -/
def execBvs (offset : Byte) (s : State) : Host.Outcome State Fault Refusal :=
  branchClass (.bvs offset) (getFlag s.p .v) offset s

/-- JMP, jump (R214). -/
def execJmp (target : Target) (s : State) : Host.Outcome State Fault Refusal :=
  transferClass (.jmp target) (s.setPc (jumpTarget target s))

/-- JSR, jump to subroutine: push PC + 2, the address of its own last byte (R215). -/
def execJsr (target : Addr) (s : State) : Host.Outcome State Fault Refusal :=
  transferClass (.jsr target) ((s.pushWord (s.pc + 2)).setPc target)

/-- RTS finds the stack empty (R216, R217): SP = 0xFF, or SP = 0xFE under `RTS_SUSPEND_AT_FE`. -/
def rtsFindsEmptyStack (s : State) : Bool := s.sp == 0xFF || (s.cfg.rtsSuspendAtFe && s.sp == 0xFE)

/-- RTS on a stack that is not empty (R216): pull the return address and go one past it. -/
def returnFromSubroutine (s : State) : State := s.pullWord.2.setPc (s.pullWord.1 + 1)

/-- RTS, return from subroutine: on an empty stack it suspends, PC, SP and memory unchanged (R216, R217). -/
def execRts (s : State) : Host.Outcome State Fault Refusal :=
  transferClass .rts (if rtsFindsEmptyStack s then s.suspend .rtsEmptyStack else returnFromSubroutine s)

/-- RTI, return from interrupt (R218). -/
def execRti (s : State) : Host.Outcome State Fault Refusal :=
  transferClass .rti s.returnFromInterrupt

end Sys2Proof.Machine
end

