-- ==== Sys2Proof/Machine/FlagSystem.lean ====
section
/-!
DEFINITION. Flag, no-operation, break and illegal-opcode instructions (`46_flags_system.md` R225 to R240).
-/

namespace Sys2Proof.Machine

/-- CLC, clear carry (R225). -/
def execClc (s : State) : Host.Outcome State Fault Refusal :=
  impliedClass .clc (s.setP (putFlag s.p .c false))

/-- CLD, clear decimal (R226). -/
def execCld (s : State) : Host.Outcome State Fault Refusal :=
  impliedClass .cld (s.setP (putFlag s.p .d false))

/-- CLI, clear interrupt disable (R227). -/
def execCli (s : State) : Host.Outcome State Fault Refusal :=
  impliedClass .cli (s.setP (putFlag s.p .i false))

/-- CLV, clear overflow (R228). -/
def execClv (s : State) : Host.Outcome State Fault Refusal :=
  impliedClass .clv (s.setP (putFlag s.p .v false))

/-- SEC, set carry (R229). -/
def execSec (s : State) : Host.Outcome State Fault Refusal :=
  impliedClass .sec (s.setP (putFlag s.p .c true))

/-- SED, set decimal (R230). -/
def execSed (s : State) : Host.Outcome State Fault Refusal :=
  impliedClass .sed (s.setP (putFlag s.p .d true))

/-- SEI, set interrupt disable (R231). -/
def execSei (s : State) : Host.Outcome State Fault Refusal :=
  impliedClass .sei (s.setP (putFlag s.p .i true))

/-- NOP, no operation (R232). -/
def execNop (s : State) : Host.Outcome State Fault Refusal :=
  impliedClass .nop s

/-- BRK, break, the suspend instruction (R233). -/
def execBrk (s : State) : Host.Outcome State Fault Refusal :=
  transferClass .brk (s.suspendEntry .brk)

/-- ILL, every illegal opcode: as BRK, with its own suspension cause (R240). -/
def execIll (opcode : Byte) (s : State) : Host.Outcome State Fault Refusal :=
  transferClass (.ill opcode) (s.suspendEntry .illegalOpcode)

end Sys2Proof.Machine
end

