-- ==== Sys2Proof/Machine/Shift.lean ====
section
/-!
DEFINITION. Shifts and rotates (`44_shift_rotate.md` R195 to R198).
-/

namespace Sys2Proof.Machine

/-- ASL, arithmetic shift left (R195). -/
def execAsl (place : Place) (s : State) : Host.Outcome State Fault Refusal :=
  shiftClass (.asl place) place s aslResult

/-- LSR, logical shift right (R196). -/
def execLsr (place : Place) (s : State) : Host.Outcome State Fault Refusal :=
  shiftClass (.lsr place) place s lsrResult

/-- ROL, rotate left through carry (R197). -/
def execRol (place : Place) (s : State) : Host.Outcome State Fault Refusal :=
  shiftClass (.rol place) place s rolResult

/-- ROR, rotate right through carry (R198). -/
def execRor (place : Place) (s : State) : Host.Outcome State Fault Refusal :=
  shiftClass (.ror place) place s rorResult

end Sys2Proof.Machine
end

