-- ==== Sys2Proof/Machine/Stack.lean ====
section
/-!
DEFINITION. The stack instructions (`42_stack.md` R160 to R163).
-/

namespace Sys2Proof.Machine

/-- PHA, push accumulator (R160). -/
def execPha (s : State) : Host.Outcome State Fault Refusal :=
  impliedClass .pha (s.push s.a)

/-- PHP, push processor status with bits 5 and 4 set (R161). -/
def execPhp (s : State) : Host.Outcome State Fault Refusal :=
  impliedClass .php (s.push (pushedStatus s.p))

/-- PLA, pull accumulator (R162). -/
def execPla (s : State) : Host.Outcome State Fault Refusal :=
  impliedClass .pla ((s.pull.2.setA s.pull.1).setNZ s.pull.1)

/-- PLP, pull processor status, all eight bits (R163). -/
def execPlp (s : State) : Host.Outcome State Fault Refusal :=
  impliedClass .plp (s.pull.2.setP s.pull.1)

end Sys2Proof.Machine
end

