-- ==== Sys2Proof/Machine/Transfer.lean ====
section
/-!
DEFINITION. Loads, stores and register transfers (`41_load_store_transfer.md` R140 to R151).
-/

namespace Sys2Proof.Machine

/-- LDA, load accumulator (R140). -/
def execLda (src : Src) (s : State) : Host.Outcome State Fault Refusal :=
  readClass (.lda src) src s fun m => (s.setA m).setNZ m

/-- LDX, load X (R141). -/
def execLdx (src : Src) (s : State) : Host.Outcome State Fault Refusal :=
  readClass (.ldx src) src s fun m => (s.setX m).setNZ m

/-- LDY, load Y (R142). -/
def execLdy (src : Src) (s : State) : Host.Outcome State Fault Refusal :=
  readClass (.ldy src) src s fun m => (s.setY m).setNZ m

/-- STA, store accumulator (R143). -/
def execSta (dst : MemOp) (s : State) : Host.Outcome State Fault Refusal :=
  writeClass (.sta dst) dst s.a s

/-- STX, store X (R144). -/
def execStx (dst : MemOp) (s : State) : Host.Outcome State Fault Refusal :=
  writeClass (.stx dst) dst s.x s

/-- STY, store Y (R145). -/
def execSty (dst : MemOp) (s : State) : Host.Outcome State Fault Refusal :=
  writeClass (.sty dst) dst s.y s

/-- TAX, transfer A to X (R146). -/
def execTax (s : State) : Host.Outcome State Fault Refusal :=
  impliedClass .tax ((s.setX s.a).setNZ s.a)

/-- TAY, transfer A to Y (R147). -/
def execTay (s : State) : Host.Outcome State Fault Refusal :=
  impliedClass .tay ((s.setY s.a).setNZ s.a)

/-- TXA, transfer X to A (R148). -/
def execTxa (s : State) : Host.Outcome State Fault Refusal :=
  impliedClass .txa ((s.setA s.x).setNZ s.x)

/-- TYA, transfer Y to A (R149). -/
def execTya (s : State) : Host.Outcome State Fault Refusal :=
  impliedClass .tya ((s.setA s.y).setNZ s.y)

/-- TSX, transfer SP to X (R150). -/
def execTsx (s : State) : Host.Outcome State Fault Refusal :=
  impliedClass .tsx ((s.setX s.sp).setNZ s.sp)

/-- TXS, transfer X to SP: no flag is written (R151). -/
def execTxs (s : State) : Host.Outcome State Fault Refusal :=
  impliedClass .txs (s.setSp s.x)

end Sys2Proof.Machine
end

