-- ==== Sys2Proof/Machine/Step.lean ====
section
/-!
DEFINITION. One step of the machine, `ExecuteInstruction` (`40_execute_cycle.md` R100 to R104, R124), and the placing of
an instruction where the next step fetches.
-/

namespace Sys2Proof.Machine

/-- One `ExecuteInstruction` (R124): nothing while suspended (R100); else the fetched instruction's meaning. -/
def step (s : State) : Host.Outcome State Fault Refusal :=
  if s.suspended then .next s else exec s.fetch s

/-- `s` with the low `nbits` bits of `w` stored as instruction bytes at PC, and running (log 6): the next step fetches and
runs exactly that instruction. -/
def State.withFetchWord (s : State) (nbits w : Nat) : State :=
  { s with
    mem := s.mem.writeAll s.pc (tableWordBytes nbits w)
    suspended := false
    cause := none }

end Sys2Proof.Machine
end

