-- ==== Sys2Proof/Machine/Recorder.lean ====
section
/-!
DEFINITION. The bounded run: the CPU reset (`70_reset_and_hazards.md` R300), the run loop, the repetitions and their
windows, and the capture result (`60_exceptions.md` R270 to R277).
-/

namespace Sys2Proof.Machine

/-- `ExecuteInstruction` with the cycles it returns (R100, R104): 0 for a call made while suspended. -/
def executeInstruction (s : State) : Host.Outcome (State × Nat) Fault Refusal :=
  match step s with
  | .next t => .next (t, t.cycles - s.cycles)
  | .fault r => .fault r
  | .refused r => .refused r

/-- `CpuReset()` (R300): X, Y, SP, P and the cycle counter; memory and the hook binding are not touched. -/
def State.cpuReset (s : State) : State :=
  { s with x := s.cfg.resetX, y := s.cfg.resetY, sp := s.cfg.resetSp, p := s.cfg.resetP, cycles := 0 }

/-- The start of a repetition (R271): PC, A and the suspended flag, and nothing else. -/
def State.startRepetition (s : State) (entry : Addr) (seed : Byte) : State :=
  { s with pc := entry, a := seed, suspended := false, cause := none }

/-- Force the cycle counter forward to `n`, never backward (R273). -/
def State.forceCycles (s : State) (n : Nat) : State := { s with cycles := max s.cycles n }

/-- A recorder at the start of a Capture: an empty log, the indicator clear (R270). -/
def Recorder.clear (r : Recorder) : Recorder := { r with log := [], reachedMaxCycles := false }

/-- Set the indicator when a window ran out without a suspension (R276). -/
def State.noteWindowEnd (s : State) : State :=
  if s.suspended then s else { s with recorder := s.recorder.map fun r => { r with reachedMaxCycles := true } }

/-- The run loop of a window (R272): while not suspended and `cycles < limit`, execute an instruction. `fuel` bounds the
number of instructions; `limit - cycles` is enough, since every instruction adds cycles. -/
def runWindow (limit : Nat) : Nat → State → Host.Outcome State Fault Refusal
  | 0, s => .next s
  | fuel + 1, s =>
    if s.suspended || decide (limit ≤ s.cycles) then .next s
    else
      match step s with
      | .next t => runWindow limit fuel t
      | .fault r => .fault r
      | .refused r => .refused r

/-- `part`: the budget's share of one repetition (R273). -/
def windowSize (budget reps : Nat) : Nat := budget / reps

/-- The limit of repetition `k` (R270, R273): its window's end, and for the last repetition the whole budget. -/
def windowLimit (budget reps k : Nat) : Nat := if k + 1 = reps then budget else (k + 1) * windowSize budget reps

/-- Repetition `k` of `reps` (R270): force the counter to its window, start, run, note how the window ended. -/
def runRepetition (entry : Addr) (seed : Byte) (reps k : Nat) (s : State) : Host.Outcome State Fault Refusal :=
  let s1 := (s.forceCycles (k * windowSize s.cfg.maxCycles reps)).startRepetition entry seed
  let limit := windowLimit s.cfg.maxCycles reps k
  match runWindow limit (limit - s1.cycles) s1 with
  | .next t => .next t.noteWindowEnd
  | .fault r => .fault r
  | .refused r => .refused r

/-- The last `todo` of `reps` repetitions, in order (R270). -/
def runRepetitions (entry : Addr) (seed : Byte) (reps : Nat) : Nat → State → Host.Outcome State Fault Refusal
  | 0, s => .next s
  | todo + 1, s =>
    match runRepetition entry seed reps (reps - (todo + 1)) s with
    | .next t => runRepetitions entry seed reps todo t
    | .fault r => .fault r
    | .refused r => .refused r

/-- What Capture returns (R276). -/
structure CaptureResult where
  log : List WriteCapture
  reachedMaxCycles : Bool
  cyclesUsed : Nat
  deriving DecidableEq, Repr

/-- `Capture(entry, seed, reps)` (R270), called on the bound recorder: reset, clear the log, run the repetitions. -/
def capture (entry : Addr) (seed : Byte) (reps : Nat) (s : State) :
    Host.Outcome (State × CaptureResult) Fault Refusal :=
  if reps = 0 then .refused .noRepetitions
  else
    match s.recorder with
    | none => .refused .noRecorder
    | some r =>
      match runRepetitions entry seed reps reps { s.cpuReset with recorder := some r.clear } with
      | .fault e => .fault e
      | .refused e => .refused e
      | .next t =>
        match t.recorder with
        | none => .refused .noRecorder
        | some r' => .next (t, ⟨r'.log, r'.reachedMaxCycles, t.cycles⟩)

end Sys2Proof.Machine
end

