-- ==== Sys2Proof/Machine/HostOps.lean ====
section
/-!
DEFINITION. The host's operations between bounded runs: on memory (`20_memory.md` R70 to R74), on the recorder
(`60_exceptions.md` R267, R269) and Capture (R270), with the duties whose breach has no step (R311).
-/

namespace Sys2Proof.Machine

/-- What the host can ask for (R71 to R74, R269, R270). -/
inductive HostCall where
  | getByte (a : Addr)
  | setByte (a : Addr) (v : Byte)
  | getWord (a : Addr)
  | setWord (a : Addr) (w : Addr)
  | getData (a : Addr) (n : Nat)
  | setData (a : Addr) (buffer : List Byte)
  | clear
  | takeSnapshot
  | restoreFromSnapshot
  | flushSnapshot
  /-- Construct a recorder against the CPU, which binds the hook (R269). -/
  | constructRecorder (rangeBegin rangeEnd : Addr)
  /-- Destroy the recorder, which leaves the CPU without a target (R269). -/
  | destroyRecorder
  /-- Read the log and empty it (R267). -/
  | drainLog
  | capture (entry : Addr) (seed : Byte) (reps : Nat)
  deriving DecidableEq, Repr

/-- What the host gets back (R311). -/
inductive HostReply where
  | done
  | byte (v : Byte)
  | word (w : Addr)
  | bytes (b : List Byte)
  | log (l : List WriteCapture)
  | captured (r : CaptureResult)
  deriving DecidableEq, Repr

/-- `GetWord(a)`: the high byte at `a +16 1` (R52). -/
def State.getWord (s : State) (a : Addr) : Addr := word (s.read (a + 1)) (s.read a)

/-- A host store of bytes from `a` on: not notified to the recorder (R71). -/
def State.hostStore (s : State) (a : Addr) (b : List Byte) : State := { s with mem := s.mem.writeAll a b }

/-- `GetData(a, buffer, n)` (R72). -/
def State.getData (s : State) : Addr → Nat → List Byte
  | _, 0 => []
  | a, n + 1 => s.read a :: s.getData (a + 1) n

/-- A block of `n` bytes from `a` ends inside memory (R72). -/
def blockFits (a : Addr) (n : Nat) : Bool := decide (a.toNat + n ≤ 0x10000)

/-- `Clear()`: every byte 0x00 (R73). -/
def State.clearMemory (s : State) : State := { s with mem := [] }

/-- Calls the host makes under the memory lock: every memory operation, Capture and the draining after it
(R70, R310; log 11). -/
def HostCall.needsLock : HostCall → Bool
  | .constructRecorder _ _ | .destroyRecorder => false
  | .getByte _ | .setByte _ _ | .getWord _ | .setWord _ _ | .getData _ _ | .setData _ _ | .clear | .takeSnapshot
  | .restoreFromSnapshot | .flushSnapshot | .drainLog | .capture _ _ _ => true

/-- A host call made with its duties met as to the lock. -/
def hostCallLocked (c : HostCall) (s : State) : Host.Outcome (State × HostReply) Fault Refusal :=
  match c with
  | .getByte a => .next (s, .byte (s.read a))
  | .setByte a v => .next (s.hostStore a [v], .done)
  | .getWord a => .next (s, .word (s.getWord a))
  | .setWord a w => .next (s.hostStore a [loByte w, hiByte w], .done)
  | .getData a n => if blockFits a n then .next (s, .bytes (s.getData a n)) else .refused .blockPastEnd
  | .setData a b => if blockFits a b.length then .next (s.hostStore a b, .done) else .refused .blockPastEnd
  | .clear => .next (s.clearMemory, .done)
  | .takeSnapshot => .next ({ s with snapshot := some s.mem }, .done)
  | .restoreFromSnapshot =>
    match s.snapshot with
    | some m => .next ({ s with mem := m }, .done)
    | none => .refused .snapshotEmpty
  | .flushSnapshot => .next ({ s with snapshot := none }, .done)
  | .constructRecorder b e =>
    match s.recorder with
    | some _ => .refused .recorderBound
    | none => .next ({ s with recorder := some ⟨b, e, [], false⟩ }, .done)
  | .destroyRecorder =>
    match s.recorder with
    | some _ => .next ({ s with recorder := none }, .done)
    | none => .refused .noRecorder
  | .drainLog =>
    match s.recorder with
    | some r => .next ({ s with recorder := some { r with log := [] } }, .log r.log)
    | none => .refused .noRecorder
  | .capture entry seed reps =>
    match Sys2Proof.Machine.capture entry seed reps s with
    | .next (t, r) => .next (t, .captured r)
    | .fault e => .fault e
    | .refused e => .refused e

/-- A host call (R70, R311): without the lock, a call that needs it has no step. -/
def hostCall (lockHeld : Bool) (c : HostCall) (s : State) : Host.Outcome (State × HostReply) Fault Refusal :=
  if c.needsLock && !lockHeld then .refused .lockNotHeld else hostCallLocked c s

end Sys2Proof.Machine
end

