-- ==== Sys2Proof/Safety.lean ====
section
/-!
DEFINITION. The terms claims are stated in: the invariant of the machine, and what it means that a step changed exactly
certain flags, or stored exactly certain bytes and logged them; the writes each instruction makes, and the run of a
window.
-/

namespace Sys2Proof.Safety

open Sys2Proof.Machine

/-- An address is in a recorder's inclusive capture range (R265). -/
def InRange (r : Recorder) (a : Addr) : Prop := r.rangeBegin ≤ a ∧ a ≤ r.rangeEnd

/-- The two properties R268 gives of a log taken alone, every entry in the range and no stamp falling, with no stamp
after `now`. R268's third, one entry for every write in the range, is of a step: `writesOf` with `StoresExactly`. -/
structure LogOk (r : Recorder) (now : Nat) : Prop where
  inRange : ∀ w ∈ r.log, InRange r w.address
  ordered : r.log.Pairwise fun w w' => w.cycle ≤ w'.cycle
  notAfter : ∀ w ∈ r.log, w.cycle ≤ now

/-- The machine's invariant: memory and snapshot are in the canonical form of log 4, a suspension has a cause and only a
suspension has (log 7), and the log is `LogOk`. -/
structure StateInv (s : State) : Prop where
  memory : s.mem.wf = true
  snapshot : ∀ m, s.snapshot = some m → m.wf = true
  cause : s.suspended = s.cause.isSome
  log : ∀ r, s.recorder = some r → LogOk r s.cycles

/-- `p'` is `p` with exactly the listed flags written; all other flags are as before. -/
def FlagsExactly (p p' : Byte) (written : List (Flag × Bool)) : Prop :=
  ∀ f, getFlag p' f = (written.lookup f).getD (getFlag p f)

/-- The flags `setNZ(v)` writes (R10). -/
def nz (v : Byte) : List (Flag × Bool) := [(.n, v.getLsbD 7), (.z, decide (v = 0))]

/-- What address `a` holds after the writes, in order, given what it held before. -/
def lastWritten : List (Addr × Byte) → Addr → Byte → Byte
  | [], _, old => old
  | (b, v) :: rest, a, old => lastWritten rest a (if b = a then v else old)

/-- The log entries the writes make in a recorder, all with one stamp (R265, R267). -/
def captured (r : Recorder) (ws : List (Addr × Byte)) (stamp : Nat) : List WriteCapture :=
  (ws.filter fun w => decide (r.rangeBegin ≤ w.1 ∧ w.1 ≤ r.rangeEnd)).map fun w => ⟨w.1, w.2, stamp⟩

/-- From `s` to `t` exactly the writes `ws` were made, in order: every byte of memory reads as they leave it, every byte
outside their addresses as before, and the bound recorder, if any, logged exactly those in its range, with the cycle
`s` stands at. -/
structure StoresExactly (s t : State) (ws : List (Addr × Byte)) : Prop where
  stored : ∀ a, t.read a = lastWritten ws a (s.read a)
  elsewhere : ∀ a, (∀ w ∈ ws, w.1 ≠ a) → t.read a = s.read a
  logged : ∀ r, s.recorder = some r → t.recorder = some { r with log := r.log ++ captured r ws s.cycles }
  unbound : s.recorder = none → t.recorder = none

/-- What a read-modify-write instruction of memory writes (R118): what `f` makes of the byte there. -/
def modifyWrite (m : MemOp) (s : State) (f : Byte → Nat) : List (Addr × Byte) :=
  let ea := (resolve m s).ea
  [(ea, BitVec.ofNat 8 (f (s.read ea)))]

/-- The writes an instruction makes, in the order it makes them (R58, R267): one by a store (R143 to R145), by a
read-modify-write of memory (R181, R182, R195 to R198) and by a push of one byte (R160, R161), two by JSR (R215), three by
BRK and an illegal opcode (R233, R240), and none by any other (R118). -/
def writesOf (i : Instr) (s : State) : List (Addr × Byte) :=
  let c := (getFlag s.p .c).toNat
  match i with
  | .sta m => [((resolve m s).ea, s.a)]
  | .stx m => [((resolve m s).ea, s.x)]
  | .sty m => [((resolve m s).ea, s.y)]
  | .inc m => modifyWrite m s fun v => v.toNat + 1
  | .dec m => modifyWrite m s fun v => v.toNat + 255
  | .asl (.mem m) => modifyWrite m s fun v => v.toNat * 2
  | .lsr (.mem m) => modifyWrite m s fun v => v.toNat / 2
  | .rol (.mem m) => modifyWrite m s fun v => v.toNat * 2 + c
  | .ror (.mem m) => modifyWrite m s fun v => v.toNat / 2 + c * 128
  | .pha => [(stackAddr s.sp, s.a)]
  | .php => [(stackAddr s.sp, s.p ||| 0x30)]
  | .jsr _ => [(stackAddr s.sp, hiByte (s.pc + 2)), (stackAddr (s.sp - 1), loByte (s.pc + 2))]
  | .brk | .ill _ =>
    [(stackAddr s.sp, hiByte (s.pc + 2)), (stackAddr (s.sp - 1), loByte (s.pc + 2)),
      (stackAddr (s.sp - 2), s.p ||| 0x30)]
  | .lda _ | .ldx _ | .ldy _ | .tax | .tay | .txa | .tya | .tsx | .txs | .pla | .plp | .adc _ | .sbc _ | .and _ | .ora _
  | .eor _ | .bit _ | .cmp _ | .cpx _ | .cpy _ | .inx | .iny | .dex | .dey | .asl .acc | .lsr .acc | .rol .acc
  | .ror .acc | .bcc _ | .bcs _ | .beq _ | .bmi _ | .bne _ | .bpl _ | .bvc _ | .bvs _ | .jmp _ | .rts | .rti | .clc | .cld
  | .cli | .clv | .sec | .sed | .sei | .nop => []

/-- The run of a window (R272): from `s`, instructions are executed while the core is not suspended and `cycles` is below
the limit, and the run stops at the first state where either fails. -/
inductive RunsWindow (limit : Nat) : State → State → Prop
  | stop {s : State} : s.suspended = true ∨ limit ≤ s.cycles → RunsWindow limit s s
  | go {s t u : State} : s.suspended = false → s.cycles < limit → step s = .next t → RunsWindow limit t u →
      RunsWindow limit s u

/-! ### The shapes of an instruction's rule

A rule of files 41 to 46 gives its opcodes as `byte mode size/base`, with `+` for the page-cross extra (R11); a `Row` is
one of them. -/

/-- One opcode of an instruction's rule: its byte, its size, its base cycles, and its page-cross extra. -/
structure Row where
  op : Byte
  size : Nat
  base : Nat
  extra : Nat
  deriving DecidableEq, Repr

/-- The opcodes of an instruction's rule, by addressing mode. -/
abbrev Rows := List (Mode × Row)

/-! ### The opcodes of the rules of files 41 to 44, as each rule lists them -/

/-- LDA (R140). -/
def ldaRows : Rows :=
  [(.imm, ⟨0xA9, 2, 2, 0⟩), (.zp, ⟨0xA5, 2, 3, 0⟩), (.zpx, ⟨0xB5, 2, 4, 0⟩), (.abs, ⟨0xAD, 3, 4, 0⟩),
   (.abx, ⟨0xBD, 3, 4, 1⟩), (.aby, ⟨0xB9, 3, 4, 1⟩), (.izx, ⟨0xA1, 2, 6, 0⟩), (.izy, ⟨0xB1, 2, 5, 1⟩)]

/-- LDX (R141). -/
def ldxRows : Rows :=
  [(.imm, ⟨0xA2, 2, 2, 0⟩), (.zp, ⟨0xA6, 2, 3, 0⟩), (.zpy, ⟨0xB6, 2, 4, 0⟩), (.abs, ⟨0xAE, 3, 4, 0⟩),
   (.aby, ⟨0xBE, 3, 4, 1⟩)]

/-- LDY (R142). -/
def ldyRows : Rows :=
  [(.imm, ⟨0xA0, 2, 2, 0⟩), (.zp, ⟨0xA4, 2, 3, 0⟩), (.zpx, ⟨0xB4, 2, 4, 0⟩), (.abs, ⟨0xAC, 3, 4, 0⟩),
   (.abx, ⟨0xBC, 3, 4, 1⟩)]

/-- STA (R143). -/
def staRows : Rows :=
  [(.zp, ⟨0x85, 2, 3, 0⟩), (.zpx, ⟨0x95, 2, 4, 0⟩), (.abs, ⟨0x8D, 3, 4, 0⟩), (.abx, ⟨0x9D, 3, 5, 0⟩),
   (.aby, ⟨0x99, 3, 5, 0⟩), (.izx, ⟨0x81, 2, 6, 0⟩), (.izy, ⟨0x91, 2, 6, 0⟩)]

/-- STX (R144). -/
def stxRows : Rows :=
  [(.zp, ⟨0x86, 2, 3, 0⟩), (.zpy, ⟨0x96, 2, 4, 0⟩), (.abs, ⟨0x8E, 3, 4, 0⟩)]

/-- STY (R145). -/
def styRows : Rows :=
  [(.zp, ⟨0x84, 2, 3, 0⟩), (.zpx, ⟨0x94, 2, 4, 0⟩), (.abs, ⟨0x8C, 3, 4, 0⟩)]

/-- ADC (R170). -/
def adcRows : Rows :=
  [(.imm, ⟨0x69, 2, 2, 0⟩), (.zp, ⟨0x65, 2, 3, 0⟩), (.zpx, ⟨0x75, 2, 4, 0⟩), (.abs, ⟨0x6D, 3, 4, 0⟩),
   (.abx, ⟨0x7D, 3, 4, 1⟩), (.aby, ⟨0x79, 3, 4, 1⟩), (.izx, ⟨0x61, 2, 6, 0⟩), (.izy, ⟨0x71, 2, 5, 1⟩)]

/-- SBC (R172). -/
def sbcRows : Rows :=
  [(.imm, ⟨0xE9, 2, 2, 0⟩), (.zp, ⟨0xE5, 2, 3, 0⟩), (.zpx, ⟨0xF5, 2, 4, 0⟩), (.abs, ⟨0xED, 3, 4, 0⟩),
   (.abx, ⟨0xFD, 3, 4, 1⟩), (.aby, ⟨0xF9, 3, 4, 1⟩), (.izx, ⟨0xE1, 2, 6, 0⟩), (.izy, ⟨0xF1, 2, 5, 1⟩)]

/-- AND (R174). -/
def andRows : Rows :=
  [(.imm, ⟨0x29, 2, 2, 0⟩), (.zp, ⟨0x25, 2, 3, 0⟩), (.zpx, ⟨0x35, 2, 4, 0⟩), (.abs, ⟨0x2D, 3, 4, 0⟩),
   (.abx, ⟨0x3D, 3, 4, 1⟩), (.aby, ⟨0x39, 3, 4, 1⟩), (.izx, ⟨0x21, 2, 6, 0⟩), (.izy, ⟨0x31, 2, 5, 1⟩)]

/-- ORA (R175). -/
def oraRows : Rows :=
  [(.imm, ⟨0x09, 2, 2, 0⟩), (.zp, ⟨0x05, 2, 3, 0⟩), (.zpx, ⟨0x15, 2, 4, 0⟩), (.abs, ⟨0x0D, 3, 4, 0⟩),
   (.abx, ⟨0x1D, 3, 4, 1⟩), (.aby, ⟨0x19, 3, 4, 1⟩), (.izx, ⟨0x01, 2, 6, 0⟩), (.izy, ⟨0x11, 2, 5, 1⟩)]

/-- EOR (R176). -/
def eorRows : Rows :=
  [(.imm, ⟨0x49, 2, 2, 0⟩), (.zp, ⟨0x45, 2, 3, 0⟩), (.zpx, ⟨0x55, 2, 4, 0⟩), (.abs, ⟨0x4D, 3, 4, 0⟩),
   (.abx, ⟨0x5D, 3, 4, 1⟩), (.aby, ⟨0x59, 3, 4, 1⟩), (.izx, ⟨0x41, 2, 6, 0⟩), (.izy, ⟨0x51, 2, 5, 1⟩)]

/-- BIT (R177). -/
def bitRows : Rows :=
  [(.zp, ⟨0x24, 2, 3, 0⟩), (.abs, ⟨0x2C, 3, 4, 0⟩)]

/-- CMP (R178). -/
def cmpRows : Rows :=
  [(.imm, ⟨0xC9, 2, 2, 0⟩), (.zp, ⟨0xC5, 2, 3, 0⟩), (.zpx, ⟨0xD5, 2, 4, 0⟩), (.abs, ⟨0xCD, 3, 4, 0⟩),
   (.abx, ⟨0xDD, 3, 4, 1⟩), (.aby, ⟨0xD9, 3, 4, 1⟩), (.izx, ⟨0xC1, 2, 6, 0⟩), (.izy, ⟨0xD1, 2, 5, 1⟩)]

/-- CPX (R179). -/
def cpxRows : Rows :=
  [(.imm, ⟨0xE0, 2, 2, 0⟩), (.zp, ⟨0xE4, 2, 3, 0⟩), (.abs, ⟨0xEC, 3, 4, 0⟩)]

/-- CPY (R180). -/
def cpyRows : Rows :=
  [(.imm, ⟨0xC0, 2, 2, 0⟩), (.zp, ⟨0xC4, 2, 3, 0⟩), (.abs, ⟨0xCC, 3, 4, 0⟩)]

/-- INC (R181). -/
def incRows : Rows :=
  [(.zp, ⟨0xE6, 2, 5, 0⟩), (.zpx, ⟨0xF6, 2, 6, 0⟩), (.abs, ⟨0xEE, 3, 6, 0⟩), (.abx, ⟨0xFE, 3, 7, 0⟩)]

/-- DEC (R182). -/
def decRows : Rows :=
  [(.zp, ⟨0xC6, 2, 5, 0⟩), (.zpx, ⟨0xD6, 2, 6, 0⟩), (.abs, ⟨0xCE, 3, 6, 0⟩), (.abx, ⟨0xDE, 3, 7, 0⟩)]

/-- ASL in memory (R195). -/
def aslRows : Rows :=
  [(.zp, ⟨0x06, 2, 5, 0⟩), (.zpx, ⟨0x16, 2, 6, 0⟩), (.abs, ⟨0x0E, 3, 6, 0⟩), (.abx, ⟨0x1E, 3, 7, 0⟩)]

/-- LSR in memory (R196). -/
def lsrRows : Rows :=
  [(.zp, ⟨0x46, 2, 5, 0⟩), (.zpx, ⟨0x56, 2, 6, 0⟩), (.abs, ⟨0x4E, 3, 6, 0⟩), (.abx, ⟨0x5E, 3, 7, 0⟩)]

/-- ROL in memory (R197). -/
def rolRows : Rows :=
  [(.zp, ⟨0x26, 2, 5, 0⟩), (.zpx, ⟨0x36, 2, 6, 0⟩), (.abs, ⟨0x2E, 3, 6, 0⟩), (.abx, ⟨0x3E, 3, 7, 0⟩)]

/-- ROR in memory (R198). -/
def rorRows : Rows :=
  [(.zp, ⟨0x66, 2, 5, 0⟩), (.zpx, ⟨0x76, 2, 6, 0⟩), (.abs, ⟨0x6E, 3, 6, 0⟩), (.abx, ⟨0x7E, 3, 7, 0⟩)]

/-! ### The rules -/

/-- The instruction is encoded with the row's opcode byte, in the row's number of bytes. -/
def EncodedAs (i : Instr) (r : Row) : Prop :=
  ∃ operands, encode i = some (r.op :: operands) ∧ operands.length + 1 = r.size

/-- `t` is past the instruction, with the row's cycles, and the row's extra where a page was crossed (R103, R104). -/
def EndsAfter (r : Row) (crossed : Bool) (s t : State) : Prop :=
  t.pc = s.pc + BitVec.ofNat 16 r.size ∧ t.cycles = s.cycles + r.base + (if crossed then r.extra else 0)

/-- The rule of a read-class instruction (R118) in states with `pre`: on every form it has, it goes to a state that is
`effect` of the operand byte, with exactly `flags` written, and nothing else changed. -/
def ReadRule (c : Src → Instr) (rows : Rows) (pre : State → Prop) (effect : State → Byte → State)
    (flags : State → Byte → List (Flag × Bool)) : Prop :=
  ∀ src s r, rows.lookup src.mode = some r → pre s →
    EncodedAs (c src) r ∧
    ∃ t, exec (c src) s = .next t ∧ EndsAfter r (srcCrossed src s) s t ∧
      t = { effect s (srcValue src s) with p := t.p, pc := t.pc, cycles := t.cycles } ∧
      FlagsExactly s.p t.p (flags s (srcValue src s))

/-- The rule of a write-class instruction (R118): one write of `value` at the effective address; no flag is written. -/
def StoreRule (c : MemOp → Instr) (rows : Rows) (value : State → Byte) : Prop :=
  ∀ m s r, rows.lookup m.mode = some r →
    EncodedAs (c m) r ∧
    ∃ t, exec (c m) s = .next t ∧ EndsAfter r false s t ∧
      t = { s with mem := t.mem, recorder := t.recorder, pc := t.pc, cycles := t.cycles } ∧
      StoresExactly s t [((resolve m s).ea, value s)]

/-- The rule of a read-modify-write instruction of memory (R118): one write of `value` of the byte read, at the address
it was read from, with exactly `flags` written. -/
def ModifyRule (c : MemOp → Instr) (rows : Rows) (value : State → Byte → Byte)
    (flags : State → Byte → List (Flag × Bool)) : Prop :=
  ∀ m s r, rows.lookup m.mode = some r →
    EncodedAs (c m) r ∧
    ∃ t, exec (c m) s = .next t ∧ EndsAfter r false s t ∧
      t = { s with p := t.p, mem := t.mem, recorder := t.recorder, pc := t.pc, cycles := t.cycles } ∧
      StoresExactly s t [((resolve m s).ea, value s (s.read (resolve m s).ea))] ∧
      FlagsExactly s.p t.p (flags s (s.read (resolve m s).ea))

/-- The rule of an instruction without a memory operand that does not set PC and stores nothing: it goes to a state that
is `effect`, with exactly `flags` written, and nothing else changed. -/
def ImpliedRule (i : Instr) (r : Row) (effect : State → State) (flags : State → List (Flag × Bool)) : Prop :=
  EncodedAs i r ∧
  ∀ s, ∃ t, exec i s = .next t ∧ EndsAfter r false s t ∧
    t = { effect s with p := t.p, pc := t.pc, cycles := t.cycles } ∧ FlagsExactly s.p t.p (flags s)

/-- The rule of a push (R61): one write of `value` at the stack address, SP one lower; no flag is written. -/
def PushRule (i : Instr) (r : Row) (value : State → Byte) : Prop :=
  EncodedAs i r ∧
  ∀ s, ∃ t, exec i s = .next t ∧ EndsAfter r false s t ∧
    t = { s with sp := s.sp - 1, mem := t.mem, recorder := t.recorder, pc := t.pc, cycles := t.cycles } ∧
    StoresExactly s t [(stackAddr s.sp, value s)]

/-- The rule of a branch (R205, R122): nothing but PC and the cycles changes. Taken, it goes to `next` plus the signed
offset, modulo 2^16, in 3 cycles, or 4 where that is in another page than `next`; not taken, to `next` in 2. -/
def BranchRule (c : Byte → Instr) (op : Byte) (cond : State → Bool) : Prop :=
  ∀ offset s,
    EncodedAs (c offset) ⟨op, 2, 2, 0⟩ ∧
    ∃ t, exec (c offset) s = .next t ∧ t = { s with pc := t.pc, cycles := t.cycles } ∧
      (cond s = false → t.pc.toNat = (s.pc.toNat + 2) % 0x10000 ∧ t.cycles = s.cycles + 2) ∧
      (cond s = true →
        (t.pc.toNat : Int) = (((s.pc.toNat + 2) % 0x10000 : Nat) + offset.toInt) % 0x10000 ∧
        t.cycles = s.cycles + (if (s.pc.toNat + 2) % 0x10000 / 256 = t.pc.toNat / 256 then 3 else 4))

/-- The rule of the suspend entry (R233, R240): three writes on the stack, SP three lower, I set, PC as `BRK_PC_MODE`
says, 7 cycles, suspended with the cause. -/
def SuspendRule (i : Instr) (op : Byte) (c : SuspendCause) : Prop :=
  EncodedAs i ⟨op, 1, 7, 0⟩ ∧
  ∀ s, ∃ t, exec i s = .next t ∧
    t = { s with
      sp := s.sp - 3, p := t.p, pc := t.pc, cycles := s.cycles + 7, suspended := true, cause := some c
      mem := t.mem, recorder := t.recorder } ∧
    StoresExactly s t
      [(stackAddr s.sp, hiByte (s.pc + 2)), (stackAddr (s.sp - 1), loByte (s.pc + 2)),
        (stackAddr (s.sp - 2), s.p ||| 0x30)] ∧
    FlagsExactly s.p t.p [(.i, true)] ∧
    (s.cfg.brkPcMode = .literal → t.pc = 0xFFFE) ∧
    (s.cfg.brkPcMode = .vector → t.pc = word (s.read 0xFFFF) (s.read 0xFFFE))

end Sys2Proof.Safety
end

