-- ==== Sys2Proof/Certificates/Slice0/Obligations.lean ====
section
/-!
DEFINITION. The statements for the provers. Each cites the rules of the spec it states; the shapes `ReadRule`,
`StoreRule`, `ModifyRule`, `ImpliedRule`, `PushRule`, `BranchRule` and `SuspendRule` are those of Sys2Proof/Safety.lean.
-/

open Sys2Proof Sys2Proof.Machine Sys2Proof.Safety

/-! ### Encoding -/

/-- Decoding the bytes of a row of the opcode table, whatever follows them, gives the row's instruction with all its
operands, and leaves what follows (R80, R82, R83, R84). -/
def Obligations.DecodeOfEncodeGivesTheInstruction : Prop :=
  ∀ (i : Instr) (rest : List Byte), i.wellFormed = true →
    ∃ bytes, encode i = some bytes ∧ decode (bytes ++ rest) = .ok (i, rest)

/-- What decodes is a row of the opcode table, and its bytes are exactly those read: every sequence of bytes has one
meaning (R80, R84, R86). -/
def Obligations.DecodedBytesEncodeBack : Prop :=
  ∀ (bs rest : List Byte) (i : Instr), decode bs = .ok (i, rest) →
    i.wellFormed = true ∧ ∃ bytes, encode i = some bytes ∧ bs = bytes ++ rest

/-- Words written out from the spec's encodings decode to the instructions they stand for, one or more of every family
(R82, R84). -/
def Obligations.SampleWordsDecode : Prop :=
  decode [0xBD, 0xFF, 0x20] = .ok (.lda (.mem (.abx 0x20FF)), []) ∧
  decode [0x96, 0xFF] = .ok (.stx (.zpy 0xFF), []) ∧
  decode [0xBA] = .ok (.tsx, []) ∧
  decode [0x08, 0x99] = .ok (.php, [0x99]) ∧
  decode [0x71, 0x20] = .ok (.adc (.mem (.izy 0x20)), []) ∧
  decode [0xE9, 0x03] = .ok (.sbc (.imm 0x03), []) ∧
  decode [0x2C, 0x00, 0x20] = .ok (.bit (.abs 0x2000), []) ∧
  decode [0x6A] = .ok (.ror .acc, []) ∧
  decode [0x36, 0x10] = .ok (.rol (.mem (.zpx 0x10)), []) ∧
  decode [0xD0, 0xFE] = .ok (.bne 0xFE, []) ∧
  decode [0x6C, 0xFF, 0x12] = .ok (.jmp (.ind 0x12FF), []) ∧
  decode [0x20, 0x00, 0x10] = .ok (.jsr 0x1000, []) ∧
  decode [0x78] = .ok (.sei, []) ∧
  decode [0x00] = .ok (.brk, []) ∧
  decode [0x0C, 0x34, 0x12] = .ok (.ill 0x0C, [0x34, 0x12])

/-- Every one of the 256 byte values decodes: an illegal value to `ILL`, with mode `imp`, size 1, base 7 and no extra,
and the bytes after it left unread; every other value to a documented instruction (R86, R87). -/
def Obligations.EveryByteValueDecodes : Prop :=
  illegalOpcodes.length = 105 ∧
  ∀ op b1 b2 : Byte,
    (op ∈ illegalOpcodes →
      desc op = ⟨.ILL, .imp, 7, 0⟩ ∧ decode [op, b1, b2] = .ok (.ill op, [b1, b2])) ∧
    (op ∉ illegalOpcodes → ∃ i rest, decode [op, b1, b2] = .ok (i, rest) ∧ i.mnemonic ≠ .ILL)

/-- The length of an instruction is a function of its opcode byte alone, and equals the length of the descriptor's
addressing mode: as many bytes are taken as R81's table gives the mode (R80, R81). -/
def Obligations.LengthIsThatOfTheAddressingMode : Prop :=
  ∀ (op b1 b2 : Byte) (rest : List Byte), ∃ i,
    decode (op :: b1 :: b2 :: rest) =
      .ok (i, match (desc op).mode with
        | .imp | .acc => b1 :: b2 :: rest
        | .imm | .zp | .zpx | .zpy | .izx | .izy | .rel => b2 :: rest
        | .abs | .abx | .aby | .ind => rest) ∧
    i.mode = (desc op).mode ∧ i.mnemonic = (desc op).mnemonic

/-! ### The step -/

/-- When the bytes at PC decode to an instruction, a step of a machine that is not suspended is the meaning of that
instruction at that state (R101, R102, R124). The meaning itself advances PC and the cycles. -/
def Obligations.StepRunsTheDecodedInstruction : Prop :=
  ∀ (s : State) (i : Instr) (rest : List Byte), s.suspended = false →
    decode [s.read s.pc, s.read (s.pc + 1), s.read (s.pc + 2)] = .ok (i, rest) →
    step s = exec i s

/-- While suspended, ExecuteInstruction changes no state and returns 0 (R100). -/
def Obligations.SuspendedStepChangesNothing : Prop :=
  ∀ s : State, s.suspended = true → step s = .next s ∧ executeInstruction s = .next (s, 0)

/-- The core raises no exception: from every state, whatever bytes stand at PC, a step has a next state; and every row
of the opcode table has one in every state (R86, R255). A term that is no row is refused by name (log 8). -/
def Obligations.EveryStepHasANextState : Prop :=
  (∀ s : State, ∃ t, step s = .next t) ∧
  (∀ (i : Instr) (s : State), i.wellFormed = true → ∃ t, exec i s = .next t) ∧
  ∀ (i : Instr) (s : State), i.wellFormed = false → exec i s = .refused .noSuchForm

/-- Every executed instruction takes 2 to 7 cycles, the suspending ones among them, and ExecuteInstruction returns what it
added to the counter (R34, R104, R272). -/
def Obligations.RunningStepTakesTwoToSevenCycles : Prop :=
  ∀ s t : State, s.suspended = false → step s = .next t →
    s.cycles + 2 ≤ t.cycles ∧ t.cycles ≤ s.cycles + 7 ∧ executeInstruction s = .next (t, t.cycles - s.cycles)

/-! ### Whole-machine rules -/

/-- The machine's invariant (see StepKeepsTheInvariant for what of it is the model's) holds right after reset, whose memory
and recorder are the choices of logs 4 and 5. -/
def Obligations.ResetMeetsTheInvariant : Prop := StateInv State.reset

/-- Every step keeps the machine's invariant: memory and snapshot in canonical form; a suspension with a cause, and a cause
only with one; the log in range and ordered, which are two of R268's three properties, and no stamp past the counter. The
canonical form (log 4) and the cause's being a field (log 7) are the model's own. R268's third property is stated by
EveryWriteInRangeIsLoggedOnce. -/
def Obligations.StepKeepsTheInvariant : Prop :=
  ∀ s t : State, StateInv s → step s = .next t → StateInv t

/-- Every host call that has a step keeps the machine's invariant, Capture among them. The model's own: the canonical form
(log 4), the cause field (log 7), the host calls as functions with the lock as an argument (log 11), and what a
construction and a draining leave in the log (log 13). -/
def Obligations.HostCallKeepsTheInvariant : Prop :=
  ∀ (lock : Bool) (c : HostCall) (s t : State) (reply : HostReply),
    StateInv s → hostCall lock c s = .next (t, reply) → StateInv t

/-- A running step has a next state, and suspends exactly when it executes BRK, an illegal opcode, or RTS on an empty stack,
with that cause (R250, R217). The cause's being a field of the state is log 7's. -/
def Obligations.SuspensionHasExactlyThreeCauses : Prop :=
  ∀ s : State, s.suspended = false → s.cause = none → ∃ t, step s = .next t ∧
    (t.suspended = true ↔
      s.fetch = .brk ∨ s.fetch.mnemonic = .ILL ∨
        (s.fetch = .rts ∧ (s.sp = 0xFF ∨ (s.cfg.rtsSuspendAtFe = true ∧ s.sp = 0xFE)))) ∧
    (t.cause = some .brk ↔ s.fetch = .brk) ∧
    (t.cause = some .illegalOpcode ↔ s.fetch.mnemonic = .ILL) ∧
    (t.cause = some .rtsEmptyStack ↔ t.suspended = true ∧ s.fetch = .rts)

/-- No step changes the snapshot slot, the capture range or the recorder's indicator, nor binds or unbinds a recorder (R36,
R37, R74), nor changes any parameter: that all of R8's parameters stand in the state, unchanged, is log 2's choice (R39
speaks of the range and `MAX_CYCLES`). And a step takes nothing from the snapshot slot (R74) or from the recorder, bound
or not (R265, R269): with any others in their place it does the same to everything else; of the recorder's own parts, the
indicator decides nothing of what is logged. Instructions do read the parameters. -/
def Obligations.StepsLeaveTheHostsStateAlone : Prop :=
  ∀ s t : State, step s = .next t →
    t.cfg = s.cfg ∧ t.snapshot = s.snapshot ∧ (t.recorder = none ↔ s.recorder = none) ∧
    (∀ r r', s.recorder = some r → t.recorder = some r' →
      r'.rangeBegin = r.rangeBegin ∧ r'.rangeEnd = r.rangeEnd ∧ r'.reachedMaxCycles = r.reachedMaxCycles) ∧
    (∀ (m : Option Memory) (r : Option Recorder), ∃ r',
      step { s with snapshot := m, recorder := r } = .next { t with snapshot := m, recorder := r' }) ∧
    ∀ (r : Recorder) (b : Bool), s.recorder = some r → ∃ r', t.recorder = some r' ∧
      step { s with recorder := some { r with reachedMaxCycles := b } } =
        .next { t with recorder := some { r' with reachedMaxCycles := b } }

/-- The log is append-only: a step adds at most three entries at its end, each in the range and with the cycle the
instruction started at (R265, R266, R267). -/
def Obligations.StepAppendsToTheLogWithItsStartStamp : Prop :=
  ∀ (s t : State) (r : Recorder), s.recorder = some r → step s = .next t →
    ∃ new, t.recorder = some { r with log := r.log ++ new } ∧ new.length ≤ 3 ∧
      ∀ w ∈ new, w.cycle = s.cycles ∧ InRange r w.address

/-- A flag changes only by the instructions R25 to R32 name as its writers. -/
def Obligations.FlagsChangeOnlyByTheirWriters : Prop :=
  ∀ (i : Instr) (s t : State) (f : Flag), exec i s = .next t → getFlag t.p f ≠ getFlag s.p f →
    i.mnemonic ∈ [.PLP, .RTI] ++
      match f with
      | .n => [Mnemonic.ADC, .SBC, .AND, .ORA, .EOR, .CMP, .CPX, .CPY, .INC, .DEC, .INX, .INY, .DEX, .DEY, .ASL, .LSR,
          .ROL, .ROR, .LDA, .LDX, .LDY, .PLA, .TAX, .TAY, .TSX, .TXA, .TYA, .BIT]
      | .z => [.ADC, .SBC, .AND, .ORA, .EOR, .CMP, .CPX, .CPY, .INC, .DEC, .INX, .INY, .DEX, .DEY, .ASL, .LSR, .ROL,
          .ROR, .LDA, .LDX, .LDY, .PLA, .TAX, .TAY, .TSX, .TXA, .TYA, .BIT]
      | .v => [.ADC, .SBC, .BIT, .CLV]
      | .u => []
      | .b => []
      | .d => [.CLD, .SED]
      | .i => [.CLI, .SEI, .BRK, .ILL]
      | .c => [.ADC, .SBC, .CMP, .CPX, .CPY, .ASL, .LSR, .ROL, .ROR, .CLC, .SEC]

/-- A, X, Y and SP change only by the instructions R21, R22 and R23 name as their writers; of the shifts and rotates, only
the accumulator form writes A. -/
def Obligations.RegistersChangeOnlyByTheirWriters : Prop :=
  ∀ (i : Instr) (s t : State), exec i s = .next t →
    (t.a ≠ s.a → i.mode = .acc ∨ i.mnemonic ∈ [Mnemonic.ADC, .SBC, .AND, .ORA, .EOR, .LDA, .PLA, .TXA, .TYA]) ∧
    (t.x ≠ s.x → i.mnemonic ∈ [Mnemonic.LDX, .TAX, .TSX, .INX, .DEX]) ∧
    (t.y ≠ s.y → i.mnemonic ∈ [Mnemonic.LDY, .TAY, .INY, .DEY]) ∧
    (t.sp ≠ s.sp →
      i.mnemonic ∈ [Mnemonic.TXS, .PHA, .PHP, .PLA, .PLP, .JSR, .RTS, .RTI, .BRK, .ILL])

/-- Only the write and read-modify-write classes and the pushes store: after every other instruction every byte reads as
before and the recorder is unchanged (R55, R118). -/
def Obligations.OnlyStoringInstructionsChangeMemory : Prop :=
  ∀ (i : Instr) (s t : State), exec i s = .next t →
    (i.mnemonic ∉ [Mnemonic.STA, .STX, .STY, .ASL, .LSR, .ROL, .ROR, .INC, .DEC, .PHA, .PHP, .JSR, .BRK, .ILL] ∨
      i.mode = .acc) →
    (∀ a, t.read a = s.read a) ∧ t.mem = s.mem ∧ t.recorder = s.recorder

/-- PC goes to the following instruction after every instruction that does not transfer control (R33, R103). -/
def Obligations.PcAdvancesPastInstructionsThatDoNotTransfer : Prop :=
  ∀ (i : Instr) (s t : State), exec i s = .next t →
    i.mnemonic ∉ [Mnemonic.JMP, .JSR, .RTS, .RTI, .BRK, .ILL, .BCC, .BCS, .BEQ, .BMI, .BNE, .BPL, .BVC, .BVS] →
    t.pc = s.pc + BitVec.ofNat 16 i.mode.size

/-- No instruction but the pushes of P depends on the flags I, U and B: from two states that differ only in them it goes
to two states that differ only in them (R27, R28, R30, R256). -/
def Obligations.InterruptAndUnusedFlagsSteerNothing : Prop :=
  ∀ (i : Instr) (s t : State) (p : Byte), i.mnemonic ∉ [Mnemonic.PHP, .BRK, .ILL] →
    (∀ f ∈ [Flag.n, .v, .d, .z, .c], getFlag p f = getFlag s.p f) → exec i s = .next t →
    ∃ q, exec i { s with p := p } = .next { t with p := q } ∧
      ∀ f ∈ [Flag.n, .v, .d, .z, .c], getFlag q f = getFlag t.p f

/-- Memory has one canonical form: two memories in it that read alike at every address are equal (log 4). -/
def Obligations.CanonicalMemoriesThatReadAlikeAreEqual : Prop :=
  ∀ m m' : Memory, m.wf = true → m'.wf = true → (∀ a < 0x10000, m.read a = m'.read a) → m = m'

/-! ### Effective addresses -/

/-- The zero-page modes stay in page 0, their indexed sums wrapping there, with no page cross (R108, R109, R110). The
absolute modes: the operand, or the operand plus X or Y modulo 2^16, a page cross being a changed high byte (R111, R112,
R113). The operand byte of a source is the immediate, or the byte at the effective address (R107, R118). -/
def Obligations.DirectModesResolveAndReportPageCrosses : Prop :=
  ∀ (n z : Byte) (a : Addr) (m : MemOp) (s : State),
    ((resolve (.zp z) s).ea.toNat = z.toNat ∧ (resolve (.zp z) s).crossed = false) ∧
    ((resolve (.zpx z) s).ea.toNat = (z.toNat + s.x.toNat) % 256 ∧ (resolve (.zpx z) s).crossed = false) ∧
    ((resolve (.zpy z) s).ea.toNat = (z.toNat + s.y.toNat) % 256 ∧ (resolve (.zpy z) s).crossed = false) ∧
    (resolve (.abs a) s = ⟨a, false⟩) ∧
    ((resolve (.abx a) s).ea.toNat = (a.toNat + s.x.toNat) % 0x10000 ∧
      ((resolve (.abx a) s).crossed = true ↔ a.toNat / 256 ≠ (resolve (.abx a) s).ea.toNat / 256)) ∧
    ((resolve (.aby a) s).ea.toNat = (a.toNat + s.y.toNat) % 0x10000 ∧
      ((resolve (.aby a) s).crossed = true ↔ a.toNat / 256 ≠ (resolve (.aby a) s).ea.toNat / 256)) ∧
    (srcValue (.imm n) s = n ∧ srcCrossed (.imm n) s = false) ∧
    (srcValue (.mem m) s = s.mem.read (resolve m s).ea.toNat ∧ srcCrossed (.mem m) s = (resolve m s).crossed)

/-- The indirect modes read both pointer bytes in page 0, low byte first in memory; only `izy` can cross a page (R115,
R116). -/
def Obligations.IndirectModesReadTheirPointerInPageZero : Prop :=
  ∀ (z : Byte) (s : State),
    (∀ lo hi : Byte,
      s.mem.read ((z.toNat + s.x.toNat) % 256) = lo → s.mem.read ((z.toNat + s.x.toNat + 1) % 256) = hi →
      (resolve (.izx z) s).ea.toNat = hi.toNat * 256 + lo.toNat ∧ (resolve (.izx z) s).crossed = false) ∧
    (∀ lo hi : Byte,
      s.mem.read z.toNat = lo → s.mem.read ((z.toNat + 1) % 256) = hi →
      (resolve (.izy z) s).ea.toNat = (hi.toNat * 256 + lo.toNat + s.y.toNat) % 0x10000 ∧
      ((resolve (.izy z) s).crossed = true ↔ hi.toNat ≠ (resolve (.izy z) s).ea.toNat / 256))

/-! ### Loads, stores and transfers -/

/-- LDA, LDX, LDY: the register takes the operand byte; N and Z (R140, R141, R142). -/
def Obligations.LoadsSetTheRegisterAndNZ : Prop :=
  ReadRule .lda ldaRows
    (fun _ => True) (fun s m => { s with a := m }) (fun _ m => nz m) ∧
  ReadRule .ldx ldxRows
    (fun _ => True) (fun s m => { s with x := m }) (fun _ m => nz m) ∧
  ReadRule .ldy ldyRows
    (fun _ => True) (fun s m => { s with y := m }) (fun _ m => nz m)

/-- STA, STX, STY: one write of the register at the effective address, no flag, no page-cross extra (R143, R144, R145). -/
def Obligations.StoresWriteTheRegister : Prop :=
  StoreRule .sta staRows
    (fun s => s.a) ∧
  StoreRule .stx stxRows (fun s => s.x) ∧
  StoreRule .sty styRows (fun s => s.y)

/-- TAX, TAY, TXA, TYA, TSX: the destination takes the source; N and Z (R146 to R150). TXS: SP takes X, and no flag is
written (R151). -/
def Obligations.TransfersCopyTheRegister : Prop :=
  ImpliedRule .tax ⟨0xAA, 1, 2, 0⟩ (fun s => { s with x := s.a }) (fun s => nz s.a) ∧
  ImpliedRule .tay ⟨0xA8, 1, 2, 0⟩ (fun s => { s with y := s.a }) (fun s => nz s.a) ∧
  ImpliedRule .txa ⟨0x8A, 1, 2, 0⟩ (fun s => { s with a := s.x }) (fun s => nz s.x) ∧
  ImpliedRule .tya ⟨0x98, 1, 2, 0⟩ (fun s => { s with a := s.y }) (fun s => nz s.y) ∧
  ImpliedRule .tsx ⟨0xBA, 1, 2, 0⟩ (fun s => { s with x := s.sp }) (fun s => nz s.sp) ∧
  ImpliedRule .txs ⟨0x9A, 1, 2, 0⟩ (fun s => { s with sp := s.x }) (fun _ => [])

/-! ### Stack -/

/-- The stack address of SP is 0x0100 + SP (R60). PHA and PHP: one write there, SP one lower modulo 256; PHP stores P
with bits 5 and 4 set (R160, R161). -/
def Obligations.PushesStoreAtTheStackPointer : Prop :=
  (∀ sp : Byte, (stackAddr sp).toNat = 0x0100 + sp.toNat) ∧
  PushRule .pha ⟨0x48, 1, 3, 0⟩ (fun s => s.a) ∧ PushRule .php ⟨0x08, 1, 3, 0⟩ (fun s => s.p ||| 0x30)

/-- PLA and PLP: SP one higher modulo 256, the byte there into A, with N and Z, or into P whole (R162, R163). -/
def Obligations.PullsReadAboveTheStackPointer : Prop :=
  ImpliedRule .pla ⟨0x68, 1, 4, 0⟩ (fun s => { s with sp := s.sp + 1, a := s.read (stackAddr (s.sp + 1)) })
    (fun s => nz (s.read (stackAddr (s.sp + 1)))) ∧
  ImpliedRule .plp ⟨0x28, 1, 4, 0⟩ (fun s => { s with sp := s.sp + 1 })
    (fun s => [Flag.n, .v, .u, .b, .d, .i, .z, .c].map fun f => (f, getFlag (s.read (stackAddr (s.sp + 1))) f))

/-! ### Arithmetic -/

/-- ADC where the addition is binary: D clear, or `DECIMAL_MODE` = `binary` (R170). -/
def Obligations.AdcAddsInBinary : Prop :=
  let sum := fun (s : State) (m : Byte) => s.a.toNat + m.toNat + (getFlag s.p .c).toNat
  ReadRule .adc adcRows
    (fun s => getFlag s.p .d = false ∨ s.cfg.decimalMode = .binary)
    (fun s m => { s with a := BitVec.ofNat 8 (sum s m % 256) })
    (fun s m =>
      let r := BitVec.ofNat 8 (sum s m % 256)
      [(.c, decide (sum s m > 0xFF)), (.v, decide (((s.a ^^^ r) &&& (m ^^^ r) &&& 0x80) ≠ 0))] ++ nz r)

/-- ADC with D set and `DECIMAL_MODE` = `nmos`: the NMOS decimal addition, on every pair of operands (R171). -/
def Obligations.AdcAddsInNmosDecimal : Prop :=
  let c := fun s : State => (getFlag s.p .c).toNat
  let lo0 := fun (s : State) (m : Byte) => (s.a.toNat &&& 0x0F) + (m.toNat &&& 0x0F) + c s
  let lo := fun (s : State) (m : Byte) => if lo0 s m > 9 then lo0 s m + 6 else lo0 s m
  let hi0 := fun (s : State) (m : Byte) => (s.a.toNat >>> 4) + (m.toNat >>> 4) + (if lo s m > 0x0F then 1 else 0)
  let hi := fun (s : State) (m : Byte) => if hi0 s m > 9 then hi0 s m + 6 else hi0 s m
  ReadRule .adc adcRows
    (fun s => getFlag s.p .d = true ∧ s.cfg.decimalMode = .nmos)
    (fun s m => { s with a := BitVec.ofNat 8 (((hi s m <<< 4) ||| (lo s m &&& 0x0F)) % 256) })
    (fun s m =>
      [(.z, decide ((s.a.toNat + m.toNat + c s) % 256 = 0)),
        (.n, decide (hi0 s m &&& 0x08 ≠ 0)),
        (.v, s.a.getLsbD 7 == m.getLsbD 7 && s.a.getLsbD 7 != (hi0 s m <<< 4).testBit 7),
        (.c, decide (hi s m > 0x0F))])

/-- SBC where the subtraction is binary (R173). -/
def Obligations.SbcSubtractsInBinary : Prop :=
  let sum := fun (s : State) (m : Byte) => s.a.toNat + (255 - m.toNat) + (getFlag s.p .c).toNat
  ReadRule .sbc sbcRows
    (fun s => getFlag s.p .d = false ∨ s.cfg.decimalMode = .binary)
    (fun s m => { s with a := BitVec.ofNat 8 (sum s m % 256) })
    (fun s m =>
      let r := BitVec.ofNat 8 (sum s m % 256)
      [(.c, decide (sum s m > 0xFF)), (.v, decide (((s.a ^^^ m) &&& (s.a ^^^ r) &&& 0x80) ≠ 0))] ++ nz r)

/-- SBC with D set and `DECIMAL_MODE` = `nmos`: the NMOS decimal subtraction, with the flags of the binary one (R172). -/
def Obligations.SbcSubtractsInNmosDecimal : Prop :=
  let sum := fun (s : State) (m : Byte) => s.a.toNat + (255 - m.toNat) + (getFlag s.p .c).toNat
  let lo0 := fun (s : State) (m : Byte) =>
    ((s.a.toNat % 16 : Nat) : Int) - (m.toNat % 16 : Nat) - (1 - (getFlag s.p .c).toNat)
  let lo := fun (s : State) (m : Byte) => if lo0 s m < 0 then lo0 s m - 6 else lo0 s m
  let hi0 := fun (s : State) (m : Byte) =>
    ((s.a.toNat / 16 : Nat) : Int) - (m.toNat / 16 : Nat) - (if lo0 s m < 0 then 1 else 0)
  let hi := fun (s : State) (m : Byte) => if hi0 s m < 0 then hi0 s m - 6 else hi0 s m
  ReadRule .sbc sbcRows
    (fun s => getFlag s.p .d = true ∧ s.cfg.decimalMode = .nmos)
    (fun s m => { s with a := BitVec.ofNat 8 (((hi s m % 16).toNat <<< 4) ||| (lo s m % 16).toNat) })
    (fun s m =>
      let r := BitVec.ofNat 8 (sum s m % 256)
      [(.c, decide (sum s m > 0xFF)), (.v, decide (((s.a ^^^ m) &&& (s.a ^^^ r) &&& 0x80) ≠ 0))] ++ nz r)

/-- On valid BCD operands the decimal ADC gives the BCD sum modulo 100, with C the decimal carry (R171), and the decimal SBC
the BCD difference modulo 100, with C meaning no decimal borrow (R172). -/
def Obligations.DecimalArithmeticIsBcdOnValidDigits : Prop :=
  ∀ (n : Byte) (s : State), getFlag s.p .d = true → s.cfg.decimalMode = .nmos →
    s.a.toNat / 16 ≤ 9 → s.a.toNat % 16 ≤ 9 → n.toNat / 16 ≤ 9 → n.toNat % 16 ≤ 9 →
    (∃ t, exec (.adc (.imm n)) s = .next t ∧
      (let sum := (s.a.toNat / 16 * 10 + s.a.toNat % 16) + (n.toNat / 16 * 10 + n.toNat % 16) + (getFlag s.p .c).toNat
       t.a.toNat / 16 ≤ 9 ∧ t.a.toNat % 16 ≤ 9 ∧ t.a.toNat / 16 * 10 + t.a.toNat % 16 = sum % 100 ∧
       getFlag t.p .c = decide (sum ≥ 100))) ∧
    (∃ t, exec (.sbc (.imm n)) s = .next t ∧
      (let diff : Int :=
        ((s.a.toNat / 16 * 10 + s.a.toNat % 16 : Nat) : Int) - (n.toNat / 16 * 10 + n.toNat % 16 : Nat) -
          (1 - (getFlag s.p .c).toNat)
       t.a.toNat / 16 ≤ 9 ∧ t.a.toNat % 16 ≤ 9 ∧
       ((t.a.toNat / 16 * 10 + t.a.toNat % 16 : Nat) : Int) = diff % 100 ∧ getFlag t.p .c = decide (diff ≥ 0)))

/-- V after a binary ADC or SBC is signed overflow: the exact signed result is not the signed reading of A (R26, R187). -/
def Obligations.OverflowFlagIsSignedOverflow : Prop :=
  ∀ (n : Byte) (s : State), getFlag s.p .d = false ∨ s.cfg.decimalMode = .binary →
    (∃ t, exec (.adc (.imm n)) s = .next t ∧
      (getFlag t.p .v = true ↔ t.a.toInt ≠ s.a.toInt + n.toInt + (getFlag s.p .c).toNat)) ∧
    (∃ t, exec (.sbc (.imm n)) s = .next t ∧
      (getFlag t.p .v = true ↔ t.a.toInt ≠ s.a.toInt - n.toInt - (1 - (getFlag s.p .c).toNat)))

/-- AND, ORA, EOR: A takes the bitwise result; N and Z (R174, R175, R176). -/
def Obligations.LogicInstructionsCombineBitwise : Prop :=
  ReadRule .and andRows
    (fun _ => True) (fun s m => { s with a := s.a &&& m }) (fun s m => nz (s.a &&& m)) ∧
  ReadRule .ora oraRows
    (fun _ => True) (fun s m => { s with a := s.a ||| m }) (fun s m => nz (s.a ||| m)) ∧
  ReadRule .eor eorRows
    (fun _ => True) (fun s m => { s with a := s.a ^^^ m }) (fun s m => nz (s.a ^^^ m))

/-- BIT: N and V are bits 7 and 6 of the operand, Z is that A and the operand have no bit in common; nothing else (R177). -/
def Obligations.BitTestsTheOperand : Prop :=
  ∀ (m : MemOp) (s : State) (r : Row),
    bitRows.lookup m.mode = some r →
    EncodedAs (.bit m) r ∧
    ∃ t, exec (.bit m) s = .next t ∧ EndsAfter r false s t ∧ t = { s with p := t.p, pc := t.pc, cycles := t.cycles } ∧
      (let v := s.read (resolve m s).ea
       FlagsExactly s.p t.p [(.n, v.getLsbD 7), (.v, v.getLsbD 6), (.z, decide (s.a &&& v = 0))])

/-- CMP, CPX, CPY: C, Z and N of the register compared with the operand byte; nothing else (R178, R179, R180). -/
def Obligations.ComparesSetCZN : Prop :=
  let flags := fun (reg m : Byte) =>
    [(Flag.c, decide (reg.toNat ≥ m.toNat)), (.z, decide (reg = m)),
      (.n, (BitVec.ofNat 8 ((256 + reg.toNat - m.toNat) % 256)).getLsbD 7)]
  ReadRule .cmp cmpRows
    (fun _ => True) (fun s _ => s) (fun s m => flags s.a m) ∧
  ReadRule .cpx cpxRows
    (fun _ => True) (fun s _ => s) (fun s m => flags s.x m) ∧
  ReadRule .cpy cpyRows
    (fun _ => True) (fun s _ => s) (fun s m => flags s.y m)

/-- INC and DEC: one write of the byte one higher or lower, modulo 256; N and Z, not C or V (R181, R182). -/
def Obligations.IncAndDecWriteMemoryOnce : Prop :=
  ModifyRule .inc incRows
    (fun _ m => m + 1) (fun _ m => nz (m + 1)) ∧
  ModifyRule .dec decRows
    (fun _ m => m - 1) (fun _ m => nz (m - 1))

/-- INX, INY, DEX, DEY: the register one higher or lower, modulo 256; N and Z (R183 to R186). -/
def Obligations.IndexRegistersCountModulo256 : Prop :=
  ImpliedRule .inx ⟨0xE8, 1, 2, 0⟩ (fun s => { s with x := s.x + 1 }) (fun s => nz (s.x + 1)) ∧
  ImpliedRule .iny ⟨0xC8, 1, 2, 0⟩ (fun s => { s with y := s.y + 1 }) (fun s => nz (s.y + 1)) ∧
  ImpliedRule .dex ⟨0xCA, 1, 2, 0⟩ (fun s => { s with x := s.x - 1 }) (fun s => nz (s.x - 1)) ∧
  ImpliedRule .dey ⟨0x88, 1, 2, 0⟩ (fun s => { s with y := s.y - 1 }) (fun s => nz (s.y - 1))

/-! ### Shifts and rotates -/

/-- ASL and LSR, of A and of memory: C takes the bit shifted out, a 0 comes in; N and Z of the result (R195, R196). -/
def Obligations.ShiftsMoveOneBitIntoCarry : Prop :=
  let asl := fun v : Byte => BitVec.ofNat 8 (v.toNat * 2 % 256)
  let aslFlags := fun v : Byte => (Flag.c, v.getLsbD 7) :: nz (asl v)
  let lsr := fun v : Byte => BitVec.ofNat 8 (v.toNat / 2)
  let lsrFlags := fun v : Byte => (Flag.c, v.getLsbD 0) :: nz (lsr v)
  ImpliedRule (.asl .acc) ⟨0x0A, 1, 2, 0⟩ (fun s => { s with a := asl s.a }) (fun s => aslFlags s.a) ∧
  ModifyRule (fun m => .asl (.mem m)) aslRows
    (fun _ v => asl v) (fun _ v => aslFlags v) ∧
  ImpliedRule (.lsr .acc) ⟨0x4A, 1, 2, 0⟩ (fun s => { s with a := lsr s.a }) (fun s => lsrFlags s.a) ∧
  ModifyRule (fun m => .lsr (.mem m)) lsrRows
    (fun _ v => lsr v) (fun _ v => lsrFlags v)

/-- ROL and ROR, of A and of memory: a rotation of nine bits through C; N and Z of the result (R197, R198). -/
def Obligations.RotatesMoveOneBitThroughCarry : Prop :=
  let c := fun s : State => (getFlag s.p .c).toNat
  let rol := fun (s : State) (v : Byte) => BitVec.ofNat 8 ((v.toNat * 2 + c s) % 256)
  let rolFlags := fun (s : State) (v : Byte) => (Flag.c, v.getLsbD 7) :: nz (rol s v)
  let ror := fun (s : State) (v : Byte) => BitVec.ofNat 8 (v.toNat / 2 + c s * 128)
  let rorFlags := fun (s : State) (v : Byte) => (Flag.c, v.getLsbD 0) :: nz (ror s v)
  ImpliedRule (.rol .acc) ⟨0x2A, 1, 2, 0⟩ (fun s => { s with a := rol s s.a }) (fun s => rolFlags s s.a) ∧
  ModifyRule (fun m => .rol (.mem m)) rolRows
    rol rolFlags ∧
  ImpliedRule (.ror .acc) ⟨0x6A, 1, 2, 0⟩ (fun s => { s with a := ror s s.a }) (fun s => rorFlags s s.a) ∧
  ModifyRule (fun m => .ror (.mem m)) rorRows
    ror rorFlags

/-! ### Control -/

/-- The eight branches, each on its flag (R205 to R213). -/
def Obligations.BranchesGoToTheirTarget : Prop :=
  BranchRule .bcc 0x90 (fun s => !getFlag s.p .c) ∧ BranchRule .bcs 0xB0 (fun s => getFlag s.p .c) ∧
  BranchRule .beq 0xF0 (fun s => getFlag s.p .z) ∧ BranchRule .bmi 0x30 (fun s => getFlag s.p .n) ∧
  BranchRule .bne 0xD0 (fun s => !getFlag s.p .z) ∧ BranchRule .bpl 0x10 (fun s => !getFlag s.p .n) ∧
  BranchRule .bvc 0x50 (fun s => !getFlag s.p .v) ∧ BranchRule .bvs 0x70 (fun s => getFlag s.p .v)

/-- JMP: PC takes the operand, in 3 cycles, or the word at the pointer, in 5, whose high byte comes from the pointer's own
page under `JMP_IND_PAGE_WRAP` and from the next address otherwise; nothing else changes (R214, R114). -/
def Obligations.JmpSetsOnlyPc : Prop :=
  ∀ (a : Addr) (s : State),
    (EncodedAs (.jmp (.abs a)) ⟨0x4C, 3, 3, 0⟩ ∧
      exec (.jmp (.abs a)) s = .next { s with pc := a, cycles := s.cycles + 3 }) ∧
    (EncodedAs (.jmp (.ind a)) ⟨0x6C, 3, 5, 0⟩ ∧
      ∃ t, exec (.jmp (.ind a)) s = .next t ∧ t = { s with pc := t.pc, cycles := s.cycles + 5 } ∧
        (∀ lo hi : Byte, s.mem.read a.toNat = lo →
          s.mem.read (if s.cfg.jmpIndPageWrap then a.toNat / 256 * 256 + (a.toNat + 1) % 256
            else (a.toNat + 1) % 0x10000) = hi →
          t.pc.toNat = hi.toNat * 256 + lo.toNat))

/-- JSR: PC + 2 is pushed, high byte first, SP two lower modulo 256, PC takes the operand; 6 cycles (R215). -/
def Obligations.JsrPushesTheReturnAddress : Prop :=
  ∀ (a : Addr) (s : State),
    EncodedAs (.jsr a) ⟨0x20, 3, 6, 0⟩ ∧
    ∃ t, exec (.jsr a) s = .next t ∧
      t = { s with sp := s.sp - 2, pc := a, cycles := s.cycles + 6, mem := t.mem, recorder := t.recorder } ∧
      StoresExactly s t [(stackAddr s.sp, hiByte (s.pc + 2)), (stackAddr (s.sp - 1), loByte (s.pc + 2))]

/-- RTS: on a stack that is not empty, PC takes the word above SP, low byte first, plus one, and SP is two higher modulo
256 (R216); on an empty stack it suspends, PC, SP and memory unchanged, its 6 cycles counted (R216, R217). -/
def Obligations.RtsReturnsOrSuspendsOnAnEmptyStack : Prop :=
  EncodedAs .rts ⟨0x60, 1, 6, 0⟩ ∧
  (∀ s : State, s.sp ≠ 0xFF → (s.cfg.rtsSuspendAtFe = true → s.sp ≠ 0xFE) →
    exec .rts s = .next
      { s with
        sp := s.sp + 2
        pc := word (s.read (stackAddr (s.sp + 2))) (s.read (stackAddr (s.sp + 1))) + 1
        cycles := s.cycles + 6 }) ∧
  ∀ s : State, s.sp = 0xFF ∨ (s.cfg.rtsSuspendAtFe = true ∧ s.sp = 0xFE) →
    exec .rts s = .next { s with suspended := true, cause := some .rtsEmptyStack, cycles := s.cycles + 6 }

/-- RTI: P whole, then PC, low byte first and with no increment, from the three bytes above SP (R218). -/
def Obligations.RtiRestoresStatusAndPc : Prop :=
  EncodedAs .rti ⟨0x40, 1, 6, 0⟩ ∧
  ∀ s : State, exec .rti s = .next
    { s with
      p := s.read (stackAddr (s.sp + 1))
      sp := s.sp + 3
      pc := word (s.read (stackAddr (s.sp + 3))) (s.read (stackAddr (s.sp + 2)))
      cycles := s.cycles + 6 }

/-- A return from a call lands on the instruction after it: RTS at the state JSR leaves restores SP and goes to PC + 3,
wherever SP pointed but where RTS would find the stack empty (R215, R216). -/
def Obligations.RtsUndoesJsr : Prop :=
  ∀ (a : Addr) (s : State), s.sp ≠ 0x01 → (s.cfg.rtsSuspendAtFe = true → s.sp ≠ 0x00) →
    ∃ t u, exec (.jsr a) s = .next t ∧ exec .rts t = .next u ∧
      u = { s with pc := s.pc + 3, cycles := s.cycles + 12, mem := u.mem, recorder := u.recorder }

/-! ### Flags, NOP, BRK and the illegal opcodes -/

/-- The seven flag instructions each write their one flag (R225 to R231); NOP changes nothing but PC and the cycles
(R232). -/
def Obligations.FlagInstructionsWriteOneFlagAndNopNone : Prop :=
  ImpliedRule .clc ⟨0x18, 1, 2, 0⟩ id (fun _ => [(.c, false)]) ∧
  ImpliedRule .cld ⟨0xD8, 1, 2, 0⟩ id (fun _ => [(.d, false)]) ∧
  ImpliedRule .cli ⟨0x58, 1, 2, 0⟩ id (fun _ => [(.i, false)]) ∧
  ImpliedRule .clv ⟨0xB8, 1, 2, 0⟩ id (fun _ => [(.v, false)]) ∧
  ImpliedRule .sec ⟨0x38, 1, 2, 0⟩ id (fun _ => [(.c, true)]) ∧
  ImpliedRule .sed ⟨0xF8, 1, 2, 0⟩ id (fun _ => [(.d, true)]) ∧
  ImpliedRule .sei ⟨0x78, 1, 2, 0⟩ id (fun _ => [(.i, true)]) ∧
  ImpliedRule .nop ⟨0xEA, 1, 2, 0⟩ id (fun _ => [])

/-- BRK: PC + 2, then P with bits 5 and 4 set, on the stack, I set, PC as `BRK_PC_MODE` says, suspended (R233); and every
illegal opcode does exactly that, with its own cause (R240). -/
def Obligations.BrkAndIllegalOpcodesSaveAndSuspend : Prop :=
  SuspendRule .brk 0x00 .brk ∧ ∀ op ∈ illegalOpcodes, SuspendRule (.ill op) op .illegalOpcode

/-! ### The bounded run -/

/-- CpuReset changes exactly the registers R300 names. The start of a repetition changes exactly PC, A and the suspended
flag, as R271 says, and clears the cause with the flag, which is log 7's deduction. The state after reset has R300's
values, with the default parameters (log 2). -/
def Obligations.ResetAndRepetitionStartSetTheirRegisters : Prop :=
  (∀ s : State, s.cpuReset =
    { s with x := s.cfg.resetX, y := s.cfg.resetY, sp := s.cfg.resetSp, p := s.cfg.resetP, cycles := 0 }) ∧
  (∀ (s : State) (entry : Addr) (seed : Byte), s.startRepetition entry seed =
    { s with pc := entry, a := seed, suspended := false, cause := none }) ∧
  (State.reset.x = 0x00 ∧ State.reset.y = 0x00 ∧ State.reset.sp = 0xFF ∧ State.reset.p = 0x00 ∧
    State.reset.cycles = 0 ∧ State.reset.suspended = false)

/-- The run loop of a window always ends: suspended, or with the limit reached, and then at most 6 cycles past it; a
window begun at or past its limit executes nothing (R272). -/
def Obligations.WindowEndsSuspendedOrAtItsLimit : Prop :=
  ∀ (limit : Nat) (s : State), ∃ t, runWindow limit (limit - s.cycles) s = .next t ∧
    (t.suspended = true ∨ limit ≤ t.cycles) ∧ s.cycles ≤ t.cycles ∧ t.cycles ≤ max s.cycles (limit + 6) ∧
    (limit ≤ s.cycles → t = s)

/-- Every Capture on a bound recorder with at least one repetition returns, with the log and the indicator of the recorder
and the counter as the result, its range kept, and at most 6 cycles past the budget used (R270, R272, R276). It changes
no parameter, log 2's choice of keeping them in the state, and not the snapshot. -/
def Obligations.CaptureReturnsWithinTheBudget : Prop :=
  ∀ (entry : Addr) (seed : Byte) (reps : Nat) (s : State) (r : Recorder), reps ≠ 0 → s.recorder = some r →
    ∃ t r', capture entry seed reps s = .next (t, ⟨r'.log, r'.reachedMaxCycles, t.cycles⟩) ∧
      t.recorder = some r' ∧ r'.rangeBegin = r.rangeBegin ∧ r'.rangeEnd = r.rangeEnd ∧
      t.cycles ≤ s.cfg.maxCycles + 6 ∧ t.cfg = s.cfg ∧ t.snapshot = s.snapshot

/-- The log a Capture returns: no entry outside the range, stamps that never decrease, none past the cycles used, from
whatever state and whatever the log held before (R268). -/
def Obligations.CaptureLogIsInRangeAndOrdered : Prop :=
  ∀ (entry : Addr) (seed : Byte) (reps : Nat) (s t : State) (r : Recorder) (res : CaptureResult),
    s.recorder = some r → capture entry seed reps s = .next (t, res) →
    (∀ w ∈ res.log, InRange r w.address) ∧ (res.log.Pairwise fun w w' => w.cycle ≤ w'.cycle) ∧
    ∀ w ∈ res.log, w.cycle ≤ res.cyclesUsed

/-- With one repetition, the indicator is set exactly when the window ran out before the core suspended (R257, R274, R276).
-/
def Obligations.OneRepetitionReportsTheBudgetIffNotSuspended : Prop :=
  ∀ (entry : Addr) (seed : Byte) (s t : State) (res : CaptureResult),
    capture entry seed 1 s = .next (t, res) →
    (res.reachedMaxCycles = true ↔ t.suspended = false) ∧
    (t.suspended = false → s.cfg.maxCycles ≤ res.cyclesUsed)

/-! ### The host's memory operations -/

/-- SetByte and SetWord, then GetByte and GetWord, return the value written, little-endian and wrapping at the top; they
change no other byte, and the recorder is not notified (R52, R71). -/
def Obligations.HostStoresReadBack : Prop :=
  ∀ (a : Addr) (v : Byte) (w : Addr) (s : State),
    (∃ t, hostCall true (.setByte a v) s = .next (t, .done) ∧ t = { s with mem := t.mem } ∧
      hostCall true (.getByte a) t = .next (t, .byte v) ∧ ∀ b, b ≠ a → t.read b = s.read b) ∧
    (∃ t, hostCall true (.setWord a w) s = .next (t, .done) ∧ t = { s with mem := t.mem } ∧
      hostCall true (.getWord a) t = .next (t, .word w) ∧
      t.read a = w.extractLsb' 0 8 ∧ t.read (a + 1) = w.extractLsb' 8 8 ∧
      ∀ b, b ≠ a → b ≠ a + 1 → t.read b = s.read b)

/-- SetData of a buffer that ends inside memory, then GetData of its length, returns the buffer; one that does not end
inside memory is refused, as is reading past the end (R72). -/
def Obligations.HostBlocksReadBackOrAreRefused : Prop :=
  ∀ (a : Addr) (b : List Byte) (s : State),
    (a.toNat + b.length ≤ 0x10000 →
      ∃ t, hostCall true (.setData a b) s = .next (t, .done) ∧ t = { s with mem := t.mem } ∧
        hostCall true (.getData a b.length) t = .next (t, .bytes b) ∧
        ∀ c : Addr, (c.toNat < a.toNat ∨ a.toNat + b.length ≤ c.toNat) → t.read c = s.read c) ∧
    (0x10000 < a.toNat + b.length →
      hostCall true (.setData a b) s = .refused .blockPastEnd ∧
      hostCall true (.getData a b.length) s = .refused .blockPastEnd)

/-- Clear makes every byte 0x00; a snapshot, whatever is done to memory after it, is what RestoreFromSnapshot brings back,
and it stays in the slot; restoring an empty slot is refused; FlushSnapshot empties it (R73, R74). -/
def Obligations.ClearAndSnapshotDoWhatTheySay : Prop :=
  ∀ (s : State) (m : Memory),
    (∃ t, hostCall true .clear s = .next (t, .done) ∧ t = { s with mem := t.mem } ∧ ∀ a, t.read a = 0x00) ∧
    (∃ t, hostCall true .takeSnapshot s = .next (t, .done) ∧ t = { s with snapshot := t.snapshot } ∧
      hostCall true .restoreFromSnapshot { t with mem := m } = .next (t, .done)) ∧
    (∃ t, hostCall true .flushSnapshot s = .next (t, .done) ∧ t = { s with snapshot := t.snapshot } ∧
      hostCall true .restoreFromSnapshot t = .refused .snapshotEmpty)

/-- Without the memory lock no memory operation and no Capture has a step; nor has a Capture with no repetitions, nor a
second recorder on one CPU (R70, R269, R270, R311). The lock as an argument of the call is log 11's choice. The last
clause, that a new recorder holds an empty log and a clear indicator, is log 13's deduction. -/
def Obligations.HostDutiesAreRefusedWhenBroken : Prop :=
  ∀ (s : State) (a w : Addr) (v : Byte) (n : Nat) (b : List Byte) (r : Recorder),
    (∀ c ∈ [HostCall.getByte a, .setByte a v, .getWord a, .setWord a w, .getData a n, .setData a b, .clear,
        .takeSnapshot, .restoreFromSnapshot, .flushSnapshot, .capture a v n],
      hostCall false c s = .refused .lockNotHeld) ∧
    hostCall true (.capture a v 0) s = .refused .noRepetitions ∧
    (s.recorder = some r → hostCall true (.constructRecorder a w) s = .refused .recorderBound) ∧
    (s.recorder = none → ∃ t, hostCall true (.constructRecorder a w) s = .next (t, .done) ∧
      t = { s with recorder := some ⟨a, w, [], false⟩ })

/-! ### The writes of a step, and the windows of a Capture -/

/-- Every write an instruction makes is stored, and makes exactly one entry in the log of a bound recorder if its address is
in the range, in the order of the writes and with the cycle the instruction started at, and nothing else is stored or
logged; the writes are those `writesOf` lists from the instruction and the state before it (R55, R58, R265 to R268). -/
def Obligations.EveryWriteInRangeIsLoggedOnce : Prop :=
  ∀ (i : Instr) (s t : State), exec i s = .next t → StoresExactly s t (writesOf i s)

/-- Capture, for every number of repetitions, as R270 writes it. CpuReset, with the log emptied and the indicator cleared;
then repetition `k` starts with the counter at the larger of where it stood and `k * part`, with PC, A and the suspended
flag set and the rest carried over (R271, R273), and its window runs to `(k + 1) * part`, or to `MAX_CYCLES` for the last,
`part` being `MAX_CYCLES div reps` (R272, R273); the result is the log, the indicator and the counter after the last, and
the indicator is set exactly if some repetition's window ended not suspended (R276). The cause cleared at each start is log
7's deduction. -/
def Obligations.CaptureRunsEachRepetitionInItsWindow : Prop :=
  ∀ (entry : Addr) (seed : Byte) (reps : Nat) (s : State) (r : Recorder), reps ≠ 0 → s.recorder = some r →
    let part := s.cfg.maxCycles / reps
    ∃ (before ended : Nat → State) (r' : Recorder),
      before 0 =
        { s with
          x := s.cfg.resetX, y := s.cfg.resetY, sp := s.cfg.resetSp, p := s.cfg.resetP, cycles := 0
          recorder := some { r with log := [], reachedMaxCycles := false } } ∧
      (∀ k < reps,
        RunsWindow (if k = reps - 1 then s.cfg.maxCycles else (k + 1) * part)
          { before k with
            cycles := max (before k).cycles (k * part), pc := entry, a := seed, suspended := false, cause := none }
          (ended k) ∧
        ∃ q, (ended k).recorder = some q ∧
          before (k + 1) =
            { ended k with
              recorder := some { q with reachedMaxCycles := q.reachedMaxCycles || !(ended k).suspended } }) ∧
      (before reps).recorder = some r' ∧
      capture entry seed reps s = .next (before reps, ⟨r'.log, r'.reachedMaxCycles, (before reps).cycles⟩) ∧
      (r'.reachedMaxCycles = true ↔ ∃ k < reps, (ended k).suspended = false)
end

