-- ==== Sys2Proof/Laws/Decode.lean ====
section
/-!
SUPPORT. The byte halves of a 16-bit value, the descriptor of an opcode and of a well-formed instruction.
-/

namespace Sys2Proof

theorem word_toNat (hi lo : Byte) : (word hi lo).toNat = hi.toNat * 256 + lo.toNat := by
  have h1 := hi.isLt
  have h2 := lo.isLt
  have e : (hi.toNat <<< 8) % 65536 = hi.toNat <<< 8 := by rw [Nat.shiftLeft_eq]; omega
  simp only [word, BitVec.toNat_or, BitVec.toNat_shiftLeft, BitVec.toNat_setWidth, Nat.mod_eq_of_lt (by omega : hi.toNat < 2 ^ 16),
    Nat.mod_eq_of_lt (by omega : lo.toNat < 2 ^ 16)]
  rw [show 2 ^ 16 = 65536 from rfl, e, ← Nat.shiftLeft_add_eq_or_of_lt h2, Nat.shiftLeft_eq]

theorem hiByte_toNat (a : Addr) : (hiByte a).toNat = a.toNat / 256 := by
  have := a.isLt
  simp [hiByte, BitVec.extractLsb'_toNat, Nat.shiftRight_eq_div_pow]
  omega

theorem loByte_toNat (a : Addr) : (loByte a).toNat = a.toNat % 256 := by
  simp [loByte, BitVec.extractLsb'_toNat]

@[simp] theorem word_hiByte_loByte (a : Addr) : word (hiByte a) (loByte a) = a := by
  apply BitVec.eq_of_toNat_eq
  rw [word_toNat, hiByte_toNat, loByte_toNat]
  omega

@[simp] theorem hiByte_word (hi lo : Byte) : hiByte (word hi lo) = hi := by
  have := lo.isLt
  apply BitVec.eq_of_toNat_eq
  rw [hiByte_toNat, word_toNat]
  omega

@[simp] theorem loByte_word (hi lo : Byte) : loByte (word hi lo) = lo := by
  have := lo.isLt
  apply BitVec.eq_of_toNat_eq
  rw [loByte_toNat, word_toNat]
  omega

/-- The term is a row of the opcode table exactly if it has an opcode. -/
theorem opcode_isSome (i : Instr) : i.opcode?.isSome = i.wellFormed := by
  cases i
  case ill op => simp only [Instr.opcode?, Instr.wellFormed]; split <;> simp_all
  all_goals first
    | rfl
    | (rename_i x; cases x <;> rfl)
    | (rename_i x; cases x <;> first | rfl | (rename_i y; cases y <;> rfl))

/-- The descriptor of every illegal opcode (R87). -/
theorem desc_of_illegal (op : Byte) (h : op ∈ illegalOpcodes) : desc op = ⟨.ILL, .imp, 7, 0⟩ := by
  have all : illegalOpcodes.map desc = List.replicate 105 illegalDesc := rfl
  exact List.eq_of_mem_replicate (all ▸ List.mem_map_of_mem h)

/-- What a well-formed instruction's descriptor is: that of its opcode byte. -/
theorem desc?_eq {i : Instr} {op : Byte} (h : i.opcode? = some op) : i.desc? = some (desc op) := by
  simp [Instr.desc?, h]

/-- An instruction has a descriptor exactly if it is a row of the opcode table. -/
theorem wellFormed_iff_desc (i : Instr) : i.wellFormed = true ↔ ∃ d, i.desc? = some d := by
  rw [← opcode_isSome]
  cases h : i.opcode? <;> simp [Instr.desc?, h]

/-- A fact of every descriptor of the opcode matrix is one of every byte's descriptor. -/
theorem desc_all {P : Desc → Prop} (h : ∀ row ∈ opcodeRows, ∀ d ∈ row, P d) (hi : P illegalDesc) (op : Byte) :
    P (desc op) := by
  have pick : ∀ (row : List Desc) n, (∀ d ∈ row, P d) → P (row.getD n illegalDesc) := by
    intro row n hr
    rw [List.getD_eq_getElem?_getD]
    cases e : row[n]? with
    | none => exact hi
    | some d => exact hr d (List.mem_of_getElem? e)
  refine pick _ _ fun d hd => ?_
  rw [List.getD_eq_getElem?_getD] at hd
  cases e : opcodeRows[op.toNat / 16]? with
  | none => simp [e] at hd
  | some row => exact h row (List.mem_of_getElem? e) d (by simpa [e] using hd)

/-- A branch's descriptor has mode `rel`, and JSR's `abs` (R84). -/
theorem desc_shape (op : Byte) :
    ((desc op).mnemonic ∈ [Mnemonic.BCC, .BCS, .BEQ, .BMI, .BNE, .BPL, .BVC, .BVS] → (desc op).mode = .rel) ∧
      ((desc op).mnemonic = .JSR → (desc op).mode = .abs) :=
  desc_all (P := fun d =>
    (d.mnemonic ∈ [Mnemonic.BCC, .BCS, .BEQ, .BMI, .BNE, .BPL, .BVC, .BVS] → d.mode = .rel) ∧
      (d.mnemonic = .JSR → d.mode = .abs)) (by decide +kernel) (by decide) op

/-- The base cycles of every opcode, and the page-cross extra where it has one, are as many as an instruction can take
(R121 to R123). -/
theorem desc_cycles (op : Byte) :
    2 ≤ (desc op).base ∧ (desc op).base + (desc op).pageCrossExtra ≤ 7 ∧
      ((desc op).mode = .rel → (desc op).base = 2 ∧ (desc op).pageCrossExtra = 0) :=
  desc_all (P := fun d =>
    2 ≤ d.base ∧ d.base + d.pageCrossExtra ≤ 7 ∧ (d.mode = .rel → d.base = 2 ∧ d.pageCrossExtra = 0))
    (by decide +kernel) (by decide) op

/-- A length is 1, 2 or 3 (R80). -/
theorem desc_size (d : Desc) : d.size = 1 ∨ d.size = 2 ∨ d.size = 3 := by
  unfold Desc.size Mode.size
  split <;> simp

theorem memOp?_bytes (md : Mode) (b1 b2 : Byte) :
    (md.size = 1 → memOp? md b1 b2 = memOp? md 0 0) ∧ (md.size = 2 → memOp? md b1 b2 = memOp? md b1 0) := by
  cases md <;> simp [memOp?, Mode.size]

theorem src?_bytes (md : Mode) (b1 b2 : Byte) :
    (md.size = 1 → src? md b1 b2 = src? md 0 0) ∧ (md.size = 2 → src? md b1 b2 = src? md b1 0) := by
  cases md <;> simp [src?, memOp?, Mode.size]

theorem place?_bytes (md : Mode) (b1 b2 : Byte) :
    (md.size = 1 → place? md b1 b2 = place? md 0 0) ∧ (md.size = 2 → place? md b1 b2 = place? md b1 0) := by
  cases md <;> simp [place?, memOp?, Mode.size]

theorem target?_bytes (md : Mode) (b1 b2 : Byte) :
    (md.size = 1 → target? md b1 b2 = target? md 0 0) ∧ (md.size = 2 → target? md b1 b2 = target? md b1 0) := by
  cases md <;> simp [target?, Mode.size]

theorem documented?_bytes (d : Desc) (b1 b2 : Byte)
    (hb : d.mnemonic ∈ [Mnemonic.BCC, .BCS, .BEQ, .BMI, .BNE, .BPL, .BVC, .BVS] → d.mode = .rel)
    (hj : d.mnemonic = .JSR → d.mode = .abs) :
    (d.mode.size = 1 → documented? d b1 b2 = documented? d 0 0) ∧
      (d.mode.size = 2 → documented? d b1 b2 = documented? d b1 0) := by
  obtain ⟨mn, md, base, extra⟩ := d
  have hm := memOp?_bytes md b1 b2
  have hs := src?_bytes md b1 b2
  have hp := place?_bytes md b1 b2
  have ht := target?_bytes md b1 b2
  have rel1 : md.size = 1 → md ≠ .rel := by rintro h rfl; cases h
  have abs1 : md.size = 1 → md ≠ .abs := by rintro h rfl; cases h
  have abs2 : md.size = 2 → md ≠ .abs := by rintro h rfl; cases h
  constructor <;> intro h
  · cases mn
    case BCC | BCS | BEQ | BMI | BNE | BPL | BVC | BVS => exact absurd (hb (by simp)) (rel1 h)
    case JSR => exact absurd (hj rfl) (abs1 h)
    case LDA | LDX | LDY | ADC | SBC | AND | ORA | EOR | CMP | CPX | CPY => exact congrArg (Option.map _) (hs.1 h)
    case STA | STX | STY | BIT | INC | DEC => exact congrArg (Option.map _) (hm.1 h)
    case ASL | LSR | ROL | ROR => exact congrArg (Option.map _) (hp.1 h)
    case JMP => exact congrArg (Option.map _) (ht.1 h)
    all_goals rfl
  · cases mn
    case JSR => exact absurd (hj rfl) (abs2 h)
    case LDA | LDX | LDY | ADC | SBC | AND | ORA | EOR | CMP | CPX | CPY => exact congrArg (Option.map _) (hs.2 h)
    case STA | STX | STY | BIT | INC | DEC => exact congrArg (Option.map _) (hm.2 h)
    case ASL | LSR | ROL | ROR => exact congrArg (Option.map _) (hp.2 h)
    case JMP => exact congrArg (Option.map _) (ht.2 h)
    all_goals rfl

/-- The bytes past an instruction's length do not decide what it decodes to (R80). -/
theorem decodeOp_bytes (op b1 b2 : Byte) :
    ((desc op).size = 1 → decodeOp op b1 b2 = decodeOp op 0 0) ∧
      ((desc op).size = 2 → decodeOp op b1 b2 = decodeOp op b1 0) := by
  have h := documented?_bytes (desc op) b1 b2 (desc_shape op).1 (desc_shape op).2
  exact ⟨fun hs => by rw [decodeOp, h.1 hs, decodeOp], fun hs => by rw [decodeOp, h.2 hs, decodeOp]⟩

/-- Decoding three bytes gives the instruction a fetch of them gives (R101). -/
theorem decode_three (op b1 b2 : Byte) : ∃ rest, decode [op, b1, b2] = .ok (decodeOp op b1 b2, rest) := by
  obtain ⟨h1, h2⟩ := decodeOp_bytes op b1 b2
  rcases desc_size (desc op) with h | h | h
  · exact ⟨[b1, b2], by simp [decode, h, h1 h]⟩
  · exact ⟨[b2], by simp [decode, h, h2 h]⟩
  · exact ⟨[], by simp [decode, h]⟩

end Sys2Proof
end

