-- ==== Sys2Proof/Laws/Flags.lean ====
section
/-!
SUPPORT. What each flag computation leaves in each flag.
-/

namespace Sys2Proof.Machine

open Sys2Proof.Safety

/-- A flag read after it, or another, was written. -/
theorem getFlag_putFlag (p : Byte) (f g : Flag) (v : Bool) :
    getFlag (putFlag p f v) g = if g = f then v else getFlag p g := by
  cases f <;> cases g <;> cases v <;> simp [getFlag, putFlag, Flag.mask, Flag.index]

@[simp] theorem getFlag_putFlag_same (p : Byte) (f : Flag) (v : Bool) : getFlag (putFlag p f v) f = v := by
  simp [getFlag_putFlag]

theorem getFlag_putNZ (p v : Byte) (f : Flag) :
    getFlag (putNZ p v) f = if f = .z then v == 0 else if f = .n then v.msb else getFlag p f := by
  simp only [putNZ, getFlag_putFlag]

/-- A status byte is determined by its eight flags. -/
theorem status_ext {p q : Byte} (h : ∀ f, getFlag p f = getFlag q f) : p = q := by
  apply BitVec.eq_of_getLsbD_eq
  intro i hi
  have h0 := h .c; have h1 := h .z; have h2 := h .i; have h3 := h .d
  have h4 := h .b; have h5 := h .u; have h6 := h .v; have h7 := h .n
  simp only [getFlag, Flag.index] at h0 h1 h2 h3 h4 h5 h6 h7
  interval_cases i <;> assumption

/-- Writing no flag. -/
theorem flagsExactly_refl (p : Byte) : FlagsExactly p p [] := fun _ => rfl

/-- Writing one more flag, over whatever was written before. -/
theorem flagsExactly_put {p q : Byte} {l : List (Flag × Bool)} (h : FlagsExactly p q l) (f : Flag) (v : Bool) :
    FlagsExactly p (putFlag q f v) ((f, v) :: l) := by
  intro g
  rw [getFlag_putFlag, h g, List.lookup_cons]
  by_cases e : g = f
  · simp [e]
  · simp [e, beq_false_of_ne e]

/-- Two lists that look up the same flags alike say the same. -/
theorem flagsExactly_congr {p q : Byte} {l l' : List (Flag × Bool)} (h : FlagsExactly p q l)
    (e : ∀ f, l.lookup f = l'.lookup f) : FlagsExactly p q l' := fun f => by rw [h f, e f]

theorem flagsExactly_putNZ {p q : Byte} {l : List (Flag × Bool)} (h : FlagsExactly p q l) (v : Byte) :
    FlagsExactly p (putNZ q v) (nz v ++ l) := by
  refine flagsExactly_congr (flagsExactly_put (flagsExactly_put h .n v.msb) .z (v == 0)) fun f => ?_
  cases f <;> simp [nz, List.lookup_cons, BitVec.msb_eq_getLsbD_last] <;> rfl

/-- The pushed byte has flags U and B set and the others as P holds them (R161). -/
theorem getFlag_pushedStatus (p : Byte) (f : Flag) :
    getFlag (pushedStatus p) f = if f = .u ∨ f = .b then true else getFlag p f := by
  cases f <;> simp [getFlag, pushedStatus, Flag.index]

end Sys2Proof.Machine
end

