-- ==== Sys2Proof/Laws/State.lean ====
section
/-!
SUPPORT. One lemma per field per update of the state, each true by rfl, so that no later proof unfolds a record update.
-/

namespace Sys2Proof.Machine

variable (s : State)

@[simp] theorem State.setA_a (v : Byte) : (s.setA v).a = v := rfl
@[simp] theorem State.setA_x (v : Byte) : (s.setA v).x = s.x := rfl
@[simp] theorem State.setA_y (v : Byte) : (s.setA v).y = s.y := rfl
@[simp] theorem State.setA_sp (v : Byte) : (s.setA v).sp = s.sp := rfl
@[simp] theorem State.setA_p (v : Byte) : (s.setA v).p = s.p := rfl
@[simp] theorem State.setA_pc (v : Byte) : (s.setA v).pc = s.pc := rfl
@[simp] theorem State.setA_cycles (v : Byte) : (s.setA v).cycles = s.cycles := rfl
@[simp] theorem State.setA_suspended (v : Byte) : (s.setA v).suspended = s.suspended := rfl
@[simp] theorem State.setA_cause (v : Byte) : (s.setA v).cause = s.cause := rfl
@[simp] theorem State.setA_mem (v : Byte) : (s.setA v).mem = s.mem := rfl
@[simp] theorem State.setA_snapshot (v : Byte) : (s.setA v).snapshot = s.snapshot := rfl
@[simp] theorem State.setA_recorder (v : Byte) : (s.setA v).recorder = s.recorder := rfl
@[simp] theorem State.setA_cfg (v : Byte) : (s.setA v).cfg = s.cfg := rfl

@[simp] theorem State.setA_read (v : Byte) (i : Addr) : (s.setA v).read i = s.read i := rfl

@[simp] theorem State.setX_a (v : Byte) : (s.setX v).a = s.a := rfl
@[simp] theorem State.setX_x (v : Byte) : (s.setX v).x = v := rfl
@[simp] theorem State.setX_y (v : Byte) : (s.setX v).y = s.y := rfl
@[simp] theorem State.setX_sp (v : Byte) : (s.setX v).sp = s.sp := rfl
@[simp] theorem State.setX_p (v : Byte) : (s.setX v).p = s.p := rfl
@[simp] theorem State.setX_pc (v : Byte) : (s.setX v).pc = s.pc := rfl
@[simp] theorem State.setX_cycles (v : Byte) : (s.setX v).cycles = s.cycles := rfl
@[simp] theorem State.setX_suspended (v : Byte) : (s.setX v).suspended = s.suspended := rfl
@[simp] theorem State.setX_cause (v : Byte) : (s.setX v).cause = s.cause := rfl
@[simp] theorem State.setX_mem (v : Byte) : (s.setX v).mem = s.mem := rfl
@[simp] theorem State.setX_snapshot (v : Byte) : (s.setX v).snapshot = s.snapshot := rfl
@[simp] theorem State.setX_recorder (v : Byte) : (s.setX v).recorder = s.recorder := rfl
@[simp] theorem State.setX_cfg (v : Byte) : (s.setX v).cfg = s.cfg := rfl

@[simp] theorem State.setX_read (v : Byte) (i : Addr) : (s.setX v).read i = s.read i := rfl

@[simp] theorem State.setY_a (v : Byte) : (s.setY v).a = s.a := rfl
@[simp] theorem State.setY_x (v : Byte) : (s.setY v).x = s.x := rfl
@[simp] theorem State.setY_y (v : Byte) : (s.setY v).y = v := rfl
@[simp] theorem State.setY_sp (v : Byte) : (s.setY v).sp = s.sp := rfl
@[simp] theorem State.setY_p (v : Byte) : (s.setY v).p = s.p := rfl
@[simp] theorem State.setY_pc (v : Byte) : (s.setY v).pc = s.pc := rfl
@[simp] theorem State.setY_cycles (v : Byte) : (s.setY v).cycles = s.cycles := rfl
@[simp] theorem State.setY_suspended (v : Byte) : (s.setY v).suspended = s.suspended := rfl
@[simp] theorem State.setY_cause (v : Byte) : (s.setY v).cause = s.cause := rfl
@[simp] theorem State.setY_mem (v : Byte) : (s.setY v).mem = s.mem := rfl
@[simp] theorem State.setY_snapshot (v : Byte) : (s.setY v).snapshot = s.snapshot := rfl
@[simp] theorem State.setY_recorder (v : Byte) : (s.setY v).recorder = s.recorder := rfl
@[simp] theorem State.setY_cfg (v : Byte) : (s.setY v).cfg = s.cfg := rfl

@[simp] theorem State.setY_read (v : Byte) (i : Addr) : (s.setY v).read i = s.read i := rfl

@[simp] theorem State.setSp_a (v : Byte) : (s.setSp v).a = s.a := rfl
@[simp] theorem State.setSp_x (v : Byte) : (s.setSp v).x = s.x := rfl
@[simp] theorem State.setSp_y (v : Byte) : (s.setSp v).y = s.y := rfl
@[simp] theorem State.setSp_sp (v : Byte) : (s.setSp v).sp = v := rfl
@[simp] theorem State.setSp_p (v : Byte) : (s.setSp v).p = s.p := rfl
@[simp] theorem State.setSp_pc (v : Byte) : (s.setSp v).pc = s.pc := rfl
@[simp] theorem State.setSp_cycles (v : Byte) : (s.setSp v).cycles = s.cycles := rfl
@[simp] theorem State.setSp_suspended (v : Byte) : (s.setSp v).suspended = s.suspended := rfl
@[simp] theorem State.setSp_cause (v : Byte) : (s.setSp v).cause = s.cause := rfl
@[simp] theorem State.setSp_mem (v : Byte) : (s.setSp v).mem = s.mem := rfl
@[simp] theorem State.setSp_snapshot (v : Byte) : (s.setSp v).snapshot = s.snapshot := rfl
@[simp] theorem State.setSp_recorder (v : Byte) : (s.setSp v).recorder = s.recorder := rfl
@[simp] theorem State.setSp_cfg (v : Byte) : (s.setSp v).cfg = s.cfg := rfl

@[simp] theorem State.setSp_read (v : Byte) (i : Addr) : (s.setSp v).read i = s.read i := rfl

@[simp] theorem State.setP_a (v : Byte) : (s.setP v).a = s.a := rfl
@[simp] theorem State.setP_x (v : Byte) : (s.setP v).x = s.x := rfl
@[simp] theorem State.setP_y (v : Byte) : (s.setP v).y = s.y := rfl
@[simp] theorem State.setP_sp (v : Byte) : (s.setP v).sp = s.sp := rfl
@[simp] theorem State.setP_p (v : Byte) : (s.setP v).p = v := rfl
@[simp] theorem State.setP_pc (v : Byte) : (s.setP v).pc = s.pc := rfl
@[simp] theorem State.setP_cycles (v : Byte) : (s.setP v).cycles = s.cycles := rfl
@[simp] theorem State.setP_suspended (v : Byte) : (s.setP v).suspended = s.suspended := rfl
@[simp] theorem State.setP_cause (v : Byte) : (s.setP v).cause = s.cause := rfl
@[simp] theorem State.setP_mem (v : Byte) : (s.setP v).mem = s.mem := rfl
@[simp] theorem State.setP_snapshot (v : Byte) : (s.setP v).snapshot = s.snapshot := rfl
@[simp] theorem State.setP_recorder (v : Byte) : (s.setP v).recorder = s.recorder := rfl
@[simp] theorem State.setP_cfg (v : Byte) : (s.setP v).cfg = s.cfg := rfl

@[simp] theorem State.setP_read (v : Byte) (i : Addr) : (s.setP v).read i = s.read i := rfl

@[simp] theorem State.setPc_a (v : Addr) : (s.setPc v).a = s.a := rfl
@[simp] theorem State.setPc_x (v : Addr) : (s.setPc v).x = s.x := rfl
@[simp] theorem State.setPc_y (v : Addr) : (s.setPc v).y = s.y := rfl
@[simp] theorem State.setPc_sp (v : Addr) : (s.setPc v).sp = s.sp := rfl
@[simp] theorem State.setPc_p (v : Addr) : (s.setPc v).p = s.p := rfl
@[simp] theorem State.setPc_pc (v : Addr) : (s.setPc v).pc = v := rfl
@[simp] theorem State.setPc_cycles (v : Addr) : (s.setPc v).cycles = s.cycles := rfl
@[simp] theorem State.setPc_suspended (v : Addr) : (s.setPc v).suspended = s.suspended := rfl
@[simp] theorem State.setPc_cause (v : Addr) : (s.setPc v).cause = s.cause := rfl
@[simp] theorem State.setPc_mem (v : Addr) : (s.setPc v).mem = s.mem := rfl
@[simp] theorem State.setPc_snapshot (v : Addr) : (s.setPc v).snapshot = s.snapshot := rfl
@[simp] theorem State.setPc_recorder (v : Addr) : (s.setPc v).recorder = s.recorder := rfl
@[simp] theorem State.setPc_cfg (v : Addr) : (s.setPc v).cfg = s.cfg := rfl

@[simp] theorem State.setPc_read (v : Addr) (i : Addr) : (s.setPc v).read i = s.read i := rfl

@[simp] theorem State.addCycles_a (n : Nat) : (s.addCycles n).a = s.a := rfl
@[simp] theorem State.addCycles_x (n : Nat) : (s.addCycles n).x = s.x := rfl
@[simp] theorem State.addCycles_y (n : Nat) : (s.addCycles n).y = s.y := rfl
@[simp] theorem State.addCycles_sp (n : Nat) : (s.addCycles n).sp = s.sp := rfl
@[simp] theorem State.addCycles_p (n : Nat) : (s.addCycles n).p = s.p := rfl
@[simp] theorem State.addCycles_pc (n : Nat) : (s.addCycles n).pc = s.pc := rfl
@[simp] theorem State.addCycles_cycles (n : Nat) : (s.addCycles n).cycles = s.cycles + n := rfl
@[simp] theorem State.addCycles_suspended (n : Nat) : (s.addCycles n).suspended = s.suspended := rfl
@[simp] theorem State.addCycles_cause (n : Nat) : (s.addCycles n).cause = s.cause := rfl
@[simp] theorem State.addCycles_mem (n : Nat) : (s.addCycles n).mem = s.mem := rfl
@[simp] theorem State.addCycles_snapshot (n : Nat) : (s.addCycles n).snapshot = s.snapshot := rfl
@[simp] theorem State.addCycles_recorder (n : Nat) : (s.addCycles n).recorder = s.recorder := rfl
@[simp] theorem State.addCycles_cfg (n : Nat) : (s.addCycles n).cfg = s.cfg := rfl

@[simp] theorem State.addCycles_read (n : Nat) (i : Addr) : (s.addCycles n).read i = s.read i := rfl

@[simp] theorem State.setNZ_a (v : Byte) : (s.setNZ v).a = s.a := rfl
@[simp] theorem State.setNZ_x (v : Byte) : (s.setNZ v).x = s.x := rfl
@[simp] theorem State.setNZ_y (v : Byte) : (s.setNZ v).y = s.y := rfl
@[simp] theorem State.setNZ_sp (v : Byte) : (s.setNZ v).sp = s.sp := rfl
@[simp] theorem State.setNZ_p (v : Byte) : (s.setNZ v).p = putNZ s.p v := rfl
@[simp] theorem State.setNZ_pc (v : Byte) : (s.setNZ v).pc = s.pc := rfl
@[simp] theorem State.setNZ_cycles (v : Byte) : (s.setNZ v).cycles = s.cycles := rfl
@[simp] theorem State.setNZ_suspended (v : Byte) : (s.setNZ v).suspended = s.suspended := rfl
@[simp] theorem State.setNZ_cause (v : Byte) : (s.setNZ v).cause = s.cause := rfl
@[simp] theorem State.setNZ_mem (v : Byte) : (s.setNZ v).mem = s.mem := rfl
@[simp] theorem State.setNZ_snapshot (v : Byte) : (s.setNZ v).snapshot = s.snapshot := rfl
@[simp] theorem State.setNZ_recorder (v : Byte) : (s.setNZ v).recorder = s.recorder := rfl
@[simp] theorem State.setNZ_cfg (v : Byte) : (s.setNZ v).cfg = s.cfg := rfl

@[simp] theorem State.setNZ_read (v : Byte) (i : Addr) : (s.setNZ v).read i = s.read i := rfl

@[simp] theorem State.suspend_a (c : SuspendCause) : (s.suspend c).a = s.a := rfl
@[simp] theorem State.suspend_x (c : SuspendCause) : (s.suspend c).x = s.x := rfl
@[simp] theorem State.suspend_y (c : SuspendCause) : (s.suspend c).y = s.y := rfl
@[simp] theorem State.suspend_sp (c : SuspendCause) : (s.suspend c).sp = s.sp := rfl
@[simp] theorem State.suspend_p (c : SuspendCause) : (s.suspend c).p = s.p := rfl
@[simp] theorem State.suspend_pc (c : SuspendCause) : (s.suspend c).pc = s.pc := rfl
@[simp] theorem State.suspend_cycles (c : SuspendCause) : (s.suspend c).cycles = s.cycles := rfl
@[simp] theorem State.suspend_suspended (c : SuspendCause) : (s.suspend c).suspended = true := rfl
@[simp] theorem State.suspend_cause (c : SuspendCause) : (s.suspend c).cause = some c := rfl
@[simp] theorem State.suspend_mem (c : SuspendCause) : (s.suspend c).mem = s.mem := rfl
@[simp] theorem State.suspend_snapshot (c : SuspendCause) : (s.suspend c).snapshot = s.snapshot := rfl
@[simp] theorem State.suspend_recorder (c : SuspendCause) : (s.suspend c).recorder = s.recorder := rfl
@[simp] theorem State.suspend_cfg (c : SuspendCause) : (s.suspend c).cfg = s.cfg := rfl

@[simp] theorem State.suspend_read (c : SuspendCause) (i : Addr) : (s.suspend c).read i = s.read i := rfl

@[simp] theorem State.write_a (b : Addr) (v : Byte) : (s.write b v).a = s.a := rfl
@[simp] theorem State.write_x (b : Addr) (v : Byte) : (s.write b v).x = s.x := rfl
@[simp] theorem State.write_y (b : Addr) (v : Byte) : (s.write b v).y = s.y := rfl
@[simp] theorem State.write_sp (b : Addr) (v : Byte) : (s.write b v).sp = s.sp := rfl
@[simp] theorem State.write_p (b : Addr) (v : Byte) : (s.write b v).p = s.p := rfl
@[simp] theorem State.write_pc (b : Addr) (v : Byte) : (s.write b v).pc = s.pc := rfl
@[simp] theorem State.write_cycles (b : Addr) (v : Byte) : (s.write b v).cycles = s.cycles := rfl
@[simp] theorem State.write_suspended (b : Addr) (v : Byte) : (s.write b v).suspended = s.suspended := rfl
@[simp] theorem State.write_cause (b : Addr) (v : Byte) : (s.write b v).cause = s.cause := rfl
@[simp] theorem State.write_mem (b : Addr) (v : Byte) : (s.write b v).mem = s.mem.write b.toNat v := rfl
@[simp] theorem State.write_snapshot (b : Addr) (v : Byte) : (s.write b v).snapshot = s.snapshot := rfl
@[simp] theorem State.write_recorder (b : Addr) (v : Byte) : (s.write b v).recorder = s.recorder.map fun r => r.notify b v s.cycles := rfl
@[simp] theorem State.write_cfg (b : Addr) (v : Byte) : (s.write b v).cfg = s.cfg := rfl

@[simp] theorem State.push_a (v : Byte) : (s.push v).a = s.a := rfl
@[simp] theorem State.push_x (v : Byte) : (s.push v).x = s.x := rfl
@[simp] theorem State.push_y (v : Byte) : (s.push v).y = s.y := rfl
@[simp] theorem State.push_sp (v : Byte) : (s.push v).sp = s.sp - 1 := rfl
@[simp] theorem State.push_p (v : Byte) : (s.push v).p = s.p := rfl
@[simp] theorem State.push_pc (v : Byte) : (s.push v).pc = s.pc := rfl
@[simp] theorem State.push_cycles (v : Byte) : (s.push v).cycles = s.cycles := rfl
@[simp] theorem State.push_suspended (v : Byte) : (s.push v).suspended = s.suspended := rfl
@[simp] theorem State.push_cause (v : Byte) : (s.push v).cause = s.cause := rfl
@[simp] theorem State.push_mem (v : Byte) : (s.push v).mem = s.mem.write (stackAddr s.sp).toNat v := rfl
@[simp] theorem State.push_snapshot (v : Byte) : (s.push v).snapshot = s.snapshot := rfl
@[simp] theorem State.push_recorder (v : Byte) : (s.push v).recorder = s.recorder.map fun r => r.notify (stackAddr s.sp) v s.cycles := rfl
@[simp] theorem State.push_cfg (v : Byte) : (s.push v).cfg = s.cfg := rfl

@[simp] theorem State.finish_a (d : Desc) (n : Nat) : (s.finish d n).a = s.a := rfl
@[simp] theorem State.finish_x (d : Desc) (n : Nat) : (s.finish d n).x = s.x := rfl
@[simp] theorem State.finish_y (d : Desc) (n : Nat) : (s.finish d n).y = s.y := rfl
@[simp] theorem State.finish_sp (d : Desc) (n : Nat) : (s.finish d n).sp = s.sp := rfl
@[simp] theorem State.finish_p (d : Desc) (n : Nat) : (s.finish d n).p = s.p := rfl
@[simp] theorem State.finish_pc (d : Desc) (n : Nat) : (s.finish d n).pc = s.pc + BitVec.ofNat 16 d.size := rfl
@[simp] theorem State.finish_cycles (d : Desc) (n : Nat) : (s.finish d n).cycles = s.cycles + (d.base + n) := rfl
@[simp] theorem State.finish_suspended (d : Desc) (n : Nat) : (s.finish d n).suspended = s.suspended := rfl
@[simp] theorem State.finish_cause (d : Desc) (n : Nat) : (s.finish d n).cause = s.cause := rfl
@[simp] theorem State.finish_mem (d : Desc) (n : Nat) : (s.finish d n).mem = s.mem := rfl
@[simp] theorem State.finish_snapshot (d : Desc) (n : Nat) : (s.finish d n).snapshot = s.snapshot := rfl
@[simp] theorem State.finish_recorder (d : Desc) (n : Nat) : (s.finish d n).recorder = s.recorder := rfl
@[simp] theorem State.finish_cfg (d : Desc) (n : Nat) : (s.finish d n).cfg = s.cfg := rfl

@[simp] theorem State.finish_read (d : Desc) (n : Nat) (i : Addr) : (s.finish d n).read i = s.read i := rfl

@[simp] theorem State.finishTransfer_a (d : Desc) (n : Nat) : (s.finishTransfer d n).a = s.a := rfl
@[simp] theorem State.finishTransfer_x (d : Desc) (n : Nat) : (s.finishTransfer d n).x = s.x := rfl
@[simp] theorem State.finishTransfer_y (d : Desc) (n : Nat) : (s.finishTransfer d n).y = s.y := rfl
@[simp] theorem State.finishTransfer_sp (d : Desc) (n : Nat) : (s.finishTransfer d n).sp = s.sp := rfl
@[simp] theorem State.finishTransfer_p (d : Desc) (n : Nat) : (s.finishTransfer d n).p = s.p := rfl
@[simp] theorem State.finishTransfer_pc (d : Desc) (n : Nat) : (s.finishTransfer d n).pc = s.pc := rfl
@[simp] theorem State.finishTransfer_cycles (d : Desc) (n : Nat) : (s.finishTransfer d n).cycles = s.cycles + (d.base + n) := rfl
@[simp] theorem State.finishTransfer_suspended (d : Desc) (n : Nat) : (s.finishTransfer d n).suspended = s.suspended := rfl
@[simp] theorem State.finishTransfer_cause (d : Desc) (n : Nat) : (s.finishTransfer d n).cause = s.cause := rfl
@[simp] theorem State.finishTransfer_mem (d : Desc) (n : Nat) : (s.finishTransfer d n).mem = s.mem := rfl
@[simp] theorem State.finishTransfer_snapshot (d : Desc) (n : Nat) : (s.finishTransfer d n).snapshot = s.snapshot := rfl
@[simp] theorem State.finishTransfer_recorder (d : Desc) (n : Nat) : (s.finishTransfer d n).recorder = s.recorder := rfl
@[simp] theorem State.finishTransfer_cfg (d : Desc) (n : Nat) : (s.finishTransfer d n).cfg = s.cfg := rfl

@[simp] theorem State.finishTransfer_read (d : Desc) (n : Nat) (i : Addr) : (s.finishTransfer d n).read i = s.read i := rfl

@[simp] theorem State.pull_fst : s.pull.1 = s.read (stackAddr (s.sp + 1)) := rfl
@[simp] theorem State.pull_snd : s.pull.2 = s.setSp (s.sp + 1) := rfl

end Sys2Proof.Machine
end

