-- ==== Sys2Proof/Laws/Memory.lean ====
section
/-!
SUPPORT. The laws of memory: a read after a write gives the value written, a write leaves every other address alone, and
every memory operation keeps the canonical form.
-/

namespace Sys2Proof.Machine

@[simp] theorem Memory.read_nil (a : Nat) : Memory.read [] a = Memory.unlisted := rfl

theorem Memory.read_setEntry_same (m : Memory) (a : Nat) (v : Byte) : (m.setEntry a v).read a = v := by
  induction m with
  | nil => simp [Memory.setEntry, Memory.read]
  | cons c m ih =>
    obtain ⟨k, w⟩ := c
    by_cases h1 : a < k
    · simp [Memory.setEntry, Memory.read, h1]
    by_cases h2 : k = a
    · simp [Memory.setEntry, Memory.read, h2]
    · simp [Memory.setEntry, Memory.read, h1, h2, ih]

theorem Memory.read_setEntry_other (m : Memory) {a b : Nat} (v : Byte) (h : a ≠ b) :
    (m.setEntry a v).read b = m.read b := by
  induction m with
  | nil => simp [Memory.setEntry, Memory.read, h]
  | cons c m ih =>
    obtain ⟨k, w⟩ := c
    by_cases h1 : a < k
    · simp [Memory.setEntry, Memory.read, h1, h]
    by_cases h2 : k = a
    · simp [Memory.setEntry, Memory.read, h2, h]
    · simp [Memory.setEntry, Memory.read, h1, h2, ih]

theorem Memory.read_dropEntry_same (m : Memory) (a : Nat) : (m.dropEntry a).read a = Memory.unlisted := by
  induction m with
  | nil => rfl
  | cons c m ih =>
    obtain ⟨k, w⟩ := c
    by_cases h : k = a
    · simpa [Memory.dropEntry, h] using ih
    · simpa [Memory.dropEntry, Memory.read, h] using ih

theorem Memory.read_dropEntry_other (m : Memory) {a b : Nat} (h : a ≠ b) : (m.dropEntry a).read b = m.read b := by
  induction m with
  | nil => rfl
  | cons c m ih =>
    obtain ⟨k, w⟩ := c
    by_cases hk : k = a
    · have hb : k ≠ b := fun e => h (hk ▸ e)
      simpa [Memory.dropEntry, Memory.read, hk, h] using ih
    · by_cases hb : k = b
      · subst hb; simp [Memory.dropEntry, Memory.read, hk]
      · simpa [Memory.dropEntry, Memory.read, hk, hb] using ih

/-- A read after a write to the same address gives the value written. -/
theorem Memory.read_write_same (m : Memory) (a : Nat) (v : Byte) : (m.write a v).read a = v := by
  by_cases h : v = Memory.unlisted
  · simp [Memory.write, h, Memory.read_dropEntry_same]
  · simp [Memory.write, h, Memory.read_setEntry_same]

/-- A write leaves every other address alone. -/
theorem Memory.read_write_other (m : Memory) {a b : Nat} (v : Byte) (h : a ≠ b) :
    (m.write a v).read b = m.read b := by
  by_cases hv : v = Memory.unlisted
  · simp [Memory.write, hv, Memory.read_dropEntry_other m h]
  · simp [Memory.write, hv, Memory.read_setEntry_other m v h]

/-- What one byte reads as after a write. -/
theorem State.read_write (s : State) (a b : Addr) (v : Byte) :
    (s.write a v).read b = if a = b then v else s.read b := by
  by_cases h : a = b
  · subst h; simp [State.read, Memory.read_write_same]
  · have : a.toNat ≠ b.toNat := fun e => h (BitVec.eq_of_toNat_eq e)
    simp [State.read, Memory.read_write_other _ _ this, h]

/-- What one byte reads as after a push. -/
theorem State.read_push (s : State) (b : Addr) (v : Byte) :
    (s.push v).read b = if stackAddr s.sp = b then v else s.read b := by
  simpa [State.push] using s.read_write (stackAddr s.sp) b v

/-! ### The canonical form -/

theorem Memory.wfFrom_nil (lo : Nat) : Memory.wfFrom lo [] = true := rfl

theorem Memory.wfFrom_cons (lo k : Nat) (v : Byte) (m : Memory) :
    Memory.wfFrom lo ((k, v) :: m) = true ↔
      lo ≤ k ∧ k < 0x10000 ∧ v ≠ Memory.unlisted ∧ Memory.wfFrom (k + 1) m = true := by
  simp [Memory.wfFrom, and_assoc]

theorem Memory.wfFrom_mono {lo lo' : Nat} {m : Memory} (h : Memory.wfFrom lo m = true) (hl : lo' ≤ lo) :
    Memory.wfFrom lo' m = true := by
  cases m with
  | nil => rfl
  | cons c m =>
    obtain ⟨k, v⟩ := c
    rw [Memory.wfFrom_cons] at h ⊢
    exact ⟨hl.trans h.1, h.2⟩

theorem Memory.wfFrom_setEntry {m : Memory} {lo a : Nat} {v : Byte} (h : Memory.wfFrom lo m = true) (hlo : lo ≤ a)
    (ha : a < 0x10000) (hv : v ≠ Memory.unlisted) : Memory.wfFrom lo (m.setEntry a v) = true := by
  induction m generalizing lo with
  | nil => rw [Memory.setEntry, Memory.wfFrom_cons]; exact ⟨hlo, ha, hv, rfl⟩
  | cons c m ih =>
    obtain ⟨k, w⟩ := c
    obtain ⟨h1, h2, h3, h4⟩ := (Memory.wfFrom_cons ..).1 h
    rw [Memory.setEntry]
    split
    · rename_i hk
      rw [Memory.wfFrom_cons, Memory.wfFrom_cons]
      exact ⟨hlo, ha, hv, hk, h2, h3, h4⟩
    · rename_i hk
      split
      · rename_i he
        subst he
        rw [Memory.wfFrom_cons]
        exact ⟨h1, h2, hv, h4⟩
      · rename_i he
        rw [Memory.wfFrom_cons]
        exact ⟨h1, h2, h3, ih h4 (by omega)⟩

theorem Memory.wfFrom_dropEntry {m : Memory} {lo : Nat} (a : Nat) (h : Memory.wfFrom lo m = true) :
    Memory.wfFrom lo (m.dropEntry a) = true := by
  induction m generalizing lo with
  | nil => rfl
  | cons c m ih =>
    obtain ⟨k, w⟩ := c
    obtain ⟨h1, h2, h3, h4⟩ := (Memory.wfFrom_cons ..).1 h
    by_cases hk : k = a
    · have : Memory.dropEntry ((k, w) :: m) a = Memory.dropEntry m a := by simp [Memory.dropEntry, hk]
      rw [this]
      exact Memory.wfFrom_mono (ih h4) (by omega)
    · have : Memory.dropEntry ((k, w) :: m) a = (k, w) :: Memory.dropEntry m a := by simp [Memory.dropEntry, hk]
      rw [this, Memory.wfFrom_cons]
      exact ⟨h1, h2, h3, ih h4⟩

/-- A write inside the address space keeps the canonical form. -/
theorem Memory.wf_write {m : Memory} {a : Nat} (v : Byte) (h : m.wf = true) (ha : a < 0x10000) :
    (m.write a v).wf = true := by
  by_cases hv : v = Memory.unlisted
  · simpa [Memory.write, hv, Memory.wf] using Memory.wfFrom_dropEntry a h
  · simpa [Memory.write, hv, Memory.wf] using Memory.wfFrom_setEntry h (Nat.zero_le a) ha hv

/-- A run of writes keeps the canonical form. -/
theorem Memory.wf_writeAll (b : List Byte) : ∀ {m : Memory} (a : Addr), m.wf = true → (m.writeAll a b).wf = true := by
  induction b with
  | nil => intro m a h; exact h
  | cons v b ih => intro m a h; exact ih (a + 1) (Memory.wf_write v h a.isLt)

/-- A CPU write keeps the canonical form. -/
theorem State.wf_write (s : State) (a : Addr) (v : Byte) (h : s.mem.wf = true) : (s.write a v).mem.wf = true :=
  Memory.wf_write v h a.isLt

/-- A push keeps the canonical form. -/
theorem State.wf_push (s : State) (v : Byte) (h : s.mem.wf = true) : (s.push v).mem.wf = true :=
  s.wf_write _ v h

theorem State.reset_wf : State.reset.mem.wf = true := rfl

end Sys2Proof.Machine
end

