-- ==== Sys2Proof/Laws/Ops.lean ====
section
/-!
SUPPORT. One lemma per shared operation that says once everything it can do: the row lookup and the operand classes,
writes and pushes as exact stores, the suspend entry and the return.
-/

namespace Sys2Proof.Machine

open Sys2Proof.Safety

/-! ### The row lookup and the operand classes -/

/-- On a row of the opcode table the meaning is what its descriptor makes of the state. -/
theorem withRow_of_desc {i : Instr} {d : Desc} (k : Desc → State) (h : i.desc? = some d) :
    withRow i k = .next (k d) := by simp [withRow, h]

/-- A meaning answers a next state exactly on a row of the opcode table. -/
theorem withRow_next {i : Instr} {k : Desc → State} {t : State} :
    withRow i k = .next t ↔ ∃ d, i.desc? = some d ∧ k d = t := by
  cases h : i.desc? <;> simp [withRow, h]

theorem readClass_next {i : Instr} {src : Src} {s t : State} {k : Byte → State} :
    readClass i src s k = .next t ↔
      ∃ d, i.desc? = some d ∧ (k (srcValue src s)).finish d (crossExtra d (srcCrossed src s)) = t := withRow_next

theorem writeClass_next {i : Instr} {m : MemOp} {v : Byte} {s t : State} :
    writeClass i m v s = .next t ↔
      ∃ d, i.desc? = some d ∧
        (s.write (resolve m s).ea v).finish d (crossExtra d (resolve m s).crossed) = t := withRow_next

theorem modifyMemClass_next {i : Instr} {m : MemOp} {s t : State} {f : Byte → Byte → Byte × Byte} :
    modifyMemClass i m s f = .next t ↔
      ∃ d, i.desc? = some d ∧ (modifyMem m s f).finish d (crossExtra d (resolve m s).crossed) = t := withRow_next

theorem impliedClass_next {i : Instr} {u t : State} :
    impliedClass i u = .next t ↔ ∃ d, i.desc? = some d ∧ u.finish d 0 = t := withRow_next

theorem transferClass_next {i : Instr} {u t : State} :
    transferClass i u = .next t ↔ ∃ d, i.desc? = some d ∧ u.finishTransfer d 0 = t := withRow_next

/-- A branch goes to its target or to the next instruction, and changes nothing but PC and the cycles. -/
theorem branchClass_next {i : Instr} {taken : Bool} {offset : Byte} {s t : State}
    (h : branchClass i taken offset s = .next t) :
    ∃ d, i.desc? = some d ∧ t = { s with pc := t.pc, cycles := t.cycles } ∧
      ((taken = false ∧ t.pc = s.pc + BitVec.ofNat 16 d.size ∧ t.cycles = s.cycles + d.base) ∨
        (taken = true ∧ t.pc = branchTarget (s.pc + BitVec.ofNat 16 d.size) offset ∧
          s.cycles + d.base + 1 ≤ t.cycles ∧ t.cycles ≤ s.cycles + d.base + 2)) := by
  obtain ⟨d, hd, rfl⟩ := withRow_next.1 h
  refine ⟨d, hd, ?_⟩
  cases taken
  · exact ⟨rfl, .inl ⟨rfl, rfl, rfl⟩⟩
  · refine ⟨rfl, .inr ⟨rfl, rfl, ?_⟩⟩
    have := Bool.toNat_le (hiByte (s.pc + BitVec.ofNat 16 d.size) !=
      hiByte (branchTarget (s.pc + BitVec.ofNat 16 d.size) offset))
    simp
    omega

/-! ### Stores -/

/-- No write at all. -/
theorem storesExactly_nil {s t : State} (hm : t.mem = s.mem) (hr : t.recorder = s.recorder) :
    StoresExactly s t [] where
  stored a := by simp [State.read, hm, lastWritten]
  elsewhere a _ := by simp [State.read, hm]
  logged r h := by simp [hr, h, captured]
  unbound h := by rw [hr, h]

/-- What a recorder makes of one write. -/
theorem notify_eq (r : Recorder) (a : Addr) (v : Byte) (n : Nat) :
    r.notify a v n = { r with log := r.log ++ captured r [(a, v)] n } := by
  by_cases h : r.rangeBegin ≤ a ∧ a ≤ r.rangeEnd <;> simp [Recorder.notify, captured, h]

/-- The last write of a run of writes decides. -/
theorem lastWritten_append (ws : List (Addr × Byte)) (b : Addr) (v : Byte) (a : Addr) (old : Byte) :
    lastWritten (ws ++ [(b, v)]) a old = if b = a then v else lastWritten ws a old := by
  induction ws generalizing old with
  | nil => simp [lastWritten]
  | cons w ws ih => simp [lastWritten, ih]

/-- One more write after a run of writes, made at the same cycle. -/
theorem storesExactly_write {s u : State} {ws : List (Addr × Byte)} (h : StoresExactly s u ws)
    (hc : u.cycles = s.cycles) (a : Addr) (v : Byte) : StoresExactly s (u.write a v) (ws ++ [(a, v)]) where
  stored b := by rw [State.read_write, lastWritten_append, h.stored]
  elsewhere b hb := by
    rw [State.read_write, if_neg (hb (a, v) (by simp)), h.elsewhere b fun w hw => hb w (by simp [hw])]
  logged r hr := by simp [h.logged r hr, notify_eq, captured, hc]
  unbound hr := by simp [h.unbound hr]

/-- What follows that touches neither memory nor the recorder leaves the stores as they are. -/
theorem storesExactly_frame {s u t : State} {ws : List (Addr × Byte)} (h : StoresExactly s u ws)
    (hm : t.mem = u.mem) (hr : t.recorder = u.recorder) : StoresExactly s t ws where
  stored a := by rw [← h.stored a]; simp [State.read, hm]
  elsewhere a ha := by rw [← h.elsewhere a ha]; simp [State.read, hm]
  logged r h' := by rw [hr, h.logged r h']
  unbound h' := by rw [hr, h.unbound h']

/-- A CPU write. -/
theorem write_stores (s : State) (a : Addr) (v : Byte) : StoresExactly s (s.write a v) [(a, v)] :=
  storesExactly_write (storesExactly_nil rfl rfl) rfl a v

/-- A push (R61). -/
theorem push_stores (s : State) (v : Byte) : StoresExactly s (s.push v) [(stackAddr s.sp, v)] :=
  storesExactly_frame (write_stores s _ v) rfl rfl

/-- A push after a run of writes at the same cycle. -/
theorem storesExactly_push {s u : State} {ws : List (Addr × Byte)} (h : StoresExactly s u ws)
    (hc : u.cycles = s.cycles) (v : Byte) : StoresExactly s (u.push v) (ws ++ [(stackAddr u.sp, v)]) :=
  storesExactly_frame (storesExactly_write h hc _ v) rfl rfl

/-- Pushing a word (R58): high byte first. -/
theorem pushWord_stores (s : State) (w : Addr) :
    StoresExactly s (s.pushWord w) [(stackAddr s.sp, hiByte w), (stackAddr (s.sp - 1), loByte w)] :=
  storesExactly_push (push_stores s (hiByte w)) rfl (loByte w)

/-- Pulling a word (R58): low byte first, nothing but SP changed. -/
theorem pullWord_eq (s : State) :
    s.pullWord =
      (word (s.read (stackAddr (s.sp + 1 + 1))) (s.read (stackAddr (s.sp + 1))), s.setSp (s.sp + 1 + 1)) := rfl

/-- Everything the suspend entry does (R233, R240): its three stores, and the registers it leaves. -/
theorem suspendEntry_spec (s : State) (c : SuspendCause) :
    StoresExactly s (s.suspendEntry c)
      [(stackAddr s.sp, hiByte (s.pc + 2)), (stackAddr (s.sp - 1), loByte (s.pc + 2)),
        (stackAddr (s.sp - 1 - 1), pushedStatus s.p)] ∧
    s.suspendEntry c =
      { s with
        sp := s.sp - 1 - 1 - 1, p := putFlag s.p .i true, pc := (s.suspendEntry c).pc, suspended := true
        cause := some c, mem := (s.suspendEntry c).mem, recorder := (s.suspendEntry c).recorder } ∧
    (s.cfg.brkPcMode = .literal → (s.suspendEntry c).pc = brkVector) ∧
    (s.cfg.brkPcMode = .vector →
      (s.suspendEntry c).pc =
        word ((s.suspendEntry c).read (brkVector + 1)) ((s.suspendEntry c).read brkVector)) := by
  refine ⟨storesExactly_frame (storesExactly_push (pushWord_stores s (s.pc + 2)) rfl (pushedStatus s.p)) rfl rfl,
    ?_, fun h => ?_, fun h => ?_⟩
  · apply State.ext <;> simp [State.suspendEntry, State.pushWord]
  · simp [State.suspendEntry, State.brkTarget, State.pushWord, h]
  · simp [State.suspendEntry, State.brkTarget, State.pushWord, h]

/-- Everything RTI does (R218). -/
theorem returnFromInterrupt_eq (s : State) :
    s.returnFromInterrupt =
      { s with
        p := s.read (stackAddr (s.sp + 1)), sp := s.sp + 1 + 1 + 1
        pc := word (s.read (stackAddr (s.sp + 1 + 1 + 1))) (s.read (stackAddr (s.sp + 1 + 1))) } := rfl

end Sys2Proof.Machine
end

