-- ==== Sys2Proof/Laws/Exec.lean ====
section
/-!
SUPPORT. Each instruction's meaning in terms of its operand class, so that no proof unfolds `exec`.
-/

namespace Sys2Proof.Machine

@[simp] theorem exec_lda (src : Src) (s : State) : exec (.lda src) s =
    readClass (.lda src) src s fun m => (s.setA m).setNZ m := rfl

@[simp] theorem exec_ldx (src : Src) (s : State) : exec (.ldx src) s =
    readClass (.ldx src) src s fun m => (s.setX m).setNZ m := rfl

@[simp] theorem exec_ldy (src : Src) (s : State) : exec (.ldy src) s =
    readClass (.ldy src) src s fun m => (s.setY m).setNZ m := rfl

@[simp] theorem exec_sta (dst : MemOp) (s : State) : exec (.sta dst) s =
    writeClass (.sta dst) dst s.a s := rfl

@[simp] theorem exec_stx (dst : MemOp) (s : State) : exec (.stx dst) s =
    writeClass (.stx dst) dst s.x s := rfl

@[simp] theorem exec_sty (dst : MemOp) (s : State) : exec (.sty dst) s =
    writeClass (.sty dst) dst s.y s := rfl

@[simp] theorem exec_tax (s : State) : exec .tax s =
    impliedClass .tax ((s.setX s.a).setNZ s.a) := rfl

@[simp] theorem exec_tay (s : State) : exec .tay s =
    impliedClass .tay ((s.setY s.a).setNZ s.a) := rfl

@[simp] theorem exec_txa (s : State) : exec .txa s =
    impliedClass .txa ((s.setA s.x).setNZ s.x) := rfl

@[simp] theorem exec_tya (s : State) : exec .tya s =
    impliedClass .tya ((s.setA s.y).setNZ s.y) := rfl

@[simp] theorem exec_tsx (s : State) : exec .tsx s =
    impliedClass .tsx ((s.setX s.sp).setNZ s.sp) := rfl

@[simp] theorem exec_txs (s : State) : exec .txs s =
    impliedClass .txs (s.setSp s.x) := rfl

@[simp] theorem exec_pha (s : State) : exec .pha s =
    impliedClass .pha (s.push s.a) := rfl

@[simp] theorem exec_php (s : State) : exec .php s =
    impliedClass .php (s.push (pushedStatus s.p)) := rfl

@[simp] theorem exec_pla (s : State) : exec .pla s =
    impliedClass .pla ((s.pull.2.setA s.pull.1).setNZ s.pull.1) := rfl

@[simp] theorem exec_plp (s : State) : exec .plp s =
    impliedClass .plp (s.pull.2.setP s.pull.1) := rfl

@[simp] theorem exec_adc (src : Src) (s : State) : exec (.adc src) s =
    readClass (.adc src) src s fun m =>
      let r := adcResult s.cfg.decimalMode s.a m s.p
      (s.setA r.1).setP r.2 := rfl

@[simp] theorem exec_sbc (src : Src) (s : State) : exec (.sbc src) s =
    readClass (.sbc src) src s fun m =>
      let r := sbcResult s.cfg.decimalMode s.a m s.p
      (s.setA r.1).setP r.2 := rfl

@[simp] theorem exec_and (src : Src) (s : State) : exec (.and src) s =
    readClass (.and src) src s fun m => (s.setA (s.a &&& m)).setNZ (s.a &&& m) := rfl

@[simp] theorem exec_ora (src : Src) (s : State) : exec (.ora src) s =
    readClass (.ora src) src s fun m => (s.setA (s.a ||| m)).setNZ (s.a ||| m) := rfl

@[simp] theorem exec_eor (src : Src) (s : State) : exec (.eor src) s =
    readClass (.eor src) src s fun m => (s.setA (s.a ^^^ m)).setNZ (s.a ^^^ m) := rfl

@[simp] theorem exec_bit (src : MemOp) (s : State) : exec (.bit src) s =
    readClass (.bit src) (.mem src) s fun m => s.setP (bitFlags s.a m s.p) := rfl

@[simp] theorem exec_cmp (src : Src) (s : State) : exec (.cmp src) s =
    readClass (.cmp src) src s fun m => s.setP (compareFlags s.a m s.p) := rfl

@[simp] theorem exec_cpx (src : Src) (s : State) : exec (.cpx src) s =
    readClass (.cpx src) src s fun m => s.setP (compareFlags s.x m s.p) := rfl

@[simp] theorem exec_cpy (src : Src) (s : State) : exec (.cpy src) s =
    readClass (.cpy src) src s fun m => s.setP (compareFlags s.y m s.p) := rfl

@[simp] theorem exec_inc (dst : MemOp) (s : State) : exec (.inc dst) s =
    modifyMemClass (.inc dst) dst s incResult := rfl

@[simp] theorem exec_dec (dst : MemOp) (s : State) : exec (.dec dst) s =
    modifyMemClass (.dec dst) dst s decResult := rfl

@[simp] theorem exec_inx (s : State) : exec .inx s =
    impliedClass .inx ((s.setX (s.x + 1)).setNZ (s.x + 1)) := rfl

@[simp] theorem exec_iny (s : State) : exec .iny s =
    impliedClass .iny ((s.setY (s.y + 1)).setNZ (s.y + 1)) := rfl

@[simp] theorem exec_dex (s : State) : exec .dex s =
    impliedClass .dex ((s.setX (s.x - 1)).setNZ (s.x - 1)) := rfl

@[simp] theorem exec_dey (s : State) : exec .dey s =
    impliedClass .dey ((s.setY (s.y - 1)).setNZ (s.y - 1)) := rfl

@[simp] theorem exec_asl (place : Place) (s : State) : exec (.asl place) s =
    shiftClass (.asl place) place s aslResult := rfl

@[simp] theorem exec_lsr (place : Place) (s : State) : exec (.lsr place) s =
    shiftClass (.lsr place) place s lsrResult := rfl

@[simp] theorem exec_rol (place : Place) (s : State) : exec (.rol place) s =
    shiftClass (.rol place) place s rolResult := rfl

@[simp] theorem exec_ror (place : Place) (s : State) : exec (.ror place) s =
    shiftClass (.ror place) place s rorResult := rfl

@[simp] theorem exec_bcc (offset : Byte) (s : State) : exec (.bcc offset) s =
    branchClass (.bcc offset) (!getFlag s.p .c) offset s := rfl

@[simp] theorem exec_bcs (offset : Byte) (s : State) : exec (.bcs offset) s =
    branchClass (.bcs offset) (getFlag s.p .c) offset s := rfl

@[simp] theorem exec_beq (offset : Byte) (s : State) : exec (.beq offset) s =
    branchClass (.beq offset) (getFlag s.p .z) offset s := rfl

@[simp] theorem exec_bmi (offset : Byte) (s : State) : exec (.bmi offset) s =
    branchClass (.bmi offset) (getFlag s.p .n) offset s := rfl

@[simp] theorem exec_bne (offset : Byte) (s : State) : exec (.bne offset) s =
    branchClass (.bne offset) (!getFlag s.p .z) offset s := rfl

@[simp] theorem exec_bpl (offset : Byte) (s : State) : exec (.bpl offset) s =
    branchClass (.bpl offset) (!getFlag s.p .n) offset s := rfl

@[simp] theorem exec_bvc (offset : Byte) (s : State) : exec (.bvc offset) s =
    branchClass (.bvc offset) (!getFlag s.p .v) offset s := rfl

@[simp] theorem exec_bvs (offset : Byte) (s : State) : exec (.bvs offset) s =
    branchClass (.bvs offset) (getFlag s.p .v) offset s := rfl

@[simp] theorem exec_jmp (target : Target) (s : State) : exec (.jmp target) s =
    transferClass (.jmp target) (s.setPc (jumpTarget target s)) := rfl

@[simp] theorem exec_jsr (target : Addr) (s : State) : exec (.jsr target) s =
    transferClass (.jsr target) ((s.pushWord (s.pc + 2)).setPc target) := rfl

@[simp] theorem exec_rts (s : State) : exec .rts s =
    transferClass .rts (if rtsFindsEmptyStack s then s.suspend .rtsEmptyStack else returnFromSubroutine s) := rfl

@[simp] theorem exec_rti (s : State) : exec .rti s =
    transferClass .rti s.returnFromInterrupt := rfl

@[simp] theorem exec_clc (s : State) : exec .clc s =
    impliedClass .clc (s.setP (putFlag s.p .c false)) := rfl

@[simp] theorem exec_cld (s : State) : exec .cld s =
    impliedClass .cld (s.setP (putFlag s.p .d false)) := rfl

@[simp] theorem exec_cli (s : State) : exec .cli s =
    impliedClass .cli (s.setP (putFlag s.p .i false)) := rfl

@[simp] theorem exec_clv (s : State) : exec .clv s =
    impliedClass .clv (s.setP (putFlag s.p .v false)) := rfl

@[simp] theorem exec_sec (s : State) : exec .sec s =
    impliedClass .sec (s.setP (putFlag s.p .c true)) := rfl

@[simp] theorem exec_sed (s : State) : exec .sed s =
    impliedClass .sed (s.setP (putFlag s.p .d true)) := rfl

@[simp] theorem exec_sei (s : State) : exec .sei s =
    impliedClass .sei (s.setP (putFlag s.p .i true)) := rfl

@[simp] theorem exec_nop (s : State) : exec .nop s =
    impliedClass .nop s := rfl

@[simp] theorem exec_brk (s : State) : exec .brk s =
    transferClass .brk (s.suspendEntry .brk) := rfl

@[simp] theorem exec_ill (opcode : Byte) (s : State) : exec (.ill opcode) s =
    transferClass (.ill opcode) (s.suspendEntry .illegalOpcode) := rfl

end Sys2Proof.Machine
end

