-- ==== Sys2Proof/Laws/PerInstr.lean ====
section
/-!
SUPPORT. The family Described: the opcode the encoder gives an instruction has, in the decoder's descriptor table, the
instruction's own mnemonic and addressing mode (R84, R86). One lemma per instruction.
-/

namespace Sys2Proof.Laws.Described

/-- The descriptor of the instruction's opcode names the instruction's mnemonic and mode. -/
def Statement (i : Instr) : Prop :=
  ∀ op, i.opcode? = some op → (desc op).mnemonic = i.mnemonic ∧ (desc op).mode = i.mode

theorem lda (x : Src) : Statement (.lda x) := by
  rintro op h
  cases x with
  | imm v => cases h; exact ⟨rfl, rfl⟩
  | mem m => cases m <;> cases h <;> exact ⟨rfl, rfl⟩

theorem ldx (x : Src) : Statement (.ldx x) := by
  rintro op h
  cases x with
  | imm v => cases h; exact ⟨rfl, rfl⟩
  | mem m => cases m <;> cases h <;> exact ⟨rfl, rfl⟩

theorem ldy (x : Src) : Statement (.ldy x) := by
  rintro op h
  cases x with
  | imm v => cases h; exact ⟨rfl, rfl⟩
  | mem m => cases m <;> cases h <;> exact ⟨rfl, rfl⟩

theorem sta (m : MemOp) : Statement (.sta m) := by
  rintro op h
  cases m <;> cases h <;> exact ⟨rfl, rfl⟩

theorem stx (m : MemOp) : Statement (.stx m) := by
  rintro op h
  cases m <;> cases h <;> exact ⟨rfl, rfl⟩

theorem sty (m : MemOp) : Statement (.sty m) := by
  rintro op h
  cases m <;> cases h <;> exact ⟨rfl, rfl⟩

theorem tax : Statement .tax := by rintro op ⟨⟩; exact ⟨rfl, rfl⟩

theorem tay : Statement .tay := by rintro op ⟨⟩; exact ⟨rfl, rfl⟩

theorem txa : Statement .txa := by rintro op ⟨⟩; exact ⟨rfl, rfl⟩

theorem tya : Statement .tya := by rintro op ⟨⟩; exact ⟨rfl, rfl⟩

theorem tsx : Statement .tsx := by rintro op ⟨⟩; exact ⟨rfl, rfl⟩

theorem txs : Statement .txs := by rintro op ⟨⟩; exact ⟨rfl, rfl⟩

theorem pha : Statement .pha := by rintro op ⟨⟩; exact ⟨rfl, rfl⟩

theorem php : Statement .php := by rintro op ⟨⟩; exact ⟨rfl, rfl⟩

theorem pla : Statement .pla := by rintro op ⟨⟩; exact ⟨rfl, rfl⟩

theorem plp : Statement .plp := by rintro op ⟨⟩; exact ⟨rfl, rfl⟩

theorem adc (x : Src) : Statement (.adc x) := by
  rintro op h
  cases x with
  | imm v => cases h; exact ⟨rfl, rfl⟩
  | mem m => cases m <;> cases h <;> exact ⟨rfl, rfl⟩

theorem sbc (x : Src) : Statement (.sbc x) := by
  rintro op h
  cases x with
  | imm v => cases h; exact ⟨rfl, rfl⟩
  | mem m => cases m <;> cases h <;> exact ⟨rfl, rfl⟩

theorem and (x : Src) : Statement (.and x) := by
  rintro op h
  cases x with
  | imm v => cases h; exact ⟨rfl, rfl⟩
  | mem m => cases m <;> cases h <;> exact ⟨rfl, rfl⟩

theorem ora (x : Src) : Statement (.ora x) := by
  rintro op h
  cases x with
  | imm v => cases h; exact ⟨rfl, rfl⟩
  | mem m => cases m <;> cases h <;> exact ⟨rfl, rfl⟩

theorem eor (x : Src) : Statement (.eor x) := by
  rintro op h
  cases x with
  | imm v => cases h; exact ⟨rfl, rfl⟩
  | mem m => cases m <;> cases h <;> exact ⟨rfl, rfl⟩

theorem bit (m : MemOp) : Statement (.bit m) := by
  rintro op h
  cases m <;> cases h <;> exact ⟨rfl, rfl⟩

theorem cmp (x : Src) : Statement (.cmp x) := by
  rintro op h
  cases x with
  | imm v => cases h; exact ⟨rfl, rfl⟩
  | mem m => cases m <;> cases h <;> exact ⟨rfl, rfl⟩

theorem cpx (x : Src) : Statement (.cpx x) := by
  rintro op h
  cases x with
  | imm v => cases h; exact ⟨rfl, rfl⟩
  | mem m => cases m <;> cases h <;> exact ⟨rfl, rfl⟩

theorem cpy (x : Src) : Statement (.cpy x) := by
  rintro op h
  cases x with
  | imm v => cases h; exact ⟨rfl, rfl⟩
  | mem m => cases m <;> cases h <;> exact ⟨rfl, rfl⟩

theorem inc (m : MemOp) : Statement (.inc m) := by
  rintro op h
  cases m <;> cases h <;> exact ⟨rfl, rfl⟩

theorem dec (m : MemOp) : Statement (.dec m) := by
  rintro op h
  cases m <;> cases h <;> exact ⟨rfl, rfl⟩

theorem inx : Statement .inx := by rintro op ⟨⟩; exact ⟨rfl, rfl⟩

theorem iny : Statement .iny := by rintro op ⟨⟩; exact ⟨rfl, rfl⟩

theorem dex : Statement .dex := by rintro op ⟨⟩; exact ⟨rfl, rfl⟩

theorem dey : Statement .dey := by rintro op ⟨⟩; exact ⟨rfl, rfl⟩

theorem asl (x : Place) : Statement (.asl x) := by
  rintro op h
  cases x with
  | acc => cases h; exact ⟨rfl, rfl⟩
  | mem m => cases m <;> cases h <;> exact ⟨rfl, rfl⟩

theorem lsr (x : Place) : Statement (.lsr x) := by
  rintro op h
  cases x with
  | acc => cases h; exact ⟨rfl, rfl⟩
  | mem m => cases m <;> cases h <;> exact ⟨rfl, rfl⟩

theorem rol (x : Place) : Statement (.rol x) := by
  rintro op h
  cases x with
  | acc => cases h; exact ⟨rfl, rfl⟩
  | mem m => cases m <;> cases h <;> exact ⟨rfl, rfl⟩

theorem ror (x : Place) : Statement (.ror x) := by
  rintro op h
  cases x with
  | acc => cases h; exact ⟨rfl, rfl⟩
  | mem m => cases m <;> cases h <;> exact ⟨rfl, rfl⟩

theorem bcc (d : Byte) : Statement (.bcc d) := by rintro op ⟨⟩; exact ⟨rfl, rfl⟩

theorem bcs (d : Byte) : Statement (.bcs d) := by rintro op ⟨⟩; exact ⟨rfl, rfl⟩

theorem beq (d : Byte) : Statement (.beq d) := by rintro op ⟨⟩; exact ⟨rfl, rfl⟩

theorem bmi (d : Byte) : Statement (.bmi d) := by rintro op ⟨⟩; exact ⟨rfl, rfl⟩

theorem bne (d : Byte) : Statement (.bne d) := by rintro op ⟨⟩; exact ⟨rfl, rfl⟩

theorem bpl (d : Byte) : Statement (.bpl d) := by rintro op ⟨⟩; exact ⟨rfl, rfl⟩

theorem bvc (d : Byte) : Statement (.bvc d) := by rintro op ⟨⟩; exact ⟨rfl, rfl⟩

theorem bvs (d : Byte) : Statement (.bvs d) := by rintro op ⟨⟩; exact ⟨rfl, rfl⟩

theorem jmp (x : Target) : Statement (.jmp x) := by
  rintro op h
  cases x <;> cases h <;> exact ⟨rfl, rfl⟩

theorem jsr (a : Addr) : Statement (.jsr a) := by rintro op ⟨⟩; exact ⟨rfl, rfl⟩

theorem rts : Statement .rts := by rintro op ⟨⟩; exact ⟨rfl, rfl⟩

theorem rti : Statement .rti := by rintro op ⟨⟩; exact ⟨rfl, rfl⟩

theorem clc : Statement .clc := by rintro op ⟨⟩; exact ⟨rfl, rfl⟩

theorem cld : Statement .cld := by rintro op ⟨⟩; exact ⟨rfl, rfl⟩

theorem cli : Statement .cli := by rintro op ⟨⟩; exact ⟨rfl, rfl⟩

theorem clv : Statement .clv := by rintro op ⟨⟩; exact ⟨rfl, rfl⟩

theorem sec : Statement .sec := by rintro op ⟨⟩; exact ⟨rfl, rfl⟩

theorem sed : Statement .sed := by rintro op ⟨⟩; exact ⟨rfl, rfl⟩

theorem sei : Statement .sei := by rintro op ⟨⟩; exact ⟨rfl, rfl⟩

theorem nop : Statement .nop := by rintro op ⟨⟩; exact ⟨rfl, rfl⟩

theorem brk : Statement .brk := by rintro op ⟨⟩; exact ⟨rfl, rfl⟩

theorem ill (op : Byte) : Statement (.ill op) := by
  intro op' h
  simp only [Instr.opcode?] at h
  split at h
  · cases h
    rw [desc_of_illegal _ (List.contains_iff_mem.1 ‹_›)]
    exact ⟨rfl, rfl⟩
  · cases h

end Sys2Proof.Laws.Described
end

