-- ==== Sys2Proof/Laws/Step.lean ====
section
/-!
SUPPORT. What a step does, said once: a row of the opcode table runs, with its stores, its cycles, its suspension and
what it leaves alone (`Effect`); and what is fetched is a row.
-/

namespace Sys2Proof.Machine

open Sys2Proof.Safety

/-- Suspended with the cause, or left as it was. -/
def Suspends (s t : State) : Option SuspendCause → Prop
  | none => t.suspended = s.suspended ∧ t.cause = s.cause
  | some c => t.suspended = true ∧ t.cause = some c

/-- The cause an instruction suspends with at a state, if it suspends (R250). -/
def causeOf (i : Instr) (s : State) : Option SuspendCause :=
  match i with
  | .brk => some .brk
  | .ill _ => some .illegalOpcode
  | .rts => if rtsFindsEmptyStack s then some .rtsEmptyStack else none
  | _ => none

/-- What the body of any instruction does, before PC and the cycles. -/
structure Body (s u : State) (c : Option SuspendCause) : Prop where
  stores : ∃ ws, ws.length ≤ 3 ∧ StoresExactly s u ws
  memory : s.mem.wf = true → u.mem.wf = true
  cfg : u.cfg = s.cfg
  snapshot : u.snapshot = s.snapshot
  cycles : u.cycles = s.cycles
  suspends : Suspends s u c

/-- What any instruction with descriptor `d` does. -/
structure Effect (s t : State) (d : Desc) (c : Option SuspendCause) : Prop where
  stores : ∃ ws, ws.length ≤ 3 ∧ StoresExactly s t ws
  memory : s.mem.wf = true → t.mem.wf = true
  cfg : t.cfg = s.cfg
  snapshot : t.snapshot = s.snapshot
  atLeast : s.cycles + d.base ≤ t.cycles
  atMost : t.cycles ≤ s.cycles + d.base + max d.pageCrossExtra (if d.mode = .rel then 2 else 0)
  suspends : Suspends s t c

/-! ### Bodies -/

theorem Body.quiet {s u : State} (hm : u.mem = s.mem) (hr : u.recorder = s.recorder) (hc : u.cfg = s.cfg)
    (hs : u.snapshot = s.snapshot) (hy : u.cycles = s.cycles) (hu : u.suspended = s.suspended)
    (hv : u.cause = s.cause) : Body s u none :=
  ⟨⟨[], by simp, storesExactly_nil hm hr⟩, fun h => hm ▸ h, hc, hs, hy, hu, hv⟩

theorem Body.suspend (s : State) (c : SuspendCause) : Body s (s.suspend c) (some c) :=
  ⟨⟨[], by simp, storesExactly_nil rfl rfl⟩, id, rfl, rfl, rfl, rfl, rfl⟩

theorem Body.write (s : State) (a : Addr) (v : Byte) : Body s (s.write a v) none :=
  ⟨⟨_, by simp, write_stores s a v⟩, s.wf_write a v, rfl, rfl, rfl, rfl, rfl⟩

theorem Body.push (s : State) (v : Byte) : Body s (s.push v) none :=
  ⟨⟨_, by simp, push_stores s v⟩, s.wf_push v, rfl, rfl, rfl, rfl, rfl⟩

theorem State.wf_pushWord (s : State) (w : Addr) (h : s.mem.wf = true) : (s.pushWord w).mem.wf = true :=
  State.wf_push _ _ (s.wf_push _ h)

theorem Body.pushWord (s : State) (w : Addr) : Body s (s.pushWord w) none :=
  ⟨⟨_, by simp, pushWord_stores s w⟩, s.wf_pushWord w, rfl, rfl, rfl, rfl, rfl⟩

/-- What sets registers after a body belongs to it. -/
theorem Body.then {s u v : State} {c : Option SuspendCause} (h : Body s u c) (hm : v.mem = u.mem)
    (hr : v.recorder = u.recorder) (hc : v.cfg = u.cfg) (hs : v.snapshot = u.snapshot) (hy : v.cycles = u.cycles)
    (hu : v.suspended = u.suspended) (hv : v.cause = u.cause) : Body s v c := by
  obtain ⟨⟨ws, hl, hw⟩, h2, h3, h4, h5, h6⟩ := h
  refine ⟨⟨ws, hl, storesExactly_frame hw hm hr⟩, fun h => hm ▸ h2 h, hc.trans h3, hs.trans h4, hy.trans h5, ?_⟩
  cases c <;> exact ⟨hu.trans h6.1, hv.trans h6.2⟩

theorem State.wf_suspendEntry (s : State) (c : SuspendCause) (h : s.mem.wf = true) :
    (s.suspendEntry c).mem.wf = true := by
  have e : (s.suspendEntry c).mem = ((s.pushWord (s.pc + 2)).push (pushedStatus s.p)).mem := rfl
  rw [e]
  exact State.wf_push _ _ (s.wf_pushWord _ h)

theorem Body.suspendEntry (s : State) (c : SuspendCause) : Body s (s.suspendEntry c) (some c) := by
  obtain ⟨h1, h2, -⟩ := suspendEntry_spec s c
  refine ⟨⟨_, by simp, h1⟩, s.wf_suspendEntry c, ?_, ?_, ?_, ?_, ?_⟩ <;> rw [h2]

theorem Body.finish {s u : State} {c : Option SuspendCause} (h : Body s u c) (d : Desc) {n : Nat}
    (hn : n ≤ d.pageCrossExtra) : Effect s (u.finish d n) d c := by
  obtain ⟨⟨ws, hl, hw⟩, h2, h3, h4, h5, h6⟩ := h
  refine ⟨⟨ws, hl, storesExactly_frame hw rfl rfl⟩, h2, h3, h4, ?_, ?_, by cases c <;> exact h6⟩
  · simp [h5]
  · simp [h5]; omega

theorem Body.finishTransfer {s u : State} {c : Option SuspendCause} (h : Body s u c) (d : Desc) :
    Effect s (u.finishTransfer d 0) d c := by
  obtain ⟨⟨ws, hl, hw⟩, h2, h3, h4, h5, h6⟩ := h
  refine ⟨⟨ws, hl, storesExactly_frame hw rfl rfl⟩, h2, h3, h4, ?_, ?_, by cases c <;> exact h6⟩ <;> simp [h5]

theorem crossExtra_le (d : Desc) (b : Bool) : crossExtra d b ≤ d.pageCrossExtra := by
  cases b <;> simp [crossExtra]

/-! ### The operand classes -/

variable {i : Instr} {s t : State}

theorem effect_branch {taken : Bool} {offset : Byte} (h : branchClass i taken offset s = .next t)
    (hi : ∀ d, i.desc? = some d → d.mode = .rel) : ∃ d, i.desc? = some d ∧ Effect s t d none := by
  obtain ⟨d, hd, ht, hc⟩ := branchClass_next h
  refine ⟨d, hd, ?_⟩
  rw [ht]
  refine ⟨⟨[], by simp, storesExactly_nil rfl rfl⟩, id, rfl, rfl, ?_, ?_, rfl, rfl⟩ <;> simp [hi d hd] <;> omega

theorem effect_read {src : Src} {k : Byte → State} (h : readClass i src s k = .next t) (hk : ∀ m, Body s (k m) none) :
    ∃ d, i.desc? = some d ∧ Effect s t d none := by
  obtain ⟨d, hd, rfl⟩ := readClass_next.1 h
  exact ⟨d, hd, (hk _).finish d (crossExtra_le _ _)⟩

theorem effect_write {m : MemOp} {v : Byte} (h : writeClass i m v s = .next t) :
    ∃ d, i.desc? = some d ∧ Effect s t d none := by
  obtain ⟨d, hd, rfl⟩ := writeClass_next.1 h
  exact ⟨d, hd, (Body.write ..).finish d (crossExtra_le _ _)⟩

theorem effect_modify {m : MemOp} {f : Byte → Byte → Byte × Byte} (h : modifyMemClass i m s f = .next t) :
    ∃ d, i.desc? = some d ∧ Effect s t d none := by
  obtain ⟨d, hd, rfl⟩ := modifyMemClass_next.1 h
  have hb : Body s (modifyMem m s f) none := (Body.write s _ _).then rfl rfl rfl rfl rfl rfl rfl
  exact ⟨d, hd, hb.finish d (crossExtra_le _ _)⟩

theorem effect_shift {p : Place} {f : Byte → Byte → Byte × Byte} (h : shiftClass i p s f = .next t) :
    ∃ d, i.desc? = some d ∧ Effect s t d none := by
  cases p with
  | acc =>
    obtain ⟨d, hd, rfl⟩ := withRow_next.1 h
    have hb : Body s (modifyAcc s f) none := .quiet rfl rfl rfl rfl rfl rfl rfl
    exact ⟨d, hd, hb.finish d (Nat.zero_le _)⟩
  | mem m => exact effect_modify h

theorem effect_implied {u : State} {c : Option SuspendCause} (h : impliedClass i u = .next t) (hu : Body s u c) :
    ∃ d, i.desc? = some d ∧ Effect s t d c := by
  obtain ⟨d, hd, rfl⟩ := impliedClass_next.1 h
  exact ⟨d, hd, hu.finish d (Nat.zero_le _)⟩

theorem effect_transfer {u : State} {c : Option SuspendCause} (h : transferClass i u = .next t) (hu : Body s u c) :
    ∃ d, i.desc? = some d ∧ Effect s t d c := by
  obtain ⟨d, hd, rfl⟩ := transferClass_next.1 h
  exact ⟨d, hd, hu.finishTransfer d⟩

/-! ### Every instruction -/

/-- Everything the instructions have in common. -/
theorem exec_effect (h : exec i s = .next t) : ∃ d, i.desc? = some d ∧ Effect s t d (causeOf i s) := by
  cases i
  case bcc | bcs | beq | bmi | bne | bpl | bvc | bvs =>
    simp only [exec_bcc, exec_bcs, exec_beq, exec_bmi, exec_bne, exec_bpl, exec_bvc, exec_bvs] at h
    exact effect_branch h (by rintro d ⟨⟩; rfl)
  case jsr => rw [exec_jsr] at h; exact effect_transfer h ((Body.pushWord s _).then rfl rfl rfl rfl rfl rfl rfl)
  case rts =>
    rw [exec_rts] at h
    refine effect_transfer h ?_
    unfold causeOf
    cases rtsFindsEmptyStack s
    · exact .quiet rfl rfl rfl rfl rfl rfl rfl
    · exact .suspend s _
  case jmp | rti =>
    simp only [exec_jmp, exec_rti] at h
    exact effect_transfer h (.quiet rfl rfl rfl rfl rfl rfl rfl)
  case brk => rw [exec_brk] at h; exact effect_transfer h (.suspendEntry s _)
  case ill => rw [exec_ill] at h; exact effect_transfer h (.suspendEntry s _)
  case pha => rw [exec_pha] at h; exact effect_implied h (.push s _)
  case php => rw [exec_php] at h; exact effect_implied h (.push s _)
  case asl | lsr | rol | ror => simp only [exec_asl, exec_lsr, exec_rol, exec_ror] at h; exact effect_shift h
  case inc | dec => simp only [exec_inc, exec_dec] at h; exact effect_modify h
  case sta | stx | sty => simp only [exec_sta, exec_stx, exec_sty] at h; exact effect_write h
  case lda | ldx | ldy | adc | sbc | and | ora | eor | bit | cmp | cpx | cpy =>
    simp only [exec_lda, exec_ldx, exec_ldy, exec_adc, exec_sbc, exec_and, exec_ora, exec_eor, exec_bit, exec_cmp,
      exec_cpx, exec_cpy] at h
    exact effect_read h fun _ => .quiet rfl rfl rfl rfl rfl rfl rfl
  case tax | tay | txa | tya | tsx | txs | pla | plp | inx | iny | dex | dey | clc | cld | cli | clv | sec | sed | sei | nop =>
    simp only [exec_tax, exec_tay, exec_txa, exec_tya, exec_tsx, exec_txs, exec_pla, exec_plp, exec_inx, exec_iny,
      exec_dex, exec_dey, exec_clc, exec_cld, exec_cli, exec_clv, exec_sec, exec_sed, exec_sei, exec_nop] at h
    exact effect_implied h (.quiet rfl rfl rfl rfl rfl rfl rfl)

/-- The meaning of every instruction asks first whether the term is a row of the opcode table. -/
theorem exec_eq_withRow (i : Instr) (s : State) : ∃ k, exec i s = withRow i k := by
  cases i
  case asl p | lsr p | rol p | ror p =>
    cases p <;> (simp only [exec_asl, exec_lsr, exec_rol, exec_ror, shiftClass, modifyMemClass]; exact ⟨_, rfl⟩)
  all_goals
    simp only [exec, execLda, execLdx, execLdy, execSta, execStx, execSty, execTax, execTay, execTxa, execTya,
      execTsx, execTxs, execPha, execPhp, execPla, execPlp, execAdc, execSbc, execAnd, execOra, execEor, execBit, execCmp,
      execCpx, execCpy, execInc, execDec, execInx, execIny, execDex, execDey, execBcc, execBcs,
      execBeq, execBmi, execBne, execBpl, execBvc, execBvs, execJmp, execJsr, execRts, execRti, execClc, execCld, execCli,
      execClv, execSec, execSed, execSei, execNop, execBrk, execIll, readClass, writeClass, modifyMemClass,
      impliedClass, transferClass, branchClass]
    exact ⟨_, rfl⟩

/-- The base cycles of a row, and its page-cross extra, are as many as an instruction can take (R121 to R123). -/
theorem desc?_cycles {d : Desc} (h : i.desc? = some d) :
    2 ≤ d.base ∧ d.base + d.pageCrossExtra ≤ 7 ∧ (d.mode = .rel → d.base = 2 ∧ d.pageCrossExtra = 0) := by
  unfold Instr.desc? at h
  cases ho : i.opcode? <;> rw [ho] at h <;> cases h
  exact desc_cycles _

/-- An instruction takes 2 to 7 cycles (R104). -/
theorem Effect.bounds {d : Desc} {c : Option SuspendCause} (e : Effect s t d c) (h : i.desc? = some d) :
    s.cycles + 2 ≤ t.cycles ∧ t.cycles ≤ s.cycles + 7 := by
  have h1 := e.atLeast
  have h2 := e.atMost
  have h3 := desc?_cycles h
  split at h2 <;> rename_i hm
  · have := h3.2.2 hm
    omega
  · omega

/-! ### The log -/

theorem logOk_mono {r : Recorder} {n m : Nat} (h : LogOk r n) (hm : n ≤ m) : LogOk r m :=
  ⟨h.1, h.2, fun w hw => (h.3 w hw).trans hm⟩

/-- The entries a run of writes makes carry its stamp and are in the range (R265, R266). -/
theorem captured_mem {r : Recorder} {ws : List (Addr × Byte)} {n : Nat} {w : WriteCapture} (h : w ∈ captured r ws n) :
    w.cycle = n ∧ InRange r w.address := by
  simp only [captured, List.mem_map, List.mem_filter, decide_eq_true_eq] at h
  obtain ⟨x, ⟨h1, h2⟩, rfl⟩ := h
  exact ⟨rfl, h2⟩

/-- Appending the writes of an instruction that started at `n` keeps the log in order (R268). -/
theorem logOk_captured {r : Recorder} {n m : Nat} (h : LogOk r n) (hm : n ≤ m) (ws : List (Addr × Byte)) :
    LogOk { r with log := r.log ++ captured r ws n } m := by
  refine ⟨fun w hw => ?_, List.pairwise_append.2 ⟨h.2, ?_, fun a ha b hb => ?_⟩, fun w hw => ?_⟩
  · exact (List.mem_append.1 hw).elim (h.1 w) fun hw => (captured_mem hw).2
  · rw [captured, List.pairwise_map]
    exact List.pairwise_of_forall fun _ _ => le_refl _
  · rw [(captured_mem hb).1]
    exact h.3 a ha
  · exact (List.mem_append.1 hw).elim (fun hw => (h.3 w hw).trans hm) fun hw => (captured_mem hw).1 ▸ hm

theorem step_running (h : s.suspended = false) : step s = exec s.fetch s := by simp [step, h]

theorem step_suspended (h : s.suspended = true) : step s = .next s := by simp [step, h]

end Sys2Proof.Machine
end

