-- ==== Sys2Proof/Laws/Recorder.lean ====
section
/-!
SUPPORT. The bounded run: one lemma per field of what the reset, the start of a repetition and the forcing of the counter
make of a state; what the noting of a window's end makes of it; the run loop as the run of a window; and the induction
over a window, once.
-/

namespace Sys2Proof.Machine

open Sys2Proof.Safety

variable (s : State)

@[simp] theorem State.cpuReset_a : s.cpuReset.a = s.a := rfl
@[simp] theorem State.cpuReset_x : s.cpuReset.x = s.cfg.resetX := rfl
@[simp] theorem State.cpuReset_y : s.cpuReset.y = s.cfg.resetY := rfl
@[simp] theorem State.cpuReset_sp : s.cpuReset.sp = s.cfg.resetSp := rfl
@[simp] theorem State.cpuReset_p : s.cpuReset.p = s.cfg.resetP := rfl
@[simp] theorem State.cpuReset_pc : s.cpuReset.pc = s.pc := rfl
@[simp] theorem State.cpuReset_cycles : s.cpuReset.cycles = 0 := rfl
@[simp] theorem State.cpuReset_suspended : s.cpuReset.suspended = s.suspended := rfl
@[simp] theorem State.cpuReset_cause : s.cpuReset.cause = s.cause := rfl
@[simp] theorem State.cpuReset_mem : s.cpuReset.mem = s.mem := rfl
@[simp] theorem State.cpuReset_snapshot : s.cpuReset.snapshot = s.snapshot := rfl
@[simp] theorem State.cpuReset_recorder : s.cpuReset.recorder = s.recorder := rfl
@[simp] theorem State.cpuReset_cfg : s.cpuReset.cfg = s.cfg := rfl

@[simp] theorem State.startRepetition_a (entry : Addr) (seed : Byte) : (s.startRepetition entry seed).a = seed := rfl
@[simp] theorem State.startRepetition_x (entry : Addr) (seed : Byte) : (s.startRepetition entry seed).x = s.x := rfl
@[simp] theorem State.startRepetition_y (entry : Addr) (seed : Byte) : (s.startRepetition entry seed).y = s.y := rfl
@[simp] theorem State.startRepetition_sp (entry : Addr) (seed : Byte) : (s.startRepetition entry seed).sp = s.sp := rfl
@[simp] theorem State.startRepetition_p (entry : Addr) (seed : Byte) : (s.startRepetition entry seed).p = s.p := rfl
@[simp] theorem State.startRepetition_pc (entry : Addr) (seed : Byte) : (s.startRepetition entry seed).pc = entry := rfl
@[simp] theorem State.startRepetition_cycles (entry : Addr) (seed : Byte) :
    (s.startRepetition entry seed).cycles = s.cycles := rfl
@[simp] theorem State.startRepetition_suspended (entry : Addr) (seed : Byte) :
    (s.startRepetition entry seed).suspended = false := rfl
@[simp] theorem State.startRepetition_cause (entry : Addr) (seed : Byte) :
    (s.startRepetition entry seed).cause = none := rfl
@[simp] theorem State.startRepetition_mem (entry : Addr) (seed : Byte) :
    (s.startRepetition entry seed).mem = s.mem := rfl
@[simp] theorem State.startRepetition_snapshot (entry : Addr) (seed : Byte) :
    (s.startRepetition entry seed).snapshot = s.snapshot := rfl
@[simp] theorem State.startRepetition_recorder (entry : Addr) (seed : Byte) :
    (s.startRepetition entry seed).recorder = s.recorder := rfl
@[simp] theorem State.startRepetition_cfg (entry : Addr) (seed : Byte) :
    (s.startRepetition entry seed).cfg = s.cfg := rfl

@[simp] theorem State.forceCycles_a (n : Nat) : (s.forceCycles n).a = s.a := rfl
@[simp] theorem State.forceCycles_x (n : Nat) : (s.forceCycles n).x = s.x := rfl
@[simp] theorem State.forceCycles_y (n : Nat) : (s.forceCycles n).y = s.y := rfl
@[simp] theorem State.forceCycles_sp (n : Nat) : (s.forceCycles n).sp = s.sp := rfl
@[simp] theorem State.forceCycles_p (n : Nat) : (s.forceCycles n).p = s.p := rfl
@[simp] theorem State.forceCycles_pc (n : Nat) : (s.forceCycles n).pc = s.pc := rfl
@[simp] theorem State.forceCycles_cycles (n : Nat) : (s.forceCycles n).cycles = max s.cycles n := rfl
@[simp] theorem State.forceCycles_suspended (n : Nat) : (s.forceCycles n).suspended = s.suspended := rfl
@[simp] theorem State.forceCycles_cause (n : Nat) : (s.forceCycles n).cause = s.cause := rfl
@[simp] theorem State.forceCycles_mem (n : Nat) : (s.forceCycles n).mem = s.mem := rfl
@[simp] theorem State.forceCycles_snapshot (n : Nat) : (s.forceCycles n).snapshot = s.snapshot := rfl
@[simp] theorem State.forceCycles_recorder (n : Nat) : (s.forceCycles n).recorder = s.recorder := rfl
@[simp] theorem State.forceCycles_cfg (n : Nat) : (s.forceCycles n).cfg = s.cfg := rfl

/-- The end of a window sets the indicator exactly if the core is not suspended (R276), and changes nothing else. -/
@[simp] theorem State.noteWindowEnd_eq : s.noteWindowEnd =
    { s with
      recorder := s.recorder.map fun r => { r with reachedMaxCycles := r.reachedMaxCycles || !s.suspended } } := by
  have hid : (fun r : Recorder => ({ r with reachedMaxCycles := r.reachedMaxCycles } : Recorder)) = id := rfl
  apply State.ext <;> cases h : s.suspended <;> simp [State.noteWindowEnd, h, hid]

@[simp] theorem Recorder.clear_eq (r : Recorder) : r.clear = { r with log := [], reachedMaxCycles := false } := rfl

variable {s} {t u : State} {limit : Nat}

/-- A window's run ends suspended or at its limit (R272). -/
theorem runsWindow_ends (h : RunsWindow limit s t) : t.suspended = true ∨ limit ≤ t.cycles := by
  induction h with
  | stop h => exact h
  | go _ _ _ _ ih => exact ih

/-- What every step keeps, a window's run keeps. -/
theorem runsWindow_keeps {P : State → Prop} (hP : ∀ u v, P u → step u = .next v → P v) (h : RunsWindow limit s t)
    (hs : P s) : P t := by
  induction h with
  | stop => exact hs
  | go _ _ h _ ih => exact ih (hP _ _ hs h)

/-- A running step adds cycles (R104). -/
theorem step_cycles_lt (hs : s.suspended = false) (h : step s = .next t) : s.cycles < t.cycles := by
  rw [step_running hs] at h
  obtain ⟨d, hd, e⟩ := exec_effect h
  have := (e.bounds hd).1
  omega

/-- The run loop is the run of a window, for any fuel of at least the cycles that are left (R272). -/
theorem runWindow_runs {fuel : Nat} (hf : limit - s.cycles ≤ fuel) (h : runWindow limit fuel s = .next t) :
    RunsWindow limit s t := by
  induction fuel generalizing s with
  | zero => cases h; exact .stop (.inr (by omega))
  | succ n ih =>
    unfold runWindow at h
    split at h
    · rename_i hc
      cases h
      exact .stop (by simpa using hc)
    · rename_i hc
      simp only [Bool.or_eq_true, decide_eq_true_eq, not_or, Bool.not_eq_true, not_le] at hc
      split at h <;> try cases h
      rename_i u hu
      have := step_cycles_lt hc.1 hu
      exact .go hc.1 hc.2 hu (ih (by omega) h)

/-- What a repetition does, in terms of its window (R270, R273). -/
theorem runRepetition_next {entry : Addr} {seed : Byte} {reps k : Nat}
    (h : runRepetition entry seed reps k s = .next t) :
    ∃ u, RunsWindow (windowLimit s.cfg.maxCycles reps k)
      ((s.forceCycles (k * windowSize s.cfg.maxCycles reps)).startRepetition entry seed) u ∧ t = u.noteWindowEnd := by
  simp only [runRepetition] at h
  split at h <;> cases h
  rename_i u hu
  exact ⟨u, runWindow_runs (le_refl _) hu, rfl⟩

end Sys2Proof.Machine
end

