-- ==== Sys2Proof/Tests/Slice0.lean ====
section
/-!
SUPPORT. Tests on small states: ill-formed terms, decoding of words written out from R82 and R84, one or two steps of
every instruction with the results the spec's vectors give (`95_test_vectors.md`), and for every statement with
hypotheses a state and operands that meet them.
-/

namespace Sys2Proof.Tests

open Sys2Proof.Machine Sys2Proof.Safety

/-- A machine at reset but for PC and the bytes given, in that order. -/
def start (pc : Nat) (code : List Byte) (data : List (Addr × Byte)) : State :=
  { State.reset with
    pc := BitVec.ofNat 16 pc
    mem := data.foldl (fun m c => m.write c.1.toNat c.2) (Memory.writeAll [] (BitVec.ofNat 16 pc) code) }

/-- What a step shows of the next state. -/
def after {α : Type} (s : State) (view : State → α) : Option α :=
  match step s with
  | .next t => some (view t)
  | _ => none

/-! ### Ill-formed terms -/

theorem test_wellFormed_refuses_lda : (Instr.lda (.mem (.zpy 0))).wellFormed = false := by decide
theorem test_wellFormed_refuses_adc : (Instr.adc (.mem (.zpy 0))).wellFormed = false := by decide
theorem test_wellFormed_refuses_sbc : (Instr.sbc (.mem (.zpy 0))).wellFormed = false := by decide
theorem test_wellFormed_refuses_and : (Instr.and (.mem (.zpy 0))).wellFormed = false := by decide
theorem test_wellFormed_refuses_ora : (Instr.ora (.mem (.zpy 0))).wellFormed = false := by decide
theorem test_wellFormed_refuses_eor : (Instr.eor (.mem (.zpy 0))).wellFormed = false := by decide
theorem test_wellFormed_refuses_cmp : (Instr.cmp (.mem (.zpy 0))).wellFormed = false := by decide
theorem test_wellFormed_refuses_ldx : (Instr.ldx (.mem (.abx 0))).wellFormed = false := by decide
theorem test_wellFormed_refuses_ldy : (Instr.ldy (.mem (.aby 0))).wellFormed = false := by decide
theorem test_wellFormed_refuses_sta : (Instr.sta (.zpy 0)).wellFormed = false := by decide
theorem test_wellFormed_refuses_stx : (Instr.stx (.zpx 0)).wellFormed = false := by decide
theorem test_wellFormed_refuses_sty : (Instr.sty (.abx 0)).wellFormed = false := by decide
theorem test_wellFormed_refuses_bit : (Instr.bit (.zpx 0)).wellFormed = false := by decide
theorem test_wellFormed_refuses_cpx : (Instr.cpx (.mem (.zpx 0))).wellFormed = false := by decide
theorem test_wellFormed_refuses_cpy : (Instr.cpy (.mem (.abx 0))).wellFormed = false := by decide
theorem test_wellFormed_refuses_inc : (Instr.inc (.aby 0)).wellFormed = false := by decide
theorem test_wellFormed_refuses_dec : (Instr.dec (.izx 0)).wellFormed = false := by decide
theorem test_wellFormed_refuses_asl : (Instr.asl (.mem (.zpy 0))).wellFormed = false := by decide
theorem test_wellFormed_refuses_lsr : (Instr.lsr (.mem (.aby 0))).wellFormed = false := by decide
theorem test_wellFormed_refuses_rol : (Instr.rol (.mem (.izx 0))).wellFormed = false := by decide
theorem test_wellFormed_refuses_ror : (Instr.ror (.mem (.izy 0))).wellFormed = false := by decide
theorem test_wellFormed_refuses_ill : (Instr.ill 0xEA).wellFormed = false := by decide

/-- A term that is no row is refused by name (log 8), and has no encoding. -/
theorem test_exec_refuses_ill_formed :
    exec (.sta (.zpy 0)) State.reset = .refused .noSuchForm ∧ encode (.sta (.zpy 0)) = none := ⟨rfl, rfl⟩

/-! ### Decoding: the words are the bytes of R82 with the opcodes of R84 -/

theorem test_decode_loads :
    decode [0xA9, 0x80] = .ok (.lda (.imm 0x80), []) ∧
    decode [0xA5, 0x10] = .ok (.lda (.mem (.zp 0x10)), []) ∧
    decode [0xB5, 0xF0] = .ok (.lda (.mem (.zpx 0xF0)), []) ∧
    decode [0xAD, 0x34, 0x12] = .ok (.lda (.mem (.abs 0x1234)), []) ∧
    decode [0xBD, 0xFF, 0x20] = .ok (.lda (.mem (.abx 0x20FF)), []) ∧
    decode [0xB9, 0x00, 0x20] = .ok (.lda (.mem (.aby 0x2000)), []) ∧
    decode [0xA1, 0x0E] = .ok (.lda (.mem (.izx 0x0E)), []) ∧
    decode [0xB1, 0x20] = .ok (.lda (.mem (.izy 0x20)), []) ∧
    decode [0xBE, 0x80, 0x20] = .ok (.ldx (.mem (.aby 0x2080)), []) ∧
    decode [0xB4, 0x7F] = .ok (.ldy (.mem (.zpx 0x7F)), []) :=
  ⟨rfl, rfl, rfl, rfl, rfl, rfl, rfl, rfl, rfl, rfl⟩

theorem test_decode_stores :
    decode [0x99, 0x18, 0xD4] = .ok (.sta (.aby 0xD418), []) ∧
    decode [0x96, 0xFF] = .ok (.stx (.zpy 0xFF), []) ∧
    decode [0x8C, 0x00, 0x02] = .ok (.sty (.abs 0x0200), []) :=
  ⟨rfl, rfl, rfl⟩

theorem test_decode_transfers :
    decode [0xAA] = .ok (.tax, []) ∧
    decode [0xA8] = .ok (.tay, []) ∧
    decode [0x8A] = .ok (.txa, []) ∧
    decode [0x98] = .ok (.tya, []) ∧
    decode [0xBA] = .ok (.tsx, []) ∧
    decode [0x9A] = .ok (.txs, []) :=
  ⟨rfl, rfl, rfl, rfl, rfl, rfl⟩

theorem test_decode_stack :
    decode [0x48] = .ok (.pha, []) ∧
    decode [0x08] = .ok (.php, []) ∧
    decode [0x68] = .ok (.pla, []) ∧
    decode [0x28] = .ok (.plp, []) :=
  ⟨rfl, rfl, rfl, rfl⟩

theorem test_decode_arithmetic :
    decode [0x71, 0x20] = .ok (.adc (.mem (.izy 0x20)), []) ∧
    decode [0xE9, 0x03] = .ok (.sbc (.imm 0x03), []) ∧
    decode [0x2D, 0x00, 0x20] = .ok (.and (.mem (.abs 0x2000)), []) ∧
    decode [0x15, 0x40] = .ok (.ora (.mem (.zpx 0x40)), []) ∧
    decode [0x59, 0x01, 0x30] = .ok (.eor (.mem (.aby 0x3001)), []) ∧
    decode [0x24, 0x10] = .ok (.bit (.zp 0x10), []) :=
  ⟨rfl, rfl, rfl, rfl, rfl, rfl⟩

theorem test_decode_compares :
    decode [0xDD, 0xFF, 0x20] = .ok (.cmp (.mem (.abx 0x20FF)), []) ∧
    decode [0xE4, 0x06] = .ok (.cpx (.mem (.zp 0x06)), []) ∧
    decode [0xCC, 0x00, 0x20] = .ok (.cpy (.mem (.abs 0x2000)), []) :=
  ⟨rfl, rfl, rfl⟩

theorem test_decode_counts :
    decode [0xFE, 0xFF, 0x20] = .ok (.inc (.abx 0x20FF), []) ∧
    decode [0xD6, 0x10] = .ok (.dec (.zpx 0x10), []) ∧
    decode [0xE8] = .ok (.inx, []) ∧
    decode [0xC8] = .ok (.iny, []) ∧
    decode [0xCA] = .ok (.dex, []) ∧
    decode [0x88] = .ok (.dey, []) :=
  ⟨rfl, rfl, rfl, rfl, rfl, rfl⟩

theorem test_decode_shifts :
    decode [0x0A] = .ok (.asl .acc, []) ∧
    decode [0x5E, 0xFF, 0x20] = .ok (.lsr (.mem (.abx 0x20FF)), []) ∧
    decode [0x36, 0x10] = .ok (.rol (.mem (.zpx 0x10)), []) ∧
    decode [0x6E, 0x00, 0x20] = .ok (.ror (.mem (.abs 0x2000)), []) :=
  ⟨rfl, rfl, rfl, rfl⟩

theorem test_decode_branches :
    decode [0x90, 0x10] = .ok (.bcc 0x10, []) ∧
    decode [0xB0, 0x80] = .ok (.bcs 0x80, []) ∧
    decode [0xF0, 0x00] = .ok (.beq 0x00, []) ∧
    decode [0x30, 0x7F] = .ok (.bmi 0x7F, []) ∧
    decode [0xD0, 0xFE] = .ok (.bne 0xFE, []) ∧
    decode [0x10, 0xFA] = .ok (.bpl 0xFA, []) ∧
    decode [0x50, 0x01] = .ok (.bvc 0x01, []) ∧
    decode [0x70, 0xFF] = .ok (.bvs 0xFF, []) :=
  ⟨rfl, rfl, rfl, rfl, rfl, rfl, rfl, rfl⟩

theorem test_decode_jumps :
    decode [0x4C, 0x00, 0x10] = .ok (.jmp (.abs 0x1000), []) ∧
    decode [0x6C, 0xFF, 0x12] = .ok (.jmp (.ind 0x12FF), []) ∧
    decode [0x20, 0x34, 0x12] = .ok (.jsr 0x1234, []) ∧
    decode [0x60] = .ok (.rts, []) ∧
    decode [0x40] = .ok (.rti, []) :=
  ⟨rfl, rfl, rfl, rfl, rfl⟩

theorem test_decode_flags :
    decode [0x18] = .ok (.clc, []) ∧
    decode [0xD8] = .ok (.cld, []) ∧
    decode [0x58] = .ok (.cli, []) ∧
    decode [0xB8] = .ok (.clv, []) ∧
    decode [0x38] = .ok (.sec, []) ∧
    decode [0xF8] = .ok (.sed, []) ∧
    decode [0x78] = .ok (.sei, []) ∧
    decode [0xEA] = .ok (.nop, []) ∧
    decode [0x00] = .ok (.brk, []) ∧
    decode [0x02] = .ok (.ill 0x02, []) ∧
    decode [0xFF] = .ok (.ill 0xFF, []) :=
  ⟨rfl, rfl, rfl, rfl, rfl, rfl, rfl, rfl, rfl, rfl, rfl⟩

/-- An illegal opcode is one byte long; a list that ends inside an instruction is rejected (R80, R87). -/
theorem test_decode_length :
    decode [0x0C, 0x34, 0x12] = .ok (.ill 0x0C, [0x34, 0x12]) ∧ decode [0x20, 0x34] = .error .truncated ∧
    decode [] = .error .truncated := ⟨rfl, rfl, rfl⟩

/-- Words of the opcode table: byte 0 in bits 7 to 0, operand bits above the row's being zero. -/
theorem test_decodeTableWord :
    decodeTableWord 24 0x1220FF = some (.ill 0xFF) ∧
    decodeTableWord 24 0x20FFBD = some (.lda (.mem (.abx 0x20FF))) ∧
    decodeTableWord 8 0xA9 = some (.lda (.imm 0x00)) := ⟨rfl, rfl, rfl⟩

theorem test_encode :
    encode (.jmp (.ind 0x12FF)) = some [0x6C, 0xFF, 0x12] ∧ encode (.ill 0xEA) = none := ⟨rfl, rfl⟩

/-- `withFetchWord` places an instruction where the next step fetches it. -/
theorem test_withFetchWord : after (State.reset.withFetchWord 16 0x80A9) (fun t => (t.a, t.p, t.pc)) =
    some (0x80, 0x80, 0x0002) := by decide

/-! ### One step of every instruction -/

/-- V5 (R140). -/
theorem test_lda_abx_crosses_a_page :
    after { start 0x1000 [0xBD, 0xFF, 0x20] [(0x2100, 0x01)] with x := 0x01 }
      (fun t => (t.a, t.p, t.pc, t.cycles)) =
      some (0x01, 0x00, 0x1003, 5) := by decide

/-- V8 (R140). -/
theorem test_lda_izx_pointer_wraps :
    after (start 0x1000 [0xA1, 0xFF] [(0x0000, 0x30), (0x00FF, 0x00), (0x3000, 0x44)])
      (fun t => (t.a, t.p, t.pc, t.cycles)) =
      some (0x44, 0x00, 0x1002, 6) := by decide

/-- V12 (R141). -/
theorem test_ldx_zpy_wraps :
    after { start 0x1000 [0xB6, 0x80] [(0x0010, 0x81)] with y := 0x90 }
      (fun t => (t.x, t.p, t.pc, t.cycles)) =
      some (0x81, 0x80, 0x1002, 4) := by decide

/-- V13 (R141). -/
theorem test_ldx_aby_crosses_a_page :
    after { start 0x1000 [0xBE, 0x80, 0x20] [(0x2100, 0x00)] with y := 0x80 }
      (fun t => (t.x, t.p, t.pc, t.cycles)) =
      some (0x00, 0x02, 0x1003, 5) := by decide

/-- V15 (R142). -/
theorem test_ldy_abx :
    after { start 0x1000 [0xBC, 0x00, 0x30] [(0x3005, 0x01)] with x := 0x05 }
      (fun t => (t.y, t.p, t.pc, t.cycles)) =
      some (0x01, 0x00, 0x1003, 4) := by decide

/-- V17 (R143). -/
theorem test_sta_abx_without_extra :
    after { start 0x1000 [0x9D, 0xFF, 0x20] [] with a := 0x11, x := 0x01 }
      (fun t => (t.pc, t.cycles, t.read 0x2100)) =
      some (0x1003, 5, 0x11) := by decide

/-- V18 (R143). -/
theorem test_sta_izy_without_extra :
    after { start 0x1000 [0x91, 0x20] [(0x0020, 0xF8), (0x0021, 0x30)] with a := 0x22, y := 0x10 }
      (fun t => (t.pc, t.cycles, t.read 0x3108)) =
      some (0x1002, 6, 0x22) := by decide

/-- V21 (R144). -/
theorem test_stx_zpy_wraps :
    after { start 0x1000 [0x96, 0xFF] [] with x := 0x09, y := 0x01 }
      (fun t => (t.pc, t.cycles, t.read 0x0000)) =
      some (0x1002, 4, 0x09) := by decide

/-- V23 (R145). -/
theorem test_sty_zpx :
    after { start 0x1000 [0x94, 0x10] [] with x := 0x01, y := 0x01 }
      (fun t => (t.pc, t.cycles, t.read 0x0011)) =
      some (0x1002, 4, 0x01) := by decide

/-- V24 (R146). -/
theorem test_tax :
    after { start 0x1000 [0xAA] [] with x := 0x44 }
      (fun t => (t.x, t.p, t.pc, t.cycles)) =
      some (0x00, 0x02, 0x1001, 2) := by decide

/-- V25 (R147). -/
theorem test_tay :
    after { start 0x1000 [0xA8] [] with a := 0x90 }
      (fun t => (t.y, t.p, t.pc, t.cycles)) =
      some (0x90, 0x80, 0x1001, 2) := by decide

/-- V26 (R148). -/
theorem test_txa :
    after { start 0x1000 [0x8A] [] with a := 0xFF, x := 0x01 }
      (fun t => (t.a, t.p, t.pc, t.cycles)) =
      some (0x01, 0x00, 0x1001, 2) := by decide

/-- V27 (R149). -/
theorem test_tya :
    after { start 0x1000 [0x98] [] with y := 0xFF }
      (fun t => (t.a, t.p, t.pc, t.cycles)) =
      some (0xFF, 0x80, 0x1001, 2) := by decide

/-- V28 (R150). -/
theorem test_tsx :
    after { start 0x1000 [0xBA] [] with sp := 0xFD }
      (fun t => (t.x, t.p, t.pc, t.cycles)) =
      some (0xFD, 0x80, 0x1001, 2) := by decide

/-- V30 (R151). -/
theorem test_txs :
    after { start 0x1000 [0x9A] [] with x := 0x80, p := 0x02 }
      (fun t => (t.sp, t.p, t.pc, t.cycles)) =
      some (0x80, 0x02, 0x1001, 2) := by decide

/-- V32 (R160). -/
theorem test_pha_at_sp_00_wraps :
    after { start 0x1000 [0x48] [] with a := 0x01, sp := 0x00 }
      (fun t => (t.sp, t.pc, t.cycles, t.read 0x0100)) =
      some (0xFF, 0x1001, 3, 0x01) := by decide

/-- V34 (R161). -/
theorem test_php_forces_b_and_u :
    after (start 0x1000 [0x08] [])
      (fun t => (t.sp, t.p, t.pc, t.cycles, t.read 0x01FF)) =
      some (0xFE, 0x00, 0x1001, 3, 0x30) := by decide

/-- V36 (R162). -/
theorem test_pla_at_sp_ff_wraps :
    after { start 0x1000 [0x68] [(0x0100, 0x00)] with sp := 0xFF }
      (fun t => (t.a, t.sp, t.p, t.pc, t.cycles)) =
      some (0x00, 0x00, 0x02, 0x1001, 4) := by decide

/-- V37 (R163). -/
theorem test_plp_loads_all_eight_bits :
    after { start 0x1000 [0x28] [(0x01FF, 0xFF)] with sp := 0xFE }
      (fun t => (t.sp, t.p, t.pc, t.cycles)) =
      some (0xFF, 0xFF, 0x1001, 4) := by decide

/-- V44 (R170). -/
theorem test_adc_overflows :
    after { start 0x1000 [0x69, 0x50] [] with a := 0x50 }
      (fun t => (t.a, t.p, t.pc, t.cycles)) =
      some (0xA0, 0xC0, 0x1002, 2) := by decide

/-- V49 (R171). -/
theorem test_adc_decimal_with_carry :
    after { start 0x1000 [0x69, 0x46] [] with a := 0x58, p := 0x09 }
      (fun t => (t.a, t.p, t.pc, t.cycles)) =
      some (0x05, 0xC9, 0x1002, 2) := by decide

/-- V57 (R173). -/
theorem test_sbc_overflows :
    after { start 0x1000 [0xE9, 0xB0] [] with a := 0x50, p := 0x01 }
      (fun t => (t.a, t.p, t.pc, t.cycles)) =
      some (0xA0, 0xC0, 0x1002, 2) := by decide

/-- V59 (R172). -/
theorem test_sbc_decimal_borrow :
    after { start 0x1000 [0xE9, 0x01] [] with p := 0x09 }
      (fun t => (t.a, t.p, t.pc, t.cycles)) =
      some (0x99, 0x88, 0x1002, 2) := by decide

/-- V64 (R174). -/
theorem test_and :
    after { start 0x1000 [0x29, 0x0F] [] with a := 0xF0 }
      (fun t => (t.a, t.p, t.pc, t.cycles)) =
      some (0x00, 0x02, 0x1002, 2) := by decide

/-- V65 (R175). -/
theorem test_ora :
    after { start 0x1000 [0x09, 0x80] [] with a := 0x01 }
      (fun t => (t.a, t.p, t.pc, t.cycles)) =
      some (0x81, 0x80, 0x1002, 2) := by decide

/-- V68 (R176). -/
theorem test_eor :
    after { start 0x1000 [0x49, 0xFF] [] with a := 0x7F }
      (fun t => (t.a, t.p, t.pc, t.cycles)) =
      some (0x80, 0x80, 0x1002, 2) := by decide

/-- V69 (R177). -/
theorem test_bit_zp :
    after { start 0x1000 [0x24, 0x10] [(0x0010, 0xC0)] with a := 0x01 }
      (fun t => (t.p, t.pc, t.cycles)) =
      some (0xC2, 0x1002, 3) := by decide

/-- V70 (R177). -/
theorem test_bit_clears_n_and_v :
    after { start 0x1000 [0x2C, 0x00, 0x20] [(0x2000, 0x01)] with a := 0xFF, p := 0xC0 }
      (fun t => (t.p, t.pc, t.cycles)) =
      some (0x00, 0x1003, 4) := by decide

/-- V73 (R178). -/
theorem test_cmp_is_unsigned :
    after { start 0x1000 [0xC9, 0x01] [] with a := 0x80 }
      (fun t => (t.p, t.pc, t.cycles)) =
      some (0x01, 0x1002, 2) := by decide

/-- V74 (R178). -/
theorem test_cmp_izy_crosses_a_page :
    after { start 0x1000 [0xD1, 0x20] [(0x0020, 0xF8), (0x0021, 0x30), (0x3108, 0x00)] with y := 0x10 }
      (fun t => (t.p, t.pc, t.cycles)) =
      some (0x03, 0x1002, 6) := by decide

/-- V75 (R179). -/
theorem test_cpx :
    after { start 0x1000 [0xE0, 0x06] [] with x := 0x05 }
      (fun t => (t.p, t.pc, t.cycles)) =
      some (0x80, 0x1002, 2) := by decide

/-- V78 (R180). -/
theorem test_cpy :
    after (start 0x1000 [0xC4, 0x10] [(0x0010, 0x01)])
      (fun t => (t.p, t.pc, t.cycles)) =
      some (0x80, 0x1002, 3) := by decide

/-- V79 (R181). -/
theorem test_inc_wraps_to_zero :
    after (start 0x1000 [0xE6, 0x10] [(0x0010, 0xFF)])
      (fun t => (t.p, t.pc, t.cycles, t.read 0x0010)) =
      some (0x02, 0x1002, 5, 0x00) := by decide

/-- V80 (R181). -/
theorem test_inc_abx_takes_seven :
    after { start 0x1000 [0xFE, 0xFF, 0x20] [(0x2100, 0x7F)] with x := 0x01 }
      (fun t => (t.p, t.pc, t.cycles, t.read 0x2100)) =
      some (0x80, 0x1003, 7, 0x80) := by decide

/-- V81 (R182). -/
theorem test_dec :
    after (start 0x1000 [0xC6, 0x10] [(0x0010, 0x00)])
      (fun t => (t.p, t.pc, t.cycles, t.read 0x0010)) =
      some (0x80, 0x1002, 5, 0xFF) := by decide

/-- V83 (R183). -/
theorem test_inx :
    after { start 0x1000 [0xE8] [] with x := 0xFF, p := 0x01 }
      (fun t => (t.x, t.p, t.pc, t.cycles)) =
      some (0x00, 0x03, 0x1001, 2) := by decide

/-- V84 (R184). -/
theorem test_iny :
    after { start 0x1000 [0xC8] [] with y := 0x7F }
      (fun t => (t.y, t.p, t.pc, t.cycles)) =
      some (0x80, 0x80, 0x1001, 2) := by decide

/-- V85 (R185). -/
theorem test_dex :
    after (start 0x1000 [0xCA] [])
      (fun t => (t.x, t.p, t.pc, t.cycles)) =
      some (0xFF, 0x80, 0x1001, 2) := by decide

/-- V86 (R186). -/
theorem test_dey :
    after { start 0x1000 [0x88] [] with y := 0x01 }
      (fun t => (t.y, t.p, t.pc, t.cycles)) =
      some (0x00, 0x02, 0x1001, 2) := by decide

/-- V87 (R195). -/
theorem test_asl_acc :
    after { start 0x1000 [0x0A] [] with a := 0x81 }
      (fun t => (t.a, t.p, t.pc, t.cycles)) =
      some (0x02, 0x01, 0x1001, 2) := by decide

/-- V88 (R195). -/
theorem test_asl_zp :
    after (start 0x1000 [0x06, 0x10] [(0x0010, 0x40)])
      (fun t => (t.p, t.pc, t.cycles, t.read 0x0010)) =
      some (0x80, 0x1002, 5, 0x80) := by decide

/-- V90 (R196). -/
theorem test_lsr_acc :
    after { start 0x1000 [0x4A] [] with a := 0x01 }
      (fun t => (t.a, t.p, t.pc, t.cycles)) =
      some (0x00, 0x03, 0x1001, 2) := by decide

/-- V92 (R196). -/
theorem test_lsr_abx :
    after { start 0x1000 [0x5E, 0xFF, 0x20] [(0x2100, 0x80)] with x := 0x01 }
      (fun t => (t.p, t.pc, t.cycles, t.read 0x2100)) =
      some (0x00, 0x1003, 7, 0x40) := by decide

/-- V93 (R197). -/
theorem test_rol_acc :
    after { start 0x1000 [0x2A] [] with a := 0x40, p := 0x01 }
      (fun t => (t.a, t.p, t.pc, t.cycles)) =
      some (0x81, 0x80, 0x1001, 2) := by decide

/-- V95 (R197). -/
theorem test_rol_zpx :
    after { start 0x1000 [0x36, 0x10] [(0x0011, 0xFF)] with x := 0x01, p := 0x01 }
      (fun t => (t.p, t.pc, t.cycles, t.read 0x0011)) =
      some (0x81, 0x1002, 6, 0xFF) := by decide

/-- V96 (R198). -/
theorem test_ror_acc :
    after { start 0x1000 [0x6A] [] with a := 0x02, p := 0x01 }
      (fun t => (t.a, t.p, t.pc, t.cycles)) =
      some (0x81, 0x80, 0x1001, 2) := by decide

/-- V98 (R198). -/
theorem test_ror_abs :
    after { start 0x1000 [0x6E, 0x00, 0x20] [(0x2000, 0x00)] with p := 0x01 }
      (fun t => (t.p, t.pc, t.cycles, t.read 0x2000)) =
      some (0x80, 0x1003, 6, 0x80) := by decide

/-- V118 (R206). -/
theorem test_bcc_wraps_past_the_top :
    after (start 0xFFF0 [0x90, 0x7F] [])
      (fun t => (t.pc, t.cycles)) =
      some (0x0071, 4) := by decide

/-- V120 (R207). -/
theorem test_bcs_not_taken :
    after (start 0x1000 [0xB0, 0x80] [])
      (fun t => (t.pc, t.cycles)) =
      some (0x1002, 2) := by decide

/-- V115 (R208). -/
theorem test_beq_backward_across_a_page :
    after { start 0x1000 [0xF0, 0x80] [] with p := 0x02 }
      (fun t => (t.pc, t.cycles)) =
      some (0x0F82, 4) := by decide

/-- V105 (R209). -/
theorem test_bmi_taken :
    after { start 0x1000 [0x30, 0x10] [] with p := 0x80 }
      (fun t => (t.pc, t.cycles)) =
      some (0x1012, 3) := by decide

/-- V117 (R210). -/
theorem test_bne_to_itself :
    after (start 0x3000 [0xD0, 0xFE] [])
      (fun t => (t.pc, t.cycles)) =
      some (0x3000, 3) := by decide

/-- V110 (R211). -/
theorem test_bpl_not_taken :
    after { start 0x1000 [0x10, 0x10] [] with p := 0x80 }
      (fun t => (t.pc, t.cycles)) =
      some (0x1002, 2) := by decide

/-- V116 (R212). -/
theorem test_bvc_forward_across_a_page :
    after (start 0x10F0 [0x50, 0x7F] [])
      (fun t => (t.pc, t.cycles)) =
      some (0x1171, 4) := by decide

/-- V113 (R213). -/
theorem test_bvs_taken :
    after { start 0x1000 [0x70, 0x10] [] with p := 0x40 }
      (fun t => (t.pc, t.cycles)) =
      some (0x1012, 3) := by decide

/-- V122 (R214). -/
theorem test_jmp_ind_wraps_in_the_page :
    after (start 0x1000 [0x6C, 0xFF, 0x12] [(0x1200, 0x56), (0x12FF, 0x34), (0x1300, 0x78)])
      (fun t => (t.pc, t.cycles)) =
      some (0x5634, 5) := by decide

/-- V123 (R214). -/
theorem test_jmp_ind_without_page_wrap :
    after { start 0x1000 [0x6C, 0xFF, 0x12] [(0x1200, 0x56), (0x12FF, 0x34), (0x1300, 0x78)]
        with cfg := { Config.default with jmpIndPageWrap := false } }
      (fun t => (t.pc, t.cycles)) =
      some (0x7834, 5) := by decide

/-- V125 (R215). -/
theorem test_jsr_pushes_high_first :
    after { start 0x0900 [0x20, 0x00, 0x10] [] with recorder := some ⟨0x0100, 0x01FF, [], false⟩ }
      (fun t => (t.sp, t.pc, t.recorder.map (·.log))) =
      some (0xFD, 0x1000, some [⟨0x01FF, 0x09, 0⟩, ⟨0x01FE, 0x02, 0⟩]) := by decide

/-- V126 (R215). -/
theorem test_jsr_at_sp_00_wraps :
    after { start 0x0900 [0x20, 0x00, 0x10] [] with sp := 0x00 }
      (fun t => (t.sp, t.pc, t.cycles, t.read 0x0100, t.read 0x01FF)) =
      some (0xFE, 0x1000, 6, 0x09, 0x02) := by decide

/-- V129 (R216). -/
theorem test_rts_at_sp_fe_returns :
    after { start 0x1000 [0x60] [(0x0100, 0x12), (0x01FF, 0x34)] with sp := 0xFE }
      (fun t => (t.sp, t.pc, t.cycles)) =
      some (0x00, 0x1235, 6) := by decide

/-- V130 (R216). -/
theorem test_rts_at_sp_fe_suspends_when_set :
    after { start 0x1000 [0x60] [(0x0100, 0x12), (0x01FF, 0x34)]
        with sp := 0xFE, cfg := { Config.default with rtsSuspendAtFe := true } }
      (fun t => (t.pc, t.cycles, t.cause)) =
      some (0x1000, 6, some SuspendCause.rtsEmptyStack) := by decide

/-- V133 (R218). -/
theorem test_rti_at_sp_ff_wraps :
    after { start 0x1000 [0x40] [(0x0100, 0xFF), (0x0101, 0x00), (0x0102, 0x20)] with sp := 0xFF }
      (fun t => (t.sp, t.p, t.pc, t.cycles)) =
      some (0x02, 0xFF, 0x2000, 6) := by decide

/-- V134 (R225). -/
theorem test_clc :
    after { start 0x1000 [0x18] [] with p := 0xFF }
      (fun t => (t.p, t.pc, t.cycles)) =
      some (0xFE, 0x1001, 2) := by decide

/-- V135 (R226). -/
theorem test_cld :
    after { start 0x1000 [0xD8] [] with p := 0x08 }
      (fun t => (t.p, t.pc, t.cycles)) =
      some (0x00, 0x1001, 2) := by decide

/-- V136 (R227). -/
theorem test_cli :
    after { start 0x1000 [0x58] [] with p := 0x04 }
      (fun t => (t.p, t.pc, t.cycles)) =
      some (0x00, 0x1001, 2) := by decide

/-- V137 (R228). -/
theorem test_clv :
    after { start 0x1000 [0xB8] [] with p := 0x40 }
      (fun t => (t.p, t.pc, t.cycles)) =
      some (0x00, 0x1001, 2) := by decide

/-- V138 (R229). -/
theorem test_sec :
    after (start 0x1000 [0x38] [])
      (fun t => (t.p, t.pc, t.cycles)) =
      some (0x01, 0x1001, 2) := by decide

/-- V139 (R230). -/
theorem test_sed :
    after (start 0x1000 [0xF8] [])
      (fun t => (t.p, t.pc, t.cycles)) =
      some (0x08, 0x1001, 2) := by decide

/-- V140 (R231). -/
theorem test_sei :
    after (start 0x1000 [0x78] [])
      (fun t => (t.p, t.pc, t.cycles)) =
      some (0x04, 0x1001, 2) := by decide

/-- V141 (R232). -/
theorem test_nop :
    after { start 0x1000 [0xEA] [] with a := 0x12, p := 0x83 }
      (fun t => (t.p, t.pc, t.cycles)) =
      some (0x83, 0x1001, 2) := by decide

/-- V142 (R233). -/
theorem test_brk_literal :
    after { start 0x0903 [0x00] [] with recorder := some ⟨0x0100, 0x01FF, [], false⟩ }
      (fun t => (t.sp, t.p, t.recorder.map (·.log))) =
      some (0xFC, 0x04, some [⟨0x01FF, 0x09, 0⟩, ⟨0x01FE, 0x05, 0⟩, ⟨0x01FD, 0x30, 0⟩]) := by decide

/-- V143 (R233). -/
theorem test_brk_vector :
    after { start 0x0903 [0x00] [(0xFFFE, 0x00), (0xFFFF, 0xC0)]
        with cfg := { Config.default with brkPcMode := .vector } }
      (fun t => (t.pc, t.cause)) =
      some (0xC000, some SuspendCause.brk) := by decide

/-- V145 (R240). -/
theorem test_ill_opcode_02 :
    after { start 0x2000 [0x02] [] with p := 0x01 }
      (fun t => (t.sp, t.read 0x01FD, t.read 0x01FF, t.cause)) =
      some (0xFC, 0x31, 0x20, some SuspendCause.illegalOpcode) := by decide

/-- V147 (R240). -/
theorem test_ill_opcode_0c_is_one_byte :
    after (start 0x2000 [0x0C, 0x34, 0x12] [])
      (fun t => (t.sp, t.read 0x01FE, t.read 0x01FF, t.cause)) =
      some (0xFC, 0x02, 0x20, some SuspendCause.illegalOpcode) := by decide

/-! ### Witnesses: for each statement with hypotheses, a state and operands that meet them -/

/-- A recorder over the SID's addresses, and one over page 1. -/
def sid : Recorder := ⟨0xD400, 0xD418, [], false⟩
def page1 : Recorder := ⟨0x0100, 0x01FF, [], false⟩

/-- A machine about to store to 0xD418, with a recorder bound. -/
def storing : State := { start 0x1000 [0x8D, 0x18, 0xD4] [] with a := 0x0F, recorder := some sid }

/-- A machine in decimal mode. -/
def decimal : State := { start 0x1000 [0x69, 0x46] [] with a := 0x58, p := 0x09 }

theorem witness_DecodeOfEncodeGivesTheInstruction :
    (Instr.lda (.mem (.abx 0x20FF))).wellFormed = true ∧ (Instr.ror .acc).wellFormed = true ∧
    (Instr.jmp (.ind 0xFFFF)).wellFormed = true ∧ (Instr.ill 0xFF).wellFormed = true := by decide

theorem witness_DecodedBytesEncodeBack :
    decode [0xBD, 0xFF, 0x20, 0x99] = .ok (.lda (.mem (.abx 0x20FF)), [0x99]) := rfl

theorem witness_EveryByteValueDecodes : (0x02 : Byte) ∈ illegalOpcodes ∧ (0xFF : Byte) ∈ illegalOpcodes ∧
    (0x00 : Byte) ∉ illegalOpcodes ∧ (0xFE : Byte) ∉ illegalOpcodes := by decide

/-- At an ordinary address, and with the operand bytes past 0xFFFF. -/
theorem witness_StepRunsTheDecodedInstruction :
    (let s := storing
     s.suspended = false ∧ decode [s.read s.pc, s.read (s.pc + 1), s.read (s.pc + 2)] =
       .ok (.sta (.abs 0xD418), [])) ∧
    (let s := start 0xFFFF [0xA9, 0x80] []
     s.suspended = false ∧ decode [s.read s.pc, s.read (s.pc + 1), s.read (s.pc + 2)] =
       .ok (.lda (.imm 0x80), [0x00])) := ⟨⟨rfl, rfl⟩, rfl, rfl⟩

theorem witness_SuspendedStepChangesNothing : (State.reset.suspend .rtsEmptyStack).suspended = true := rfl

theorem witness_EveryStepHasANextState :
    (Instr.inc (.abx 0x20FF)).wellFormed = true ∧ (Instr.inc (.aby 0x20FF)).wellFormed = false := by decide

theorem witness_RunningStepTakesTwoToSevenCycles :
    State.reset.suspended = false ∧ (∃ t, step State.reset = .next t) ∧
    storing.suspended = false ∧ ∃ t, step storing = .next t := ⟨rfl, ⟨_, rfl⟩, rfl, _, rfl⟩

/-- The invariant with a recorder bound and its log not empty. -/
def logged : State := { storing with cycles := 9, recorder := some { sid with log := [⟨0xD400, 0x01, 4⟩, ⟨0xD401, 0x02, 4⟩] } }

theorem logged_inv : StateInv logged where
  memory := by decide
  snapshot := by decide
  cause := rfl
  log := by
    rintro r ⟨⟩
    exact ⟨by unfold InRange; decide, by decide, by decide⟩

theorem witness_StepKeepsTheInvariant : StateInv logged ∧ ∃ t, step logged = .next t := ⟨logged_inv, _, rfl⟩

theorem witness_HostCallKeepsTheInvariant :
    StateInv logged ∧ (∃ t, hostCall true (.setWord 0xFFFF 0x1234) logged = .next t) ∧
    ∃ t, hostCall true .drainLog logged = .next t := ⟨logged_inv, ⟨_, rfl⟩, _, rfl⟩

/-- Each cause, and a step that does not suspend; SP at 0xFE with and without `RTS_SUSPEND_AT_FE`. -/
theorem witness_SuspensionHasExactlyThreeCauses :
    after (start 0x1000 [0x00] []) (fun t => t.cause) = some (some .brk) ∧
    after (start 0x1000 [0x02] []) (fun t => t.cause) = some (some .illegalOpcode) ∧
    after (start 0x1000 [0x60] []) (fun t => t.cause) = some (some .rtsEmptyStack) ∧
    after { start 0x1000 [0x60] [] with sp := 0xFE } (fun t => t.cause) = some none ∧
    after { start 0x1000 [0x60] [] with sp := 0xFE, cfg := { Config.default with rtsSuspendAtFe := true } }
      (fun t => t.cause) = some (some .rtsEmptyStack) := by decide

theorem witness_StepsLeaveTheHostsStateAlone :
    storing.recorder = some sid ∧ after storing (fun t => t.recorder.isSome) = some true := by decide

theorem witness_StepAppendsToTheLogWithItsStartStamp :
    logged.recorder = some { sid with log := [⟨0xD400, 0x01, 4⟩, ⟨0xD401, 0x02, 4⟩] } ∧
    after logged (fun t => t.recorder.map (·.log.length)) = some (some 3) := by decide

theorem witness_FlagsChangeOnlyByTheirWriters :
    ∃ t, exec .sec State.reset = .next t ∧ getFlag t.p .c ≠ getFlag State.reset.p .c := ⟨_, rfl, by decide⟩

theorem witness_RegistersChangeOnlyByTheirWriters :
    (∃ t, exec (.ror .acc) { State.reset with a := 0x02 } = .next t ∧ t.a ≠ 0x02) ∧
    (∃ t, exec .inx State.reset = .next t ∧ t.x ≠ State.reset.x) ∧
    (∃ t, exec .dey State.reset = .next t ∧ t.y ≠ State.reset.y) ∧
    ∃ t, exec .pha State.reset = .next t ∧ t.sp ≠ State.reset.sp :=
  ⟨⟨_, rfl, by decide⟩, ⟨_, rfl, by decide⟩, ⟨_, rfl, by decide⟩, _, rfl, by decide⟩

theorem witness_OnlyStoringInstructionsChangeMemory :
    (∃ t, exec (.bit (.abs 0x2000)) State.reset = .next t) ∧ (∃ t, exec (.asl .acc) State.reset = .next t) ∧
    (Instr.asl .acc).mode = .acc := ⟨⟨_, rfl⟩, ⟨_, rfl⟩, rfl⟩

theorem witness_PcAdvancesPastInstructionsThatDoNotTransfer :
    ∃ t, exec (.sta (.abs 0x0200)) { State.reset with pc := 0xFFFE } = .next t ∧ t.pc = 0x0001 := ⟨_, rfl, rfl⟩

theorem witness_InterruptAndUnusedFlagsSteerNothing :
    (∀ f ∈ [Flag.n, .v, .d, .z, .c], getFlag 0x35 f = getFlag (0x01 : Byte) f) ∧
    ∃ t, exec (.bcs 0x80) { State.reset with p := 0x01 } = .next t := ⟨by decide, _, rfl⟩

theorem witness_CanonicalMemoriesThatReadAlikeAreEqual :
    Memory.wf [(0, 0x01), (0xFFFF, 0x02)] = true ∧
    Memory.wf (Memory.writeAll [] 0xFFFF [0x02, 0x01]) = true ∧
    Memory.writeAll [] 0xFFFF [0x02, 0x01] = [(0, 0x01), (0xFFFF, 0x02)] := by decide

/-- Pointers at 0xFF, whose high byte is at 0x00, for both modes. -/
theorem witness_IndirectModesReadTheirPointerInPageZero :
    (let s := { start 0x1000 [] [(0x0000, 0x30), (0x00FF, 0x12)] with x := 0x01, y := 0xF0 }
     s.mem.read (((0xFE : Byte).toNat + s.x.toNat) % 256) = 0x12 ∧
     s.mem.read (((0xFE : Byte).toNat + s.x.toNat + 1) % 256) = 0x30 ∧
     s.mem.read (0xFF : Byte).toNat = 0x12 ∧ s.mem.read (((0xFF : Byte).toNat + 1) % 256) = 0x30 ∧
     (resolve (.izx 0xFE) s).ea = 0x3012 ∧ (resolve (.izy 0xFF) s) = ⟨0x3102, true⟩) := by decide

/-- A page cross reported, and an address past 0xFFFF. -/
theorem witness_DirectModesResolveAndReportPageCrosses :
    (let s := { State.reset with x := 0x02, y := 0x90 }
     resolve (.abx 0xFFFF) s = ⟨0x0001, true⟩ ∧ resolve (.abx 0x20FD) s = ⟨0x20FF, false⟩ ∧
     resolve (.zpy 0x80) s = ⟨0x0010, false⟩ ∧ resolve (.zpx 0xFF) s = ⟨0x0001, false⟩) := by decide

theorem witness_LoadsSetTheRegisterAndNZ :
    ldaRows.lookup (Src.mode (.mem (.izy 0x20))) = some ⟨0xB1, 2, 5, 1⟩ ∧
    ldxRows.lookup (Src.mode (.mem (.zpy 0x80))) = some ⟨0xB6, 2, 4, 0⟩ ∧
    ldyRows.lookup (Src.mode (.imm 0xFF)) = some ⟨0xA0, 2, 2, 0⟩ := by decide

theorem witness_StoresWriteTheRegister :
    staRows.lookup (MemOp.mode (.abx 0x20FF)) = some ⟨0x9D, 3, 5, 0⟩ ∧
    stxRows.lookup (MemOp.mode (.zpy 0xFF)) = some ⟨0x96, 2, 4, 0⟩ ∧
    styRows.lookup (MemOp.mode (.abs 0x0200)) = some ⟨0x8C, 3, 4, 0⟩ := by decide

/-- With D clear, and with D set under `DECIMAL_MODE` = `binary`. -/
theorem witness_AdcAddsInBinary :
    adcRows.lookup (Src.mode (.mem (.abx 0x20FF))) = some ⟨0x7D, 3, 4, 1⟩ ∧
    (getFlag State.reset.p .d = false ∨ State.reset.cfg.decimalMode = .binary) ∧
    (let s := { decimal with cfg := { Config.default with decimalMode := .binary } }
     getFlag s.p .d = false ∨ s.cfg.decimalMode = .binary) := by decide

theorem witness_AdcAddsInNmosDecimal :
    adcRows.lookup (Src.mode (.imm 0x46)) = some ⟨0x69, 2, 2, 0⟩ ∧
    getFlag decimal.p .d = true ∧ decimal.cfg.decimalMode = .nmos := by decide

theorem witness_SbcSubtractsInBinary :
    sbcRows.lookup (Src.mode (.mem (.izx 0x20))) = some ⟨0xE1, 2, 6, 0⟩ ∧
    (getFlag State.reset.p .d = false ∨ State.reset.cfg.decimalMode = .binary) ∧
    (let s := { decimal with cfg := { Config.default with decimalMode := .binary } }
     getFlag s.p .d = false ∨ s.cfg.decimalMode = .binary) := by decide

theorem witness_SbcSubtractsInNmosDecimal :
    sbcRows.lookup (Src.mode (.imm 0x46)) = some ⟨0xE9, 2, 2, 0⟩ ∧
    getFlag decimal.p .d = true ∧ decimal.cfg.decimalMode = .nmos := by decide

/-- 58 and 46, and the largest digits, 99 and 99. -/
theorem witness_DecimalArithmeticIsBcdOnValidDigits :
    getFlag decimal.p .d = true ∧ decimal.cfg.decimalMode = .nmos ∧
    decimal.a.toNat / 16 ≤ 9 ∧ decimal.a.toNat % 16 ≤ 9 ∧ (0x46 : Byte).toNat / 16 ≤ 9 ∧ (0x46 : Byte).toNat % 16 ≤ 9 ∧
    (0x99 : Byte).toNat / 16 ≤ 9 ∧ (0x99 : Byte).toNat % 16 ≤ 9 := by decide

theorem witness_OverflowFlagIsSignedOverflow :
    getFlag State.reset.p .d = false ∨ State.reset.cfg.decimalMode = .binary := by decide

theorem witness_LogicInstructionsCombineBitwise :
    andRows.lookup (Src.mode (.mem (.aby 0x2000))) = some ⟨0x39, 3, 4, 1⟩ ∧
    oraRows.lookup (Src.mode (.mem (.zpx 0x40))) = some ⟨0x15, 2, 4, 0⟩ ∧
    eorRows.lookup (Src.mode (.imm 0xFF)) = some ⟨0x49, 2, 2, 0⟩ := by decide

theorem witness_BitTestsTheOperand :
    bitRows.lookup (MemOp.mode (.zp 0x10)) = some ⟨0x24, 2, 3, 0⟩ ∧
    bitRows.lookup (MemOp.mode (.abs 0x2000)) = some ⟨0x2C, 3, 4, 0⟩ := by decide

theorem witness_ComparesSetCZN :
    cmpRows.lookup (Src.mode (.mem (.izy 0x20))) = some ⟨0xD1, 2, 5, 1⟩ ∧
    cpxRows.lookup (Src.mode (.mem (.abs 0x2000))) = some ⟨0xEC, 3, 4, 0⟩ ∧
    cpyRows.lookup (Src.mode (.imm 0x00)) = some ⟨0xC0, 2, 2, 0⟩ := by decide

theorem witness_IncAndDecWriteMemoryOnce :
    incRows.lookup (MemOp.mode (.abx 0x20FF)) = some ⟨0xFE, 3, 7, 0⟩ ∧
    decRows.lookup (MemOp.mode (.zp 0x10)) = some ⟨0xC6, 2, 5, 0⟩ := by decide

theorem witness_ShiftsMoveOneBitIntoCarry :
    aslRows.lookup (MemOp.mode (.zpx 0x10)) = some ⟨0x16, 2, 6, 0⟩ ∧
    lsrRows.lookup (MemOp.mode (.abx 0x20FF)) = some ⟨0x5E, 3, 7, 0⟩ := by decide

theorem witness_RotatesMoveOneBitThroughCarry :
    rolRows.lookup (MemOp.mode (.zp 0x10)) = some ⟨0x26, 2, 5, 0⟩ ∧
    rorRows.lookup (MemOp.mode (.abs 0x2000)) = some ⟨0x6E, 3, 6, 0⟩ := by decide

/-- Every branch both ways: the two status bytes whose flags are all clear and all set. -/
theorem witness_BranchesGoToTheirTarget :
    ∀ f ∈ [Flag.n, .v, .z, .c], getFlag 0x00 f = false ∧ getFlag 0xFF f = true := by decide

/-- A pointer at the last byte of a page, with and without `JMP_IND_PAGE_WRAP`. -/
theorem witness_JmpSetsOnlyPc :
    (let s := start 0x1000 [] [(0x1200, 0x56), (0x12FF, 0x34), (0x1300, 0x78)]
     s.cfg.jmpIndPageWrap = true ∧ s.mem.read (0x12FF : Addr).toNat = 0x34 ∧
     s.mem.read ((0x12FF : Addr).toNat / 256 * 256 + ((0x12FF : Addr).toNat + 1) % 256) = 0x56 ∧
     s.mem.read (((0x12FF : Addr).toNat + 1) % 0x10000) = 0x78) := by decide

/-- SP at 0xFE returns or suspends as the parameter says; SP at 0xFF suspends; SP at 0x00 returns. -/
theorem witness_RtsReturnsOrSuspendsOnAnEmptyStack :
    (let s := { State.reset with sp := 0xFE }
     s.sp ≠ 0xFF ∧ (s.cfg.rtsSuspendAtFe = true → s.sp ≠ 0xFE)) ∧
    (let s := { State.reset with sp := 0x00, cfg := { Config.default with rtsSuspendAtFe := true } }
     s.sp ≠ 0xFF ∧ (s.cfg.rtsSuspendAtFe = true → s.sp ≠ 0xFE)) ∧
    State.reset.sp = 0xFF ∧
    (let s := { State.reset with sp := 0xFE, cfg := { Config.default with rtsSuspendAtFe := true } }
     s.cfg.rtsSuspendAtFe = true ∧ s.sp = 0xFE) := by decide

/-- At the top of the stack, at 0x00 (which wraps), and at 0x02, the lowest SP above the one left out. -/
theorem witness_RtsUndoesJsr :
    ∀ sp ∈ [(0xFF : Byte), 0x00, 0x02],
      (let s := { State.reset with sp := sp }
       s.sp ≠ 0x01 ∧ (s.cfg.rtsSuspendAtFe = true → s.sp ≠ 0x00)) := by decide

theorem witness_BrkAndIllegalOpcodesSaveAndSuspend :
    (0x02 : Byte) ∈ illegalOpcodes ∧ State.reset.cfg.brkPcMode = .literal ∧
    { State.reset with cfg := { Config.default with brkPcMode := .vector } }.cfg.brkPcMode = .vector := by decide

theorem witness_WindowEndsSuspendedOrAtItsLimit :
    (0 ≤ State.reset.cycles) ∧ ¬ (10 ≤ State.reset.cycles) := by decide

theorem witness_CaptureReturnsWithinTheBudget : (3 : Nat) ≠ 0 ∧ storing.recorder = some sid := by decide

/-- RTS alone (T2): it suspends in the one window, with nothing logged. -/
def onlyRts : State := { start 0x0C00 [0x60] [] with recorder := some ⟨0x0000, 0xFFFF, [], false⟩ }

theorem witness_CaptureLogIsInRangeAndOrdered :
    onlyRts.recorder = some ⟨0x0000, 0xFFFF, [], false⟩ ∧
    (match capture 0x0C00 0x00 1 onlyRts with
      | .next (t, r) => decide (r = ⟨[], false, 6⟩ ∧ t.suspended = true ∧ t.pc = 0x0C00 ∧ t.sp = 0xFF)
      | _ => false) = true := by decide

/-- JMP to itself (P4, with a budget of 3): the one window runs out. -/
theorem witness_OneRepetitionReportsTheBudgetIffNotSuspended :
    (match capture 0x0A00 0x00 1
        { start 0x0A00 [0x4C, 0x00, 0x0A] [] with
          recorder := some page1, cfg := { Config.default with maxCycles := 3 } } with
      | .next (t, r) => decide (r = ⟨[], true, 3⟩ ∧ t.suspended = false)
      | _ => false) = true := by decide

/-- A block that ends exactly at the end of memory, and one a byte longer. -/
theorem witness_HostBlocksReadBackOrAreRefused :
    (0xFFFE : Addr).toNat + [(0x01 : Byte), 0x02].length ≤ 0x10000 ∧
    0x10000 < (0xFFFE : Addr).toNat + [(0x01 : Byte), 0x02, 0x03].length := by decide

theorem witness_HostDutiesAreRefusedWhenBroken : storing.recorder = some sid ∧ State.reset.recorder = none := by decide

/-- Of three windows of a budget of 10 the last takes the remainder (R273). -/
theorem test_windowLimit : [0, 1, 2].map (windowLimit 10 3) = [3, 6, 10] := by decide

/-- A store in the range and one form that stores nothing. -/
theorem witness_EveryWriteInRangeIsLoggedOnce :
    (∃ t, exec (.sta (.abs 0xD418)) storing = .next t) ∧ (∃ t, exec (.asl .acc) storing = .next t) ∧
    writesOf (.sta (.abs 0xD418)) storing = [(0xD418, 0x0F)] ∧ writesOf (.asl .acc) storing = [] :=
  ⟨⟨_, rfl⟩, ⟨_, rfl⟩, by decide, rfl⟩

/-- Two repetitions by hand from R270: RTS alone (6 cycles), with 40 cycles, ends at 6, is forced to 20 and ends at 26; JMP to
itself (3 cycles), with 7, runs out at 3 and then at 9, past its limit of 7. -/
theorem witness_CaptureRunsEachRepetitionInItsWindow :
    (2 : Nat) ≠ 0 ∧ onlyRts.recorder = some ⟨0x0000, 0xFFFF, [], false⟩ ∧
    (match capture 0x0C00 0x00 2 { onlyRts with cfg := { Config.default with maxCycles := 40 } } with
      | .next (_, r) => decide (r = ⟨[], false, 26⟩)
      | _ => false) = true ∧
    (match capture 0x0A00 0x00 2
        { start 0x0A00 [0x4C, 0x00, 0x0A] [] with
          recorder := some page1, cfg := { Config.default with maxCycles := 7 } } with
      | .next (_, r) => decide (r = ⟨[], true, 9⟩)
      | _ => false) = true := by decide

end Sys2Proof.Tests
end

section
/-!
PROOFS of the family 10_state, first part: the bounds of a step, the machine after reset, and the writers: which
registers and flags each instruction writes, and where it leaves PC.
-/

namespace Sys2Proof.Machine

open Sys2Proof.Safety

/-! ### Rows and cycles -/

/-- The descriptor the decoder's table holds for an instruction's opcode names its mnemonic and mode (R84, R86). -/
theorem described (i : Instr) : Laws.Described.Statement i := by
  open Laws.Described in
  cases i
  exacts [lda _, ldx _, ldy _, sta _, stx _, sty _, tax, tay, txa, tya, tsx, txs, pha, php, pla, plp, adc _, sbc _, and _,
    ora _, eor _, bit _, cmp _, cpx _, cpy _, inc _, dec _, inx, iny, dex, dey, asl _, lsr _, rol _, ror _, bcc _, bcs _,
    beq _, bmi _, bne _, bpl _, bvc _, bvs _, jmp _, jsr _, rts, rti, clc, cld, cli, clv, sec, sed, sei, nop, brk, ill _]

/-- A row's length is that of the instruction's addressing mode (R81). -/
theorem desc?_size {i : Instr} {d : Desc} (h : i.desc? = some d) : d.size = i.mode.size := by
  obtain ⟨op, hop, rfl⟩ := Option.map_eq_some_iff.1 h
  rw [Desc.size, (described i op hop).2]

/-- Settles O9: the bounds every instruction's `Effect` has. -/
theorem runningStepTakesTwoToSevenCycles : Obligations.RunningStepTakesTwoToSevenCycles := by
  intro s t hrun h
  obtain ⟨d, hd, e⟩ := exec_effect (step_running hrun ▸ h)
  obtain ⟨hlo, hhi⟩ := e.bounds hd
  exact ⟨hlo, hhi, by rw [executeInstruction, h]⟩

/-- Settles O10: nothing is listed in memory, the slot is empty and no recorder is bound. -/
theorem resetMeetsTheInvariant : Obligations.ResetMeetsTheInvariant where
  memory := State.reset_wf
  snapshot := nofun
  cause := rfl
  log := nofun

/-! ### The end of an instruction

It leaves A, X, Y, SP and P as the instruction's body left them, and takes PC past the instruction unless the body set
it. -/

/-- `t` has the byte registers of `u`. -/
structure SameRegisters (u t : State) : Prop where
  a : t.a = u.a
  x : t.x = u.x
  y : t.y = u.y
  sp : t.sp = u.sp
  p : t.p = u.p

/-- `t` is past `i` (R103), with the byte registers of `u`. -/
structure Finished (i : Instr) (u t : State) : Prop extends SameRegisters u t where
  pc : t.pc = u.pc + BitVec.ofNat 16 i.mode.size

section
variable {i : Instr} {s t u : State}

theorem finished_finish {d : Desc} (hd : i.desc? = some d) (n : Nat) : Finished i u (u.finish d n) :=
  ⟨⟨rfl, rfl, rfl, rfl, rfl⟩, by rw [← desc?_size hd]; rfl⟩

theorem readClass_finished {src : Src} {k : Byte → State} (h : readClass i src s k = .next t) :
    Finished i (k (srcValue src s)) t := by
  obtain ⟨d, hd, rfl⟩ := readClass_next.1 h
  exact finished_finish hd _

theorem writeClass_finished {m : MemOp} {v : Byte} (h : writeClass i m v s = .next t) :
    Finished i (s.write (resolve m s).ea v) t := by
  obtain ⟨d, hd, rfl⟩ := writeClass_next.1 h
  exact finished_finish hd _

theorem modifyMemClass_finished {m : MemOp} {f : Byte → Byte → Byte × Byte} (h : modifyMemClass i m s f = .next t) :
    Finished i (modifyMem m s f) t := by
  obtain ⟨d, hd, rfl⟩ := modifyMemClass_next.1 h
  exact finished_finish hd _

theorem shiftClass_acc_finished {f : Byte → Byte → Byte × Byte} (h : shiftClass i .acc s f = .next t) :
    Finished i (modifyAcc s f) t := by
  obtain ⟨d, hd, rfl⟩ := withRow_next.1 h
  exact finished_finish hd _

theorem shiftClass_mem_finished {m : MemOp} {f : Byte → Byte → Byte × Byte} (h : shiftClass i (.mem m) s f = .next t) :
    Finished i (modifyMem m s f) t := modifyMemClass_finished h

theorem impliedClass_finished (h : impliedClass i u = .next t) : Finished i u t := by
  obtain ⟨d, hd, rfl⟩ := impliedClass_next.1 h
  exact finished_finish hd _

theorem transferClass_registers (h : transferClass i u = .next t) : SameRegisters u t := by
  obtain ⟨d, -, rfl⟩ := transferClass_next.1 h
  exact ⟨rfl, rfl, rfl, rfl, rfl⟩

theorem branchClass_registers {taken : Bool} {offset : Byte} (h : branchClass i taken offset s = .next t) :
    SameRegisters s t := by
  obtain ⟨d, -, ht, -⟩ := branchClass_next h
  rw [ht]
  exact ⟨rfl, rfl, rfl, rfl, rfl⟩

end

/-- Settles O19: every class that does not transfer ends past the instruction, and its body has left PC alone. -/
theorem pcAdvancesPastInstructionsThatDoNotTransfer : Obligations.PcAdvancesPastInstructionsThatDoNotTransfer := by
  intro i s t h hi
  cases i
  case jmp | jsr | rts | rti | brk | ill | bcc | bcs | beq | bmi | bne | bpl | bvc | bvs =>
    exact absurd (by simp [Instr.mnemonic]) hi
  case lda | ldx | ldy | adc | sbc | and | ora | eor | bit | cmp | cpx | cpy =>
    simp only [exec_lda, exec_ldx, exec_ldy, exec_adc, exec_sbc, exec_and, exec_ora, exec_eor, exec_bit, exec_cmp,
      exec_cpx, exec_cpy] at h
    exact (readClass_finished h).pc
  case sta | stx | sty =>
    simp only [exec_sta, exec_stx, exec_sty] at h
    exact (writeClass_finished h).pc
  case inc | dec =>
    simp only [exec_inc, exec_dec] at h
    exact (modifyMemClass_finished h).pc
  case asl p | lsr p | rol p | ror p =>
    simp only [exec_asl, exec_lsr, exec_rol, exec_ror] at h
    cases p
    · exact (shiftClass_acc_finished h).pc
    · exact (shiftClass_mem_finished h).pc
  case tax | tay | txa | tya | tsx | txs | pha | php | pla | plp | inx | iny | dex | dey | clc | cld | cli | clv | sec |
      sed | sei | nop =>
    simp only [exec_tax, exec_tay, exec_txa, exec_tya, exec_tsx, exec_txs, exec_pha, exec_php, exec_pla, exec_plp,
      exec_inx, exec_iny, exec_dex, exec_dey, exec_clc, exec_cld, exec_cli, exec_clv, exec_sec, exec_sed, exec_sei,
      exec_nop] at h
    exact (impliedClass_finished h).pc

/-! ### The byte registers -/

@[simp] theorem State.suspendEntry_a (s : State) (c : SuspendCause) : (s.suspendEntry c).a = s.a := by
  rw [(suspendEntry_spec s c).2.1]

@[simp] theorem State.suspendEntry_x (s : State) (c : SuspendCause) : (s.suspendEntry c).x = s.x := by
  rw [(suspendEntry_spec s c).2.1]

@[simp] theorem State.suspendEntry_y (s : State) (c : SuspendCause) : (s.suspendEntry c).y = s.y := by
  rw [(suspendEntry_spec s c).2.1]

@[simp] theorem State.suspendEntry_p (s : State) (c : SuspendCause) :
    (s.suspendEntry c).p = putFlag s.p .i true := by
  rw [(suspendEntry_spec s c).2.1]

/-- Settles O17: the end of an instruction changes no byte register, so only what its body sets can have changed. -/
theorem registersChangeOnlyByTheirWriters : Obligations.RegistersChangeOnlyByTheirWriters := by
  intro i s t h
  cases i
  case lda | ldx | ldy | adc | sbc | and | ora | eor | bit | cmp | cpx | cpy =>
    simp only [exec_lda, exec_ldx, exec_ldy, exec_adc, exec_sbc, exec_and, exec_ora, exec_eor, exec_bit, exec_cmp,
      exec_cpx, exec_cpy] at h
    obtain ⟨⟨ha, hx, hy, hsp, -⟩, -⟩ := readClass_finished h
    simp [ha, hx, hy, hsp, Instr.mnemonic]
  case sta | stx | sty =>
    simp only [exec_sta, exec_stx, exec_sty] at h
    obtain ⟨⟨ha, hx, hy, hsp, -⟩, -⟩ := writeClass_finished h
    simp [ha, hx, hy, hsp]
  case inc | dec =>
    simp only [exec_inc, exec_dec] at h
    obtain ⟨⟨ha, hx, hy, hsp, -⟩, -⟩ := modifyMemClass_finished h
    simp [ha, hx, hy, hsp, modifyMem]
  case asl p | lsr p | rol p | ror p =>
    simp only [exec_asl, exec_lsr, exec_rol, exec_ror] at h
    cases p
    · obtain ⟨⟨-, hx, hy, hsp, -⟩, -⟩ := shiftClass_acc_finished h
      simp [hx, hy, hsp, modifyAcc, Instr.mode, Place.mode]
    · obtain ⟨⟨ha, hx, hy, hsp, -⟩, -⟩ := shiftClass_mem_finished h
      simp [ha, hx, hy, hsp, modifyMem]
  case tax | tay | txa | tya | tsx | txs | pha | php | pla | plp | inx | iny | dex | dey | clc | cld | cli | clv | sec |
      sed | sei | nop =>
    simp only [exec_tax, exec_tay, exec_txa, exec_tya, exec_tsx, exec_txs, exec_pha, exec_php, exec_pla, exec_plp,
      exec_inx, exec_iny, exec_dex, exec_dey, exec_clc, exec_cld, exec_cli, exec_clv, exec_sec, exec_sed, exec_sei,
      exec_nop] at h
    obtain ⟨⟨ha, hx, hy, hsp, -⟩, -⟩ := impliedClass_finished h
    simp [ha, hx, hy, hsp, Instr.mnemonic]
  case bcc | bcs | beq | bmi | bne | bpl | bvc | bvs =>
    simp only [exec_bcc, exec_bcs, exec_beq, exec_bmi, exec_bne, exec_bpl, exec_bvc, exec_bvs] at h
    obtain ⟨ha, hx, hy, hsp, -⟩ := branchClass_registers h
    simp [ha, hx, hy, hsp]
  case jmp | jsr | rti | brk | ill =>
    simp only [exec_jmp, exec_jsr, exec_rti, exec_brk, exec_ill] at h
    obtain ⟨ha, hx, hy, hsp, -⟩ := transferClass_registers h
    simp [ha, hx, hy, hsp, Instr.mnemonic, State.pushWord, returnFromInterrupt_eq]
  case rts =>
    rw [exec_rts] at h
    obtain ⟨ha, hx, hy, -, -⟩ := transferClass_registers h
    cases hempty : rtsFindsEmptyStack s <;>
      simp [ha, hx, hy, hempty, Instr.mnemonic, returnFromSubroutine, pullWord_eq]

/-! ### The flags -/

/-- From `p` to `q` no flag changes but those of `l`. -/
def OnlyFlags (l : List Flag) (p q : Byte) : Prop := ∀ f, f ∉ l → getFlag q f = getFlag p f

section
variable {l : List Flag} {p q : Byte}

theorem OnlyFlags.refl : OnlyFlags l p p := fun _ _ => rfl

theorem OnlyFlags.putFlag (h : OnlyFlags l p q) (f : Flag) (v : Bool) (hf : f ∈ l := by simp) :
    OnlyFlags l p (putFlag q f v) := by
  intro g hg
  have hne : g ≠ f := fun e => hg (e ▸ hf)
  rw [getFlag_putFlag, if_neg hne, h g hg]

theorem OnlyFlags.putNZ (h : OnlyFlags l p q) (v : Byte) (hn : .n ∈ l := by simp) (hz : .z ∈ l := by simp) :
    OnlyFlags l p (putNZ q v) := (h.putFlag .n v.msb hn).putFlag .z (v == 0) hz

end

theorem putFlag_onlyFlags (p : Byte) (f : Flag) (v : Bool) : OnlyFlags [f] p (putFlag p f v) :=
  OnlyFlags.refl.putFlag f v

theorem putNZ_onlyFlags (p v : Byte) : OnlyFlags [.n, .z] p (putNZ p v) := OnlyFlags.refl.putNZ v

theorem adcResult_onlyFlags (mode : DecimalMode) (a m p : Byte) :
    OnlyFlags [.n, .v, .z, .c] p (adcResult mode a m p).2 := by
  unfold adcResult
  split
  · dsimp only [adcDecimal]
    exact (((OnlyFlags.refl.putFlag .z _).putFlag .n _).putFlag .v _).putFlag .c _
  · exact ((OnlyFlags.refl.putFlag .c _).putFlag .v _).putNZ _

theorem sbcResult_onlyFlags (mode : DecimalMode) (a m p : Byte) :
    OnlyFlags [.n, .v, .z, .c] p (sbcResult mode a m p).2 := by
  unfold sbcResult
  split <;> exact ((OnlyFlags.refl.putFlag .c _).putFlag .v _).putNZ _

theorem compareFlags_onlyFlags (r m p : Byte) : OnlyFlags [.n, .z, .c] p (compareFlags r m p) :=
  ((OnlyFlags.refl.putFlag .c _).putFlag .z _).putFlag .n _

theorem bitFlags_onlyFlags (a m p : Byte) : OnlyFlags [.n, .v, .z] p (bitFlags a m p) :=
  ((OnlyFlags.refl.putFlag .n _).putFlag .v _).putFlag .z _

/-- The flags of a shift's result: C, then N and Z (R195 to R198). -/
theorem putC_putNZ_onlyFlags (p v : Byte) (c : Bool) : OnlyFlags [.n, .z, .c] p (putNZ (putFlag p .c c) v) :=
  (OnlyFlags.refl.putFlag .c c).putNZ v

/-- The end of an instruction writes no flag. -/
theorem SameRegisters.onlyFlags {l : List Flag} {p : Byte} {u t : State} (r : SameRegisters u t)
    (h : OnlyFlags l p u.p) : OnlyFlags l p t.p := r.p ▸ h

/-- The flags an instruction writes: R25 to R32 read by mnemonic. -/
def flagsWritten : Mnemonic → List Flag
  | .PLP | .RTI => [.n, .v, .u, .b, .d, .i, .z, .c]
  | .ADC | .SBC => [.n, .v, .z, .c]
  | .BIT => [.n, .v, .z]
  | .CMP | .CPX | .CPY | .ASL | .LSR | .ROL | .ROR => [.n, .z, .c]
  | .AND | .ORA | .EOR | .INC | .DEC | .INX | .INY | .DEX | .DEY | .LDA | .LDX | .LDY | .PLA | .TAX | .TAY | .TSX | .TXA
  | .TYA => [.n, .z]
  | .CLV => [.v]
  | .CLD | .SED => [.d]
  | .CLI | .SEI | .BRK | .ILL => [.i]
  | .CLC | .SEC => [.c]
  | .STA | .STX | .STY | .TXS | .PHA | .PHP | .BCC | .BCS | .BEQ | .BMI | .BNE | .BPL | .BVC | .BVS | .JMP | .JSR | .RTS
  | .NOP => []

/-- An instruction changes no flag but those `flagsWritten` lists for it. -/
theorem exec_onlyFlags {i : Instr} {s t : State} (h : exec i s = .next t) :
    OnlyFlags (flagsWritten i.mnemonic) s.p t.p := by
  cases i
  case plp | rti => intro f hf; cases f <;> simp [Instr.mnemonic, flagsWritten] at hf
  case adc => rw [exec_adc] at h; exact (readClass_finished h).onlyFlags (adcResult_onlyFlags _ _ _ _)
  case sbc => rw [exec_sbc] at h; exact (readClass_finished h).onlyFlags (sbcResult_onlyFlags _ _ _ _)
  case bit => rw [exec_bit] at h; exact (readClass_finished h).onlyFlags (bitFlags_onlyFlags _ _ _)
  case cmp | cpx | cpy =>
    simp only [exec_cmp, exec_cpx, exec_cpy] at h
    exact (readClass_finished h).onlyFlags (compareFlags_onlyFlags _ _ _)
  case and | ora | eor | lda | ldx | ldy =>
    simp only [exec_and, exec_ora, exec_eor, exec_lda, exec_ldx, exec_ldy] at h
    exact (readClass_finished h).onlyFlags (putNZ_onlyFlags _ _)
  case asl p | lsr p | rol p | ror p =>
    simp only [exec_asl, exec_lsr, exec_rol, exec_ror] at h
    cases p
    · exact (shiftClass_acc_finished h).onlyFlags (putC_putNZ_onlyFlags _ _ _)
    · exact (shiftClass_mem_finished h).onlyFlags (putC_putNZ_onlyFlags _ _ _)
  case inc | dec =>
    simp only [exec_inc, exec_dec] at h
    exact (modifyMemClass_finished h).onlyFlags (putNZ_onlyFlags _ _)
  case inx | iny | dex | dey | pla | tax | tay | tsx | txa | tya =>
    simp only [exec_inx, exec_iny, exec_dex, exec_dey, exec_pla, exec_tax, exec_tay, exec_tsx, exec_txa, exec_tya] at h
    exact (impliedClass_finished h).onlyFlags (putNZ_onlyFlags _ _)
  case clv | cld | sed | cli | sei | clc | sec =>
    simp only [exec_clv, exec_cld, exec_sed, exec_cli, exec_sei, exec_clc, exec_sec] at h
    exact (impliedClass_finished h).onlyFlags (putFlag_onlyFlags _ _ _)
  case brk | ill =>
    simp only [exec_brk, exec_ill] at h
    refine (transferClass_registers h).onlyFlags ?_
    rw [State.suspendEntry_p]
    exact putFlag_onlyFlags _ _ _
  case txs | pha | php | nop =>
    simp only [exec_txs, exec_pha, exec_php, exec_nop] at h
    exact (impliedClass_finished h).onlyFlags .refl
  case sta | stx | sty =>
    simp only [exec_sta, exec_stx, exec_sty] at h
    exact (writeClass_finished h).onlyFlags .refl
  case bcc | bcs | beq | bmi | bne | bpl | bvc | bvs =>
    simp only [exec_bcc, exec_bcs, exec_beq, exec_bmi, exec_bne, exec_bpl, exec_bvc, exec_bvs] at h
    exact (branchClass_registers h).onlyFlags .refl
  case jmp | jsr =>
    simp only [exec_jmp, exec_jsr] at h
    exact (transferClass_registers h).onlyFlags .refl
  case rts =>
    rw [exec_rts] at h
    refine (transferClass_registers h).onlyFlags ?_
    cases rtsFindsEmptyStack s <;> exact .refl

/-- Settles O16: a changed flag is one `flagsWritten` lists, and the obligation's table is that one read by flag. -/
theorem flagsChangeOnlyByTheirWriters : Obligations.FlagsChangeOnlyByTheirWriters := by
  intro i s t f h hne
  have hf : f ∈ flagsWritten i.mnemonic := by
    by_contra hf
    exact hne (exec_onlyFlags h f hf)
  generalize i.mnemonic = mn at hf ⊢
  clear h hne
  revert f
  cases mn <;> decide

end Sys2Proof.Machine
end

section
/-!
PROOFS of the family 10_state, second part: what a step takes from the state. Two states that agree on everything but the
snapshot, the recorder and some flags stay so under every instruction; the two noninterference statements are two choices
of what the recorders and the status bytes have in common.
-/

namespace Sys2Proof.Machine

open Sys2Proof.Safety

/-! ### Status bytes that steer alike -/

/-- The flags instructions read (R25, R26, R29, R31, R32): all but I, U and B. -/
def steeringFlags : List Flag := [.n, .v, .d, .z, .c]

/-- Status bytes that agree on the steering flags. -/
def SteerAlike (p q : Byte) : Prop := ∀ f ∈ steeringFlags, getFlag q f = getFlag p f

/-- A relation of status bytes that every status computation keeps: equality is one, and `SteerAlike`. -/
structure StatusRel (E : Byte → Byte → Prop) : Prop where
  refl : ∀ p, E p p
  steer : ∀ {p q}, E p q → SteerAlike p q
  putFlag : ∀ {p q}, E p q → ∀ f v, E (putFlag p f v) (putFlag q f v)

theorem statusRel_eq : StatusRel Eq := ⟨fun _ => rfl, fun e _ _ => e ▸ rfl, fun e _ _ => e ▸ rfl⟩

theorem statusRel_steerAlike : StatusRel SteerAlike where
  refl _ _ _ := rfl
  steer h := h
  putFlag h f v g hg := by rw [getFlag_putFlag, getFlag_putFlag, h g hg]

/-- Two results of a computation on a byte and P: the same byte, and related status bytes. -/
def ResultsAlike (E : Byte → Byte → Prop) (r r' : Byte × Byte) : Prop := r'.1 = r.1 ∧ E r.2 r'.2

section
variable {E : Byte → Byte → Prop} (hE : StatusRel E) {p q : Byte} (h : E p q)
include hE h

theorem StatusRel.flag (f : Flag) (hf : f ∈ steeringFlags := by decide) : getFlag q f = getFlag p f := hE.steer h f hf

theorem StatusRel.carryIn : carryIn q = carryIn p := by rw [Machine.carryIn, hE.flag h .c, Machine.carryIn]

theorem StatusRel.putNZ (v : Byte) : E (putNZ p v) (putNZ q v) := hE.putFlag (hE.putFlag h .n v.msb) .z (v == 0)

theorem decimalActive_alike (mode : DecimalMode) : decimalActive mode q = decimalActive mode p := by
  rw [decimalActive, hE.flag h .d, decimalActive]

theorem adcBinary_alike (a m : Byte) : ResultsAlike E (adcBinary a m p) (adcBinary a m q) := by
  simp only [adcBinary, hE.carryIn h]
  exact ⟨rfl, hE.putNZ (hE.putFlag (hE.putFlag h _ _) _ _) _⟩

theorem adcDecimal_alike (a m : Byte) : ResultsAlike E (adcDecimal a m p) (adcDecimal a m q) := by
  simp only [ResultsAlike, adcDecimal, hE.carryIn h, true_and]
  exact hE.putFlag (hE.putFlag (hE.putFlag (hE.putFlag h _ _) _ _) _ _) _ _

theorem adcResult_alike (mode : DecimalMode) (a m : Byte) :
    ResultsAlike E (adcResult mode a m p) (adcResult mode a m q) := by
  rw [adcResult, adcResult, decimalActive_alike hE h]
  split
  · exact adcDecimal_alike hE h a m
  · exact adcBinary_alike hE h a m

theorem sbcFlags_alike (a m : Byte) : E (sbcFlags a m p) (sbcFlags a m q) := by
  simp only [sbcFlags, sbcSum, hE.carryIn h]
  exact hE.putNZ (hE.putFlag (hE.putFlag h _ _) _ _) _

theorem sbcResult_alike (mode : DecimalMode) (a m : Byte) :
    ResultsAlike E (sbcResult mode a m p) (sbcResult mode a m q) := by
  rw [sbcResult, sbcResult, decimalActive_alike hE h]
  split
  · exact ⟨by rw [sbcDecimal, hE.carryIn h, sbcDecimal], sbcFlags_alike hE h a m⟩
  · exact ⟨by rw [sbcBinary, sbcSum, hE.carryIn h, sbcBinary, sbcSum], sbcFlags_alike hE h a m⟩

theorem compareFlags_alike (r m : Byte) : E (compareFlags r m p) (compareFlags r m q) :=
  hE.putFlag (hE.putFlag (hE.putFlag h _ _) _ _) _ _

theorem bitFlags_alike (a m : Byte) : E (bitFlags a m p) (bitFlags a m q) :=
  hE.putFlag (hE.putFlag (hE.putFlag h _ _) _ _) _ _

theorem incResult_alike (v : Byte) : ResultsAlike E (incResult v p) (incResult v q) := ⟨rfl, hE.putNZ h _⟩

theorem decResult_alike (v : Byte) : ResultsAlike E (decResult v p) (decResult v q) := ⟨rfl, hE.putNZ h _⟩

theorem aslResult_alike (v : Byte) : ResultsAlike E (aslResult v p) (aslResult v q) :=
  ⟨rfl, hE.putNZ (hE.putFlag h _ _) _⟩

theorem lsrResult_alike (v : Byte) : ResultsAlike E (lsrResult v p) (lsrResult v q) :=
  ⟨rfl, hE.putNZ (hE.putFlag h _ _) _⟩

theorem rolResult_alike (v : Byte) : ResultsAlike E (rolResult v p) (rolResult v q) := by
  simp only [rolResult, hE.carryIn h]
  exact ⟨rfl, hE.putNZ (hE.putFlag h _ _) _⟩

theorem rorResult_alike (v : Byte) : ResultsAlike E (rorResult v p) (rorResult v q) := by
  simp only [rorResult, hE.carryIn h]
  exact ⟨rfl, hE.putNZ (hE.putFlag h _ _) _⟩

end

/-! ### States alike -/

/-- The write hook keeps the relation of the two recorders. -/
def NotifyKeeps (G : Option Recorder → Option Recorder → Prop) : Prop :=
  ∀ {r r'} (a : Addr) (v : Byte) (n : Nat), G r r' → G (r.map fun r => r.notify a v n) (r'.map fun r => r.notify a v n)

/-- Two states that agree on everything but the snapshot, their status bytes being related by `E` and their recorders by
`G`. -/
structure Alike (E : Byte → Byte → Prop) (G : Option Recorder → Option Recorder → Prop) (s s' : State) : Prop where
  a : s'.a = s.a
  x : s'.x = s.x
  y : s'.y = s.y
  sp : s'.sp = s.sp
  p : E s.p s'.p
  pc : s'.pc = s.pc
  cycles : s'.cycles = s.cycles
  suspended : s'.suspended = s.suspended
  cause : s'.cause = s.cause
  mem : s'.mem = s.mem
  recorder : G s.recorder s'.recorder
  cfg : s'.cfg = s.cfg

section
variable {E : Byte → Byte → Prop} {G : Option Recorder → Option Recorder → Prop} {s s' t : State}

namespace Alike

/-! What is read. -/

theorem read (h : Alike E G s s') (b : Addr) : s'.read b = s.read b := by rw [State.read, h.mem, State.read]

theorem resolve (h : Alike E G s s') (m : MemOp) : resolve m s' = resolve m s := by
  cases m <;> simp [Machine.resolve, State.zeroPageWord, h.read, h.x, h.y]

theorem srcValue (h : Alike E G s s') (src : Src) : srcValue src s' = srcValue src s := by
  cases src <;> simp [Machine.srcValue, h.resolve, h.read]

theorem srcCrossed (h : Alike E G s s') (src : Src) : srcCrossed src s' = srcCrossed src s := by
  cases src <;> simp [Machine.srcCrossed, h.resolve]

theorem jumpTarget (h : Alike E G s s') (tgt : Target) : jumpTarget tgt s' = jumpTarget tgt s := by
  cases tgt <;> simp [Machine.jumpTarget, h.cfg, h.read]

theorem brkTarget (h : Alike E G s s') : s'.brkTarget = s.brkTarget := by simp [State.brkTarget, h.cfg, h.read]

theorem rtsFindsEmptyStack (h : Alike E G s s') : rtsFindsEmptyStack s' = rtsFindsEmptyStack s := by
  simp [Machine.rtsFindsEmptyStack, h.sp, h.cfg]

theorem fetch (h : Alike E G s s') : s'.fetch = s.fetch := by simp [State.fetch, h.pc, h.read]

theorem pulled (h : Alike E G s s') : s'.pull.1 = s.pull.1 := by simp [h.sp, h.read]

/-! What is written. -/

theorem setA (h : Alike E G s s') {v v' : Byte} (e : v' = v) : Alike E G (s.setA v) (s'.setA v') := { h with a := e }

theorem setX (h : Alike E G s s') {v v' : Byte} (e : v' = v) : Alike E G (s.setX v) (s'.setX v') := { h with x := e }

theorem setY (h : Alike E G s s') {v v' : Byte} (e : v' = v) : Alike E G (s.setY v) (s'.setY v') := { h with y := e }

theorem setSp (h : Alike E G s s') {v v' : Byte} (e : v' = v) : Alike E G (s.setSp v) (s'.setSp v') := { h with sp := e }

theorem setP (h : Alike E G s s') {v v' : Byte} (e : E v v') : Alike E G (s.setP v) (s'.setP v') := { h with p := e }

theorem setPc (h : Alike E G s s') {v v' : Addr} (e : v' = v) : Alike E G (s.setPc v) (s'.setPc v') := { h with pc := e }

theorem addCycles (h : Alike E G s s') (n : Nat) : Alike E G (s.addCycles n) (s'.addCycles n) :=
  { h with cycles := congrArg (· + n) h.cycles }

theorem suspend (h : Alike E G s s') (c : SuspendCause) : Alike E G (s.suspend c) (s'.suspend c) :=
  { h with suspended := rfl, cause := rfl }

theorem finish (h : Alike E G s s') (d : Desc) (n : Nat) : Alike E G (s.finish d n) (s'.finish d n) :=
  (h.setPc (by rw [h.pc])).addCycles _

theorem finishTransfer (h : Alike E G s s') (d : Desc) (n : Nat) :
    Alike E G (s.finishTransfer d n) (s'.finishTransfer d n) := h.addCycles _

theorem pull (h : Alike E G s s') : Alike E G s.pull.2 s'.pull.2 := h.setSp (by rw [h.sp])

theorem setResult (h : Alike E G s s') {r r' : Byte × Byte} (hr : ResultsAlike E r r') :
    Alike E G ((s.setA r.1).setP r.2) ((s'.setA r'.1).setP r'.2) := (h.setA hr.1).setP hr.2

theorem setNZ (hE : StatusRel E) (h : Alike E G s s') {v v' : Byte} (e : v' = v) :
    Alike E G (s.setNZ v) (s'.setNZ v') := by
  subst e
  exact h.setP (hE.putNZ h.p _)

theorem write (hG : NotifyKeeps G) (h : Alike E G s s') {b b' : Addr} {v v' : Byte} (eb : b' = b) (ev : v' = v) :
    Alike E G (s.write b v) (s'.write b' v') := by
  subst eb ev
  refine { h with mem := ?_, recorder := ?_ }
  · rw [State.write_mem, h.mem, State.write_mem]
  · rw [State.write_recorder, State.write_recorder, h.cycles]
    exact hG _ _ _ h.recorder

theorem push (hG : NotifyKeeps G) (h : Alike E G s s') {v v' : Byte} (e : v' = v) :
    Alike E G (s.push v) (s'.push v') :=
  (h.write hG (by rw [h.sp]) e).setSp (by rw [h.sp])

theorem pushWord (hG : NotifyKeeps G) (h : Alike E G s s') {w w' : Addr} (e : w' = w) :
    Alike E G (s.pushWord w) (s'.pushWord w') := (h.push hG (by rw [e])).push hG (by rw [e])

theorem modifyMem (hG : NotifyKeeps G) (h : Alike E G s s') (m : MemOp) {f : Byte → Byte → Byte × Byte}
    (hf : ∀ v, ResultsAlike E (f v s.p) (f v s'.p)) : Alike E G (modifyMem m s f) (modifyMem m s' f) := by
  have hr := hf (s.read (Machine.resolve m s).ea)
  simp only [Machine.modifyMem, h.resolve, h.read]
  exact (h.write hG rfl hr.1).setP hr.2

theorem suspendEntry (hE : StatusRel E) (hG : NotifyKeeps G) (h : Alike E G s s')
    (hp : pushedStatus s'.p = pushedStatus s.p) (c : SuspendCause) : Alike E G (s.suspendEntry c) (s'.suspendEntry c) := by
  have pushes := (h.pushWord hG (congrArg (· + 2) h.pc)).push hG hp
  have flagged := pushes.setP (hE.putFlag pushes.p .i true)
  exact (flagged.setPc flagged.brkTarget).suspend c

theorem returnFromSubroutine (h : Alike E G s s') :
    Alike E G (returnFromSubroutine s) (returnFromSubroutine s') := by
  simp only [Machine.returnFromSubroutine, pullWord_eq, h.sp, h.read]
  exact (h.setSp rfl).setPc rfl

theorem returnFromInterrupt (hE : StatusRel E) (h : Alike E G s s') :
    Alike E G s.returnFromInterrupt s'.returnFromInterrupt := by
  simp only [returnFromInterrupt_eq, h.sp, h.read]
  exact { h with sp := rfl, p := hE.refl _, pc := rfl }

end Alike

/-! ### The operand classes -/

/-- Where the one outcome is a next state, the other is one alike. -/
def OutcomesAlike (E : Byte → Byte → Prop) (G : Option Recorder → Option Recorder → Prop)
    (o o' : Host.Outcome State Fault Refusal) : Prop := ∀ t, o = .next t → ∃ t', o' = .next t' ∧ Alike E G t t'

section
variable {i : Instr}

theorem withRow_alike {k k' : Desc → State} (hk : ∀ d, Alike E G (k d) (k' d)) :
    OutcomesAlike E G (withRow i k) (withRow i k') := by
  intro t h
  obtain ⟨d, hd, rfl⟩ := withRow_next.1 h
  exact ⟨k' d, withRow_of_desc k' hd, hk d⟩

theorem readClass_alike {src : Src} {k k' : Byte → State} (hs : Alike E G s s') (hk : ∀ m, Alike E G (k m) (k' m)) :
    OutcomesAlike E G (readClass i src s k) (readClass i src s' k') := by
  refine withRow_alike fun d => ?_
  rw [hs.srcValue, hs.srcCrossed]
  exact (hk _).finish d _

theorem writeClass_alike {m : MemOp} {v v' : Byte} (hG : NotifyKeeps G) (hs : Alike E G s s') (e : v' = v) :
    OutcomesAlike E G (writeClass i m v s) (writeClass i m v' s') := by
  refine withRow_alike fun d => ?_
  rw [hs.resolve]
  exact (hs.write hG rfl e).finish d _

theorem modifyMemClass_alike {m : MemOp} {f : Byte → Byte → Byte × Byte} (hG : NotifyKeeps G) (hs : Alike E G s s')
    (hf : ∀ v, ResultsAlike E (f v s.p) (f v s'.p)) :
    OutcomesAlike E G (modifyMemClass i m s f) (modifyMemClass i m s' f) := by
  refine withRow_alike fun d => ?_
  rw [hs.resolve]
  exact (hs.modifyMem hG m hf).finish d _

theorem shiftClass_alike {place : Place} {f : Byte → Byte → Byte × Byte} (hG : NotifyKeeps G) (hs : Alike E G s s')
    (hf : ∀ v, ResultsAlike E (f v s.p) (f v s'.p)) :
    OutcomesAlike E G (shiftClass i place s f) (shiftClass i place s' f) := by
  cases place with
  | acc =>
    refine withRow_alike fun d => Alike.finish ?_ d 0
    rw [modifyAcc, modifyAcc, hs.a]
    exact hs.setResult (hf s.a)
  | mem m => exact modifyMemClass_alike hG hs hf

theorem impliedClass_alike {u u' : State} (hu : Alike E G u u') :
    OutcomesAlike E G (impliedClass i u) (impliedClass i u') := withRow_alike fun d => hu.finish d 0

theorem transferClass_alike {u u' : State} (hu : Alike E G u u') :
    OutcomesAlike E G (transferClass i u) (transferClass i u') := withRow_alike fun d => hu.finishTransfer d 0

theorem branchClass_alike {taken taken' : Bool} {offset : Byte} (hs : Alike E G s s') (e : taken' = taken) :
    OutcomesAlike E G (branchClass i taken offset s) (branchClass i taken' offset s') := by
  subst e
  refine withRow_alike fun d => ?_
  rw [hs.pc]
  cases taken'
  · exact hs.finish d 0
  · exact (hs.setPc rfl).finishTransfer d _

end

/-! ### Every instruction -/

/-- An instruction takes alike states to alike states; one that pushes P only if the byte it pushes is the same. -/
theorem exec_alike {i : Instr} (hE : StatusRel E) (hG : NotifyKeeps G) (hs : Alike E G s s')
    (hp : i.mnemonic ∈ [Mnemonic.PHP, .BRK, .ILL] → pushedStatus s'.p = pushedStatus s.p) :
    OutcomesAlike E G (exec i s) (exec i s') := by
  cases i
  all_goals
    simp only [exec_lda, exec_ldx, exec_ldy, exec_sta, exec_stx, exec_sty, exec_tax, exec_tay, exec_txa, exec_tya,
      exec_tsx, exec_txs, exec_pha, exec_php, exec_pla, exec_plp, exec_adc, exec_sbc, exec_and, exec_ora, exec_eor,
      exec_bit, exec_cmp, exec_cpx, exec_cpy, exec_inc, exec_dec, exec_inx, exec_iny, exec_dex, exec_dey, exec_asl,
      exec_lsr, exec_rol, exec_ror, exec_bcc, exec_bcs, exec_beq, exec_bmi, exec_bne, exec_bpl, exec_bvc, exec_bvs,
      exec_jmp, exec_jsr, exec_rts, exec_rti, exec_clc, exec_cld, exec_cli, exec_clv, exec_sec, exec_sed, exec_sei,
      exec_nop, exec_brk, exec_ill]
  -- loads, stores and transfers
  case lda => exact readClass_alike hs fun m => (hs.setA rfl).setNZ hE rfl
  case ldx => exact readClass_alike hs fun m => (hs.setX rfl).setNZ hE rfl
  case ldy => exact readClass_alike hs fun m => (hs.setY rfl).setNZ hE rfl
  case sta => exact writeClass_alike hG hs hs.a
  case stx => exact writeClass_alike hG hs hs.x
  case sty => exact writeClass_alike hG hs hs.y
  case tax => exact impliedClass_alike ((hs.setX hs.a).setNZ hE hs.a)
  case tay => exact impliedClass_alike ((hs.setY hs.a).setNZ hE hs.a)
  case txa => exact impliedClass_alike ((hs.setA hs.x).setNZ hE hs.x)
  case tya => exact impliedClass_alike ((hs.setA hs.y).setNZ hE hs.y)
  case tsx => exact impliedClass_alike ((hs.setX hs.sp).setNZ hE hs.sp)
  case txs => exact impliedClass_alike (hs.setSp hs.x)
  -- stack
  case pha => exact impliedClass_alike (hs.push hG hs.a)
  case php => exact impliedClass_alike (hs.push hG (hp (by simp [Instr.mnemonic])))
  case pla => exact impliedClass_alike ((hs.pull.setA hs.pulled).setNZ hE hs.pulled)
  case plp => exact impliedClass_alike (hs.pull.setP (by rw [hs.pulled]; exact hE.refl _))
  -- arithmetic and logic
  case adc => exact readClass_alike hs fun m => hs.setResult (by rw [hs.cfg, hs.a]; exact adcResult_alike hE hs.p ..)
  case sbc => exact readClass_alike hs fun m => hs.setResult (by rw [hs.cfg, hs.a]; exact sbcResult_alike hE hs.p ..)
  case and => exact readClass_alike hs fun m => (hs.setA (by rw [hs.a])).setNZ hE (by rw [hs.a])
  case ora => exact readClass_alike hs fun m => (hs.setA (by rw [hs.a])).setNZ hE (by rw [hs.a])
  case eor => exact readClass_alike hs fun m => (hs.setA (by rw [hs.a])).setNZ hE (by rw [hs.a])
  case bit => exact readClass_alike hs fun m => hs.setP (by rw [hs.a]; exact bitFlags_alike hE hs.p ..)
  case cmp => exact readClass_alike hs fun m => hs.setP (by rw [hs.a]; exact compareFlags_alike hE hs.p ..)
  case cpx => exact readClass_alike hs fun m => hs.setP (by rw [hs.x]; exact compareFlags_alike hE hs.p ..)
  case cpy => exact readClass_alike hs fun m => hs.setP (by rw [hs.y]; exact compareFlags_alike hE hs.p ..)
  case inc => exact modifyMemClass_alike hG hs (incResult_alike hE hs.p)
  case dec => exact modifyMemClass_alike hG hs (decResult_alike hE hs.p)
  case inx => exact impliedClass_alike ((hs.setX (by rw [hs.x])).setNZ hE (by rw [hs.x]))
  case iny => exact impliedClass_alike ((hs.setY (by rw [hs.y])).setNZ hE (by rw [hs.y]))
  case dex => exact impliedClass_alike ((hs.setX (by rw [hs.x])).setNZ hE (by rw [hs.x]))
  case dey => exact impliedClass_alike ((hs.setY (by rw [hs.y])).setNZ hE (by rw [hs.y]))
  -- shifts and rotates
  case asl => exact shiftClass_alike hG hs (aslResult_alike hE hs.p)
  case lsr => exact shiftClass_alike hG hs (lsrResult_alike hE hs.p)
  case rol => exact shiftClass_alike hG hs (rolResult_alike hE hs.p)
  case ror => exact shiftClass_alike hG hs (rorResult_alike hE hs.p)
  -- control
  case bcc | bcs => exact branchClass_alike hs (by rw [hE.flag hs.p .c])
  case beq | bne => exact branchClass_alike hs (by rw [hE.flag hs.p .z])
  case bmi | bpl => exact branchClass_alike hs (by rw [hE.flag hs.p .n])
  case bvc | bvs => exact branchClass_alike hs (by rw [hE.flag hs.p .v])
  case jmp => exact transferClass_alike (hs.setPc (hs.jumpTarget _))
  case jsr => exact transferClass_alike ((hs.pushWord hG (by rw [hs.pc])).setPc rfl)
  case rts =>
    rw [hs.rtsFindsEmptyStack]
    split
    · exact transferClass_alike (hs.suspend _)
    · exact transferClass_alike hs.returnFromSubroutine
  case rti => exact transferClass_alike (hs.returnFromInterrupt hE)
  -- flags, NOP, BRK and the illegal opcodes
  case clc | cld | cli | clv | sec | sed | sei => exact impliedClass_alike (hs.setP (hE.putFlag hs.p _ _))
  case nop => exact impliedClass_alike hs
  case brk | ill => exact transferClass_alike (hs.suspendEntry hE hG (hp (by simp [Instr.mnemonic])) _)

/-- A step takes alike states with the same P to alike states. -/
theorem step_alike (hG : NotifyKeeps G) (hs : Alike Eq G s s') : OutcomesAlike Eq G (step s) (step s') := by
  cases hrun : s.suspended
  · rw [step_running hrun, step_running (hs.suspended.trans hrun), hs.fetch]
    exact exec_alike statusRel_eq hG hs fun _ => by rw [hs.p]
  · rw [step_suspended hrun, step_suspended (hs.suspended.trans hrun)]
    rintro t ⟨⟩
    exact ⟨s', rfl, hs⟩

end

/-- Settles O20: `SteerAlike` is kept by every instruction that does not push P. -/
theorem interruptAndUnusedFlagsSteerNothing : Obligations.InterruptAndUnusedFlagsSteerNothing := by
  intro i s t p hi hp h
  have hs : Alike SteerAlike Eq s { s with p := p } := ⟨rfl, rfl, rfl, rfl, hp, rfl, rfl, rfl, rfl, rfl, rfl, rfl⟩
  have hG : NotifyKeeps Eq := by rintro r _ a v n rfl; rfl
  obtain ⟨t', h', ht⟩ := exec_alike statusRel_steerAlike hG hs (absurd · hi) t h
  obtain ⟨_, -, e⟩ := exec_effect h
  obtain ⟨_, -, e'⟩ := exec_effect h'
  have hsnap : t'.snapshot = t.snapshot := e'.snapshot.trans e.snapshot.symm
  refine ⟨t'.p, h'.trans (congrArg _ ?_), ht.p⟩
  exact State.ext ht.a ht.x ht.y ht.sp rfl ht.pc ht.cycles ht.suspended ht.cause ht.mem hsnap ht.recorder.symm ht.cfg

/-! ### The host's state -/

/-- What a step does to the host's state: it makes stores, and leaves the parameters and the snapshot alone. -/
theorem step_host {s t : State} (h : step s = .next t) :
    (∃ ws, StoresExactly s t ws) ∧ t.cfg = s.cfg ∧ t.snapshot = s.snapshot := by
  cases hrun : s.suspended
  · rw [step_running hrun] at h
    obtain ⟨_, -, e⟩ := exec_effect h
    obtain ⟨ws, -, hws⟩ := e.stores
    exact ⟨⟨ws, hws⟩, e.cfg, e.snapshot⟩
  · rw [step_suspended hrun] at h
    cases h
    exact ⟨⟨[], storesExactly_nil rfl rfl⟩, rfl, rfl⟩

/-- A recorder with its indicator set to `b`. -/
def withIndicator (b : Bool) (r : Recorder) : Recorder := { r with reachedMaxCycles := b }

/-- The indicator decides nothing of what is logged (R265). -/
theorem notify_withIndicator (r : Recorder) (b : Bool) (a : Addr) (v : Byte) (n : Nat) :
    (withIndicator b r).notify a v n = withIndicator b (r.notify a v n) := by
  rw [notify_eq, notify_eq]
  rfl

/-- The write hook keeps two recorders that differ in the indicator alone. -/
theorem notifyKeeps_withIndicator (b : Bool) : NotifyKeeps fun r r' => r' = r.map (withIndicator b) := by
  rintro r _ a v n rfl
  cases r
  · rfl
  · exact congrArg some (notify_withIndicator _ b a v n)

/-- A step takes nothing from the snapshot slot or the recorder. -/
theorem step_any_snapshot_recorder {s t : State} (h : step s = .next t) (m : Option Memory) (r : Option Recorder) :
    ∃ r', step { s with snapshot := m, recorder := r } = .next { t with snapshot := m, recorder := r' } := by
  have hs : Alike Eq (fun _ _ => True) s { s with snapshot := m, recorder := r } :=
    ⟨rfl, rfl, rfl, rfl, rfl, rfl, rfl, rfl, rfl, rfl, trivial, rfl⟩
  obtain ⟨t', h', ht⟩ := step_alike (fun _ _ _ _ => trivial) hs t h
  have hsnap : t'.snapshot = m := (step_host h').2.2
  refine ⟨t'.recorder, h'.trans (congrArg _ ?_)⟩
  exact State.ext ht.a ht.x ht.y ht.sp ht.p.symm ht.pc ht.cycles ht.suspended ht.cause ht.mem hsnap rfl ht.cfg

/-- A step takes nothing from the indicator, and leaves it as it is. -/
theorem step_any_indicator {s t : State} (h : step s = .next t) {r r' : Recorder} (hr : s.recorder = some r)
    (hr' : t.recorder = some r') (b : Bool) :
    step { s with recorder := some (withIndicator b r) } = .next { t with recorder := some (withIndicator b r') } := by
  have hs : Alike Eq (fun r r' => r' = r.map (withIndicator b)) s { s with recorder := some (withIndicator b r) } :=
    ⟨rfl, rfl, rfl, rfl, rfl, rfl, rfl, rfl, rfl, rfl, by rw [hr]; rfl, rfl⟩
  obtain ⟨t', h', ht⟩ := step_alike (notifyKeeps_withIndicator b) hs t h
  have hsnap : t'.snapshot = t.snapshot := (step_host h').2.2.trans (step_host h).2.2.symm
  have hrec : t'.recorder = some (withIndicator b r') := by rw [ht.recorder, hr']; rfl
  refine h'.trans (congrArg _ ?_)
  exact State.ext ht.a ht.x ht.y ht.sp ht.p.symm ht.pc ht.cycles ht.suspended ht.cause ht.mem hsnap hrec ht.cfg

/-- Settles O14: a step's stores only append to the log, and it takes alike states to alike states. -/
theorem stepsLeaveTheHostsStateAlone : Obligations.StepsLeaveTheHostsStateAlone := by
  intro s t h
  obtain ⟨⟨ws, hws⟩, hcfg, hsnap⟩ := step_host h
  refine ⟨hcfg, hsnap, ⟨fun ht => ?_, hws.unbound⟩, fun r r' hr hr' => ?_, step_any_snapshot_recorder h,
    fun r b hr => ⟨_, hws.logged r hr, step_any_indicator h hr (hws.logged r hr) b⟩⟩
  · cases hr : s.recorder with
    | none => rfl
    | some r => simp [hws.logged r hr] at ht
  · rw [hws.logged r hr] at hr'
    cases hr'
    exact ⟨rfl, rfl, rfl⟩

end Sys2Proof.Machine
end

section
/-!
PROOFS of the family 10_state, third part: V of a binary addition or subtraction is signed overflow. Both are one sum
with carry, SBC's being that of A and the complement of the operand.
-/

namespace Sys2Proof.Machine

/-- A mask of bit 7 tests the sign. -/
theorem and_0x80_ne_zero (x : Byte) : (x &&& 0x80 != 0) = x.msb := by
  revert x
  decide

/-- The signed reading of a byte is its unsigned value, less 256 where the sign is set. -/
theorem msb_toInt_cases (x : Byte) :
    (x.msb = false ∧ x.toNat < 128 ∧ x.toInt = x.toNat) ∨
      (x.msb = true ∧ 128 ≤ x.toNat ∧ x.toInt = x.toNat - 256) := by
  have hlt := x.isLt
  rw [BitVec.msb_eq_decide, BitVec.toInt_eq_toNat_cond]
  by_cases h : 128 ≤ x.toNat
  · exact .inr ⟨by simpa using h, h, by rw [if_neg (by omega)]; rfl⟩
  · exact .inl ⟨by simpa using h, by omega, if_pos (by omega)⟩

/-- A sum with carry differs in sign from both its operands exactly if it is not the exact signed sum: once the three signs
are known, the signed readings are linear in the unsigned ones. -/
theorem sum_overflow_iff {a m r : Byte} {c : Bool} (hr : r.toNat = (a.toNat + m.toNat + c.toNat) % 256) :
    ((a.msb ^^ r.msb) && (m.msb ^^ r.msb)) = true ↔ r.toInt ≠ a.toInt + m.toInt + c.toNat := by
  have hc := c.toNat_le
  rcases msb_toInt_cases a with ⟨ha, _, _⟩ | ⟨ha, _, _⟩ <;> rcases msb_toInt_cases m with ⟨hm, _, _⟩ | ⟨hm, _, _⟩ <;>
    rcases msb_toInt_cases r with ⟨hs, _, _⟩ | ⟨hs, _, _⟩ <;> simp [ha, hm, hs] <;> omega

/-- The signed reading of the complement. -/
theorem toInt_complement (m : Byte) : (~~~m).toInt = -m.toInt - 1 := by
  have hm := BitVec.toNat_not (x := m)
  rcases msb_toInt_cases m with ⟨_, _, _⟩ | ⟨_, _, _⟩ <;> rcases msb_toInt_cases (~~~m) with ⟨_, _, _⟩ | ⟨_, _, _⟩ <;> omega

/-- V after a binary ADC, by signs (R170). -/
theorem adcBinary_v (a m p : Byte) :
    getFlag (adcBinary a m p).2 .v =
      ((a.msb ^^ (adcBinary a m p).1.msb) && (m.msb ^^ (adcBinary a m p).1.msb)) := by
  simp only [adcBinary, getFlag_putNZ, getFlag_putFlag, and_0x80_ne_zero, BitVec.msb_and, BitVec.msb_xor, reduceCtorEq,
    if_true, if_false]

/-- V after a binary SBC, by signs (R173), in the form of a sum of A and the complement. -/
theorem sbcBinary_v (a m p : Byte) :
    getFlag (sbcBinary a m p).2 .v =
      ((a.msb ^^ (sbcBinary a m p).1.msb) && ((~~~m).msb ^^ (sbcBinary a m p).1.msb)) := by
  have signs : ∀ a m r : Bool, ((a ^^ m) && (a ^^ r)) = ((a ^^ r) && (!m ^^ r)) := by decide
  have msb_complement : (~~~m).msb = !m.msb := by simp
  rw [msb_complement, ← signs]
  simp only [sbcBinary, sbcFlags, getFlag_putNZ, getFlag_putFlag, and_0x80_ne_zero, BitVec.msb_and, BitVec.msb_xor,
    reduceCtorEq, if_true, if_false]

/-- V after a binary ADC is signed overflow. -/
theorem adcBinary_overflow (a m p : Byte) :
    getFlag (adcBinary a m p).2 .v = true ↔
      (adcBinary a m p).1.toInt ≠ a.toInt + m.toInt + (getFlag p .c).toNat := by
  rw [adcBinary_v]
  exact sum_overflow_iff (BitVec.toNat_ofNat ..)

/-- V after a binary SBC is signed overflow. -/
theorem sbcBinary_overflow (a m p : Byte) :
    getFlag (sbcBinary a m p).2 .v = true ↔
      (sbcBinary a m p).1.toInt ≠ a.toInt - m.toInt - (1 - (getFlag p .c).toNat) := by
  have sum_eq : a.toInt - m.toInt - (1 - (getFlag p .c).toNat) = a.toInt + (~~~m).toInt + (getFlag p .c).toNat := by
    rw [toInt_complement]
    omega
  rw [sbcBinary_v, sum_eq]
  exact sum_overflow_iff (BitVec.toNat_ofNat ..)

/-- With D clear, or in binary mode, ADC and SBC do binary arithmetic (R170, R173). -/
theorem decimalActive_eq_false {mode : DecimalMode} {p : Byte} (h : getFlag p .d = false ∨ mode = .binary) :
    decimalActive mode p = false := by
  rcases h with h | rfl
  · rw [decimalActive, h, Bool.false_and]
  · exact Bool.and_false _

/-- Settles O34: on the immediate form, ADC and SBC leave A and P as the binary computation makes them. -/
theorem overflowFlagIsSignedOverflow : Obligations.OverflowFlagIsSignedOverflow := by
  intro n s hbin
  have hd := decimalActive_eq_false hbin
  have hadc : adcResult s.cfg.decimalMode s.a n s.p = adcBinary s.a n s.p := by rw [adcResult, hd]; rfl
  have hsbc : sbcResult s.cfg.decimalMode s.a n s.p = sbcBinary s.a n s.p := by rw [sbcResult, hd]; rfl
  constructor
  · refine ⟨_, (exec_adc ..).trans (readClass_next.2 ⟨⟨.ADC, .imm, 2, 0⟩, rfl, rfl⟩), ?_⟩
    simpa [srcValue, hadc] using adcBinary_overflow s.a n s.p
  · refine ⟨_, (exec_sbc ..).trans (readClass_next.2 ⟨⟨.SBC, .imm, 2, 0⟩, rfl, rfl⟩), ?_⟩
    simpa [srcValue, hsbc] using sbcBinary_overflow s.a n s.p

end Sys2Proof.Machine
end

section
/-!
PROOFS of the family 20_memory, first part: the machine's invariant under the steps, the repetitions of a Capture and
every other host call.
-/

namespace Sys2Proof.Machine

open Sys2Proof.Safety

section
variable {s t : State}

/-! ### Steps -/

/-- What all instructions have in common keeps the invariant: the log grows by captured writes only. -/
theorem Effect.keeps_stateInv {d : Desc} {c : Option SuspendCause} (e : Effect s t d c) (hs : StateInv s) :
    StateInv t where
  memory := e.memory hs.memory
  snapshot := e.snapshot ▸ hs.snapshot
  cause := by
    have hsus := e.suspends
    cases c
    · obtain ⟨hsame, hcause⟩ := hsus
      rw [hsame, hcause, hs.cause]
    · obtain ⟨htrue, hcause⟩ := hsus
      rw [htrue, hcause]
      rfl
  log r hr := by
    obtain ⟨ws, -, hws⟩ := e.stores
    cases hq : s.recorder with
    | none => simp [hws.unbound hq] at hr
    | some q =>
      rw [hws.logged q hq] at hr
      cases hr
      exact logOk_captured (hs.log q hq) (le_trans (Nat.le_add_right _ _) e.atLeast) ws

/-- Every step keeps the invariant. -/
theorem step_keeps_stateInv (hs : StateInv s) (h : step s = .next t) : StateInv t := by
  cases hrun : s.suspended
  · rw [step_running hrun] at h
    obtain ⟨_, -, e⟩ := exec_effect h
    exact e.keeps_stateInv hs
  · rw [step_suspended hrun] at h
    cases h
    exact hs

/-! ### Capture -/

/-- What the host does at the start of a repetition: no log entry is after the counter, which is never set back. -/
theorem stateInv_startRepetition (hs : StateInv s) (n : Nat) (entry : Addr) (seed : Byte) :
    StateInv ((s.forceCycles n).startRepetition entry seed) where
  memory := hs.memory
  snapshot := hs.snapshot
  cause := rfl
  log r hr := logOk_mono (hs.log r hr) (le_max_left _ _)

/-- Setting the indicator at the end of a window touches nothing the invariant speaks of. -/
theorem stateInv_noteWindowEnd (hs : StateInv s) : StateInv s.noteWindowEnd where
  memory := by simpa using hs.memory
  snapshot := by simpa using hs.snapshot
  cause := by simpa using hs.cause
  log r hr := by
    simp only [State.noteWindowEnd_eq, Option.map_eq_some_iff] at hr ⊢
    obtain ⟨q, hq, rfl⟩ := hr
    obtain ⟨hin, hord, hlate⟩ := hs.log q hq
    exact ⟨hin, hord, hlate⟩

theorem runRepetition_keeps_stateInv {entry : Addr} {seed : Byte} {reps k : Nat} (hs : StateInv s)
    (h : runRepetition entry seed reps k s = .next t) : StateInv t := by
  obtain ⟨u, hu, rfl⟩ := runRepetition_next h
  exact stateInv_noteWindowEnd
    (runsWindow_keeps (fun _ _ => step_keeps_stateInv) hu (stateInv_startRepetition hs _ entry seed))

theorem runRepetitions_keeps_stateInv {entry : Addr} {seed : Byte} {reps todo : Nat} (hs : StateInv s)
    (h : runRepetitions entry seed reps todo s = .next t) : StateInv t := by
  induction todo generalizing s with
  | zero => cases h; exact hs
  | succ todo ih =>
    rw [runRepetitions] at h
    split at h
    case h_1 hu => exact ih (runRepetition_keeps_stateInv hs hu) h
    all_goals cases h

/-- A Capture that returns is the run of its repetitions, from the CPU reset and the recorder cleared (R270). -/
theorem capture_next {entry : Addr} {seed : Byte} {reps : Nat} {res : CaptureResult}
    (h : capture entry seed reps s = .next (t, res)) :
    ∃ r, s.recorder = some r ∧
      runRepetitions entry seed reps reps { s.cpuReset with recorder := some r.clear } = .next t := by
  unfold capture at h
  split at h
  · cases h
  split at h
  · cases h
  rename_i r hr
  refine ⟨r, hr, ?_⟩
  split at h
  · cases h
  · cases h
  rename_i hrun
  rw [hrun]
  split at h <;> cases h
  rfl

/-- A recorder without entries. -/
theorem logOk_empty {r : Recorder} (h : r.log = []) (n : Nat) : LogOk r n := by
  constructor <;> simp [h]

theorem capture_keeps_stateInv {entry : Addr} {seed : Byte} {reps : Nat} {res : CaptureResult} (hs : StateInv s)
    (h : capture entry seed reps s = .next (t, res)) : StateInv t := by
  obtain ⟨r, -, hrun⟩ := capture_next h
  have hstart : StateInv { s.cpuReset with recorder := some r.clear } :=
    ⟨hs.memory, hs.snapshot, hs.cause, by rintro _ ⟨⟩; exact logOk_empty rfl _⟩
  exact runRepetitions_keeps_stateInv hstart hrun

/-! ### The other host calls -/

/-- A host call that has a step has met its duty as to the lock (R70). -/
theorem hostCall_next {lock : Bool} {c : HostCall} {reply : HostReply} (h : hostCall lock c s = .next (t, reply)) :
    hostCallLocked c s = .next (t, reply) := by
  rw [hostCall] at h
  split at h
  · cases h
  · exact h

/-- Other memory in canonical form. -/
theorem stateInv_with_mem (hs : StateInv s) {m : Memory} (hm : m.wf = true) : StateInv { s with mem := m } :=
  { hs with memory := hm }

/-- Another snapshot in canonical form, or none. -/
theorem stateInv_with_snapshot (hs : StateInv s) {slot : Option Memory} (hslot : ∀ m, slot = some m → m.wf = true) :
    StateInv { s with snapshot := slot } := { hs with snapshot := hslot }

/-- No recorder, or one without entries. -/
theorem stateInv_with_recorder (hs : StateInv s) {q : Option Recorder} (hq : ∀ r, q = some r → r.log = []) :
    StateInv { s with recorder := q } := { hs with log := fun r hr => logOk_empty (hq r hr) _ }

theorem stateInv_hostStore (hs : StateInv s) (a : Addr) (b : List Byte) : StateInv (s.hostStore a b) :=
  stateInv_with_mem hs (Memory.wf_writeAll b a hs.memory)

/-- A host call made with its duties met keeps the invariant. -/
theorem hostCallLocked_keeps_stateInv {c : HostCall} {reply : HostReply} (hs : StateInv s)
    (h : hostCallLocked c s = .next (t, reply)) : StateInv t := by
  cases c <;> simp only [hostCallLocked] at h
  case getByte | getWord => cases h; exact hs
  case getData => split at h <;> cases h; exact hs
  case setByte | setWord => cases h; exact stateInv_hostStore hs _ _
  case setData => split at h <;> cases h; exact stateInv_hostStore hs _ _
  case clear => cases h; exact stateInv_with_mem hs rfl
  case takeSnapshot => cases h; exact stateInv_with_snapshot hs (by rintro _ ⟨⟩; exact hs.memory)
  case restoreFromSnapshot => split at h <;> cases h; exact stateInv_with_mem hs (hs.snapshot _ ‹_›)
  case flushSnapshot => cases h; exact stateInv_with_snapshot hs nofun
  case constructRecorder | drainLog => split at h <;> cases h; exact stateInv_with_recorder hs (by rintro _ ⟨⟩; rfl)
  case destroyRecorder => split at h <;> cases h; exact stateInv_with_recorder hs nofun
  case capture =>
    split at h <;> cases h
    exact capture_keeps_stateInv hs ‹_›

end

/-- Settles O12: what the host itself puts in place is a canonical memory or a recorder without entries, and a Capture is
made of steps. -/
theorem hostCallKeepsTheInvariant : Obligations.HostCallKeepsTheInvariant :=
  fun _ _ _ _ _ hs h => hostCallLocked_keeps_stateInv hs (hostCall_next h)

end Sys2Proof.Machine
end

section
/-!
PROOFS of the family 20_memory, second part: the canonical form, and the host's stores, blocks, snapshots and duties.
-/

namespace Sys2Proof.Machine

/-! ### One canonical form -/

/-- Below where a canonical list starts it reads as unlisted. -/
theorem Memory.read_of_wfFrom {m : Memory} {lo a : Nat} (h : Memory.wfFrom lo m = true) (ha : a < lo) :
    m.read a = Memory.unlisted := by
  induction m generalizing lo with
  | nil => rfl
  | cons c m ih =>
    obtain ⟨k, v⟩ := c
    obtain ⟨hlo, -, -, hm⟩ := (Memory.wfFrom_cons ..).1 h
    rw [Memory.read, if_neg (by omega)]
    exact ih hm (by omega)

/-- A canonical list that reads as unlisted everywhere lists nothing. -/
theorem Memory.eq_nil_of_reads_unlisted {m : Memory} {lo : Nat} (h : Memory.wfFrom lo m = true)
    (hread : ∀ a < 0x10000, m.read a = Memory.unlisted) : m = [] := by
  cases m with
  | nil => rfl
  | cons c m =>
    obtain ⟨k, v⟩ := c
    obtain ⟨-, hk, hv, -⟩ := (Memory.wfFrom_cons ..).1 h
    exact absurd (by simpa [Memory.read] using hread k hk) hv

/-- The first listed address of a canonical list is not after that of another that reads alike. -/
theorem Memory.head_le {k k' lo lo' : Nat} {v v' : Byte} {m m' : Memory} (h : Memory.wfFrom lo ((k, v) :: m) = true)
    (h' : Memory.wfFrom lo' ((k', v') :: m') = true)
    (hread : ∀ a < 0x10000, Memory.read ((k, v) :: m) a = Memory.read ((k', v') :: m') a) : k' ≤ k := by
  by_contra hlt
  obtain ⟨-, hk, hv, -⟩ := (Memory.wfFrom_cons ..).1 h
  obtain ⟨-, hk', hv', hm'⟩ := (Memory.wfFrom_cons ..).1 h'
  have hfrom : Memory.wfFrom k' ((k', v') :: m') = true := (Memory.wfFrom_cons ..).2 ⟨le_rfl, hk', hv', hm'⟩
  have hhead : Memory.read ((k, v) :: m) k = v := if_pos rfl
  exact hv (hhead ▸ (hread k hk).trans (Memory.read_of_wfFrom hfrom (by omega)))

theorem Memory.eq_of_wfFrom_of_read {m m' : Memory} {lo lo' : Nat} (h : Memory.wfFrom lo m = true)
    (h' : Memory.wfFrom lo' m' = true) (hread : ∀ a < 0x10000, m.read a = m'.read a) : m = m' := by
  induction m generalizing m' lo lo' with
  | nil => exact (Memory.eq_nil_of_reads_unlisted h' fun a ha => (hread a ha).symm).symm
  | cons c m ih =>
    cases m' with
    | nil => exact Memory.eq_nil_of_reads_unlisted h hread
    | cons c' m' =>
      obtain ⟨k, v⟩ := c
      obtain ⟨k', v'⟩ := c'
      obtain rfl : k = k' :=
        le_antisymm (Memory.head_le h' h fun a ha => (hread a ha).symm) (Memory.head_le h h' hread)
      obtain ⟨-, hk, -, hm⟩ := (Memory.wfFrom_cons ..).1 h
      obtain ⟨-, -, -, hm'⟩ := (Memory.wfFrom_cons ..).1 h'
      obtain rfl : v = v' := by simpa [Memory.read] using hread k hk
      have htails : m = m' := ih hm hm' fun a ha => by
        by_cases hka : k = a
        · rw [Memory.read_of_wfFrom hm (by omega), Memory.read_of_wfFrom hm' (by omega)]
        · simpa [Memory.read, hka] using hread a ha
      rw [htails]

/-- Settles O21: by induction on the lists, whose first entries must agree. -/
theorem canonicalMemoriesThatReadAlikeAreEqual : Obligations.CanonicalMemoriesThatReadAlikeAreEqual :=
  fun _ _ => Memory.eq_of_wfFrom_of_read

/-! ### Stores of consecutive bytes -/

/-- What an address reads as after bytes were stored from `a` on: the byte that fell on it, counting from `a` and
wrapping past 0xFFFF, and where none did, what it held. -/
theorem Memory.read_writeAll (m : Memory) (a c : Addr) (b : List Byte) (hb : b.length ≤ 0x10000) :
    (m.writeAll a b).read c.toNat = b.getD (c - a).toNat (m.read c.toNat) := by
  induction b generalizing m a with
  | nil => rfl
  | cons v b ih =>
    rw [List.length_cons] at hb
    rw [Memory.writeAll, ih _ _ (by omega)]
    by_cases hca : c = a
    · subst hca
      have hfar : b.length ≤ (c - (c + 1)).toNat := by
        have : (c - (c + 1)).toNat = 0xFFFF := by bv_omega
        omega
      rw [List.getD_eq_default _ _ hfar, Memory.read_write_same, BitVec.sub_self]
      rfl
    · have hnext : (c - a).toNat = (c - (a + 1)).toNat + 1 := by bv_omega
      have hne : a.toNat ≠ c.toNat := fun h => hca (BitVec.eq_of_toNat_eq h.symm)
      rw [hnext, List.getD_cons_succ, Memory.read_write_other _ _ hne]

theorem State.read_hostStore (s : State) (a c : Addr) {b : List Byte} (hb : b.length ≤ 0x10000) :
    (s.hostStore a b).read c = b.getD (c - a).toNat (s.read c) := Memory.read_writeAll s.mem a c b hb

/-- A host store leaves every address it does not reach as it was. -/
theorem State.read_hostStore_other (s : State) {a c : Addr} {b : List Byte} (hb : b.length ≤ (c - a).toNat) :
    (s.hostStore a b).read c = s.read c := by
  rw [s.read_hostStore a c (by have := (c - a).isLt; omega), List.getD_eq_default _ _ hb]

/-- The two bytes of a stored word, low byte first (R52). -/
theorem State.read_hostStore_word (s : State) (a w : Addr) :
    (s.hostStore a [loByte w, hiByte w]).read a = loByte w ∧
      (s.hostStore a [loByte w, hiByte w]).read (a + 1) = hiByte w := by
  have hhi : (a + 1 - a).toNat = 1 := by bv_omega
  constructor
  · rw [s.read_hostStore a a (by simp), BitVec.sub_self]; rfl
  · rw [s.read_hostStore a (a + 1) (by simp), hhi]; rfl

theorem hostCall_getByte (a : Addr) (s : State) : hostCall true (.getByte a) s = .next (s, .byte (s.read a)) := rfl

theorem hostCall_getWord (a : Addr) (s : State) : hostCall true (.getWord a) s = .next (s, .word (s.getWord a)) := rfl

/-- Settles O55: a stored byte or word is read back, and the addresses it does not fall on are as they were. -/
theorem hostStoresReadBack : Obligations.HostStoresReadBack := by
  intro a v w s
  constructor
  · have hread : (s.hostStore a [v]).read a = v := by
      rw [s.read_hostStore a a (by simp), BitVec.sub_self]; rfl
    refine ⟨s.hostStore a [v], rfl, rfl, ?_, fun b hb => s.read_hostStore_other ?_⟩
    · rw [hostCall_getByte, hread]
    · have : (b - a).toNat ≠ 0 := by bv_omega
      rw [List.length_singleton]
      omega
  · obtain ⟨hlo, hhi⟩ := s.read_hostStore_word a w
    have hword : (s.hostStore a [loByte w, hiByte w]).getWord a = w := by
      rw [State.getWord, hlo, hhi, word_hiByte_loByte]
    refine ⟨s.hostStore a [loByte w, hiByte w], rfl, rfl, ?_, hlo, hhi, fun b hb hb' => s.read_hostStore_other ?_⟩
    · rw [hostCall_getWord, hword]
    · have : (b - a).toNat ≠ 0 := by bv_omega
      have : (b - a).toNat ≠ 1 := by bv_omega
      simp only [List.length_cons, List.length_nil]
      omega

/-! ### Blocks -/

/-- GetData reads the bytes at the offsets from `a` on, in order. -/
theorem State.getData_eq_map (s : State) (a : Addr) (n : Nat) :
    s.getData a n = (List.range n).map fun i => s.read (a + BitVec.ofNat 16 i) := by
  induction n generalizing a with
  | zero => rfl
  | succ n ih =>
    rw [State.getData, ih, List.range_succ_eq_map, List.map_cons, List.map_map]
    congr 1
    · simp
    · refine List.map_congr_left fun i _ => ?_
      have hnext : a + 1 + BitVec.ofNat 16 i = a + BitVec.ofNat 16 (i + 1) := by bv_omega
      rw [hnext, Function.comp_apply]

/-- A block that fits in the address space is read back as it was stored. -/
theorem State.getData_hostStore (s : State) (a : Addr) {b : List Byte} (hb : b.length ≤ 0x10000) :
    (s.hostStore a b).getData a b.length = b := by
  rw [State.getData_eq_map]
  refine List.ext_getElem (by simp) fun i _ hi => ?_
  have hoff : (a + BitVec.ofNat 16 i - a).toNat = i := by bv_omega
  rw [List.getElem_map, List.getElem_range, s.read_hostStore a _ hb, hoff, List.getD_eq_getElem _ _ hi]

theorem blockFits_iff {a : Addr} {n : Nat} : blockFits a n = true ↔ a.toNat + n ≤ 0x10000 := by simp [blockFits]

theorem hostCall_setData (a : Addr) (b : List Byte) (s : State) :
    hostCall true (.setData a b) s =
      if blockFits a b.length then .next (s.hostStore a b, .done) else .refused .blockPastEnd := rfl

theorem hostCall_getData (a : Addr) (n : Nat) (s : State) :
    hostCall true (.getData a n) s =
      if blockFits a n then .next (s, .bytes (s.getData a n)) else .refused .blockPastEnd := rfl

/-- Settles O56: `blockFits` decides both calls alike, and a block that fits is read back. -/
theorem hostBlocksReadBackOrAreRefused : Obligations.HostBlocksReadBackOrAreRefused := by
  intro a b s
  constructor
  · intro hfits
    have hf : blockFits a b.length = true := blockFits_iff.2 hfits
    refine ⟨s.hostStore a b, ?_, rfl, ?_, fun c hc => s.read_hostStore_other ?_⟩
    · rw [hostCall_setData, if_pos hf]
    · rw [hostCall_getData, if_pos hf, s.getData_hostStore a (by omega)]
    · rcases hc with hc | hc <;> bv_omega
  · intro hpast
    have hf : ¬ blockFits a b.length = true := fun h => absurd (blockFits_iff.1 h) (by omega)
    rw [hostCall_setData, hostCall_getData, if_neg hf, if_neg hf]
    exact ⟨rfl, rfl⟩

/-! ### Clear, snapshots and duties -/

/-- Settles O57: each call is one update of the state. -/
theorem clearAndSnapshotDoWhatTheySay : Obligations.ClearAndSnapshotDoWhatTheySay :=
  fun _ _ => ⟨⟨_, rfl, rfl, fun _ => rfl⟩, ⟨_, rfl, rfl, rfl⟩, ⟨_, rfl, rfl, rfl⟩⟩

/-- Without the lock, a call that needs it is refused (R70). -/
theorem hostCall_without_lock {c : HostCall} (h : c.needsLock = true) (s : State) :
    hostCall false c s = .refused .lockNotHeld := by
  rw [hostCall, h]
  rfl

/-- Settles O58: the refusals of the lock, of a Capture without repetitions and of a second recorder. -/
theorem hostDutiesAreRefusedWhenBroken : Obligations.HostDutiesAreRefusedWhenBroken := by
  intro s a w v n b r
  refine ⟨fun c hc => hostCall_without_lock ?_ s, rfl, fun hr => ?_, fun hr => ⟨_, ?_, rfl⟩⟩
  · revert c
    simp [HostCall.needsLock]
  · simp [hostCall, hostCallLocked, HostCall.needsLock, hr]
  · simp [hostCall, hostCallLocked, HostCall.needsLock, hr]

end Sys2Proof.Machine
end

section
/-!
PROOFS of the family 20_memory, third part: the writes of every instruction, and the stack's pushes and pulls. The end
of an instruction stores nothing, so its writes are those of its body.
-/

namespace Sys2Proof.Machine

open Sys2Proof.Safety

/-! ### The end of an instruction stores nothing -/

/-- `t` has the memory and the recorder of `u`. -/
structure SameStore (u t : State) : Prop where
  mem : t.mem = u.mem
  recorder : t.recorder = u.recorder

section
variable {i : Instr} {s t u : State}

theorem SameStore.stores {ws : List (Addr × Byte)} (h : SameStore u t) (hu : StoresExactly s u ws) :
    StoresExactly s t ws := storesExactly_frame hu h.mem h.recorder

theorem SameStore.after (h : SameStore u t) (hu : SameStore s u) : SameStore s t :=
  ⟨h.mem.trans hu.mem, h.recorder.trans hu.recorder⟩

theorem readClass_sameStore {src : Src} {k : Byte → State} (h : readClass i src s k = .next t) :
    SameStore (k (srcValue src s)) t := by
  obtain ⟨d, -, rfl⟩ := readClass_next.1 h
  exact ⟨rfl, rfl⟩

theorem impliedClass_sameStore (h : impliedClass i u = .next t) : SameStore u t := by
  obtain ⟨d, -, rfl⟩ := impliedClass_next.1 h
  exact ⟨rfl, rfl⟩

theorem transferClass_sameStore (h : transferClass i u = .next t) : SameStore u t := by
  obtain ⟨d, -, rfl⟩ := transferClass_next.1 h
  exact ⟨rfl, rfl⟩

theorem branchClass_sameStore {taken : Bool} {offset : Byte} (h : branchClass i taken offset s = .next t) :
    SameStore s t := by
  obtain ⟨d, -, ht, -⟩ := branchClass_next h
  rw [ht]
  exact ⟨rfl, rfl⟩

theorem shiftClass_acc_sameStore {f : Byte → Byte → Byte × Byte} (h : shiftClass i .acc s f = .next t) :
    SameStore s t := by
  obtain ⟨d, -, rfl⟩ := withRow_next.1 h
  exact ⟨rfl, rfl⟩

/-! ### The writes of each class -/

/-- A write-class instruction makes its one write (R118). -/
theorem writeClass_stores {m : MemOp} {v : Byte} (h : writeClass i m v s = .next t) :
    StoresExactly s t [((resolve m s).ea, v)] := by
  obtain ⟨d, -, rfl⟩ := writeClass_next.1 h
  exact storesExactly_frame (write_stores s _ v) rfl rfl

/-- A read-modify-write of memory makes one write, of what its computation makes of the byte there (R118). -/
theorem modifyMemClass_stores {m : MemOp} {f : Byte → Byte → Byte × Byte} {g : Byte → Nat}
    (hf : ∀ v, (f v s.p).1 = BitVec.ofNat 8 (g v)) (h : modifyMemClass i m s f = .next t) :
    StoresExactly s t (modifyWrite m s g) := by
  obtain ⟨d, -, rfl⟩ := modifyMemClass_next.1 h
  rw [modifyWrite, ← hf]
  exact storesExactly_frame (write_stores s _ _) rfl rfl

/-- The three writes of BRK and the illegal opcodes (R233, R240). -/
theorem suspendEntry_stores (s : State) (c : SuspendCause) :
    StoresExactly s (s.suspendEntry c)
      [(stackAddr s.sp, hiByte (s.pc + 2)), (stackAddr (s.sp - 1), loByte (s.pc + 2)),
        (stackAddr (s.sp - 2), s.p ||| 0x30)] := by
  have hsp : s.sp - 2 = s.sp - 1 - 1 := by bv_omega
  rw [hsp]
  exact (suspendEntry_spec s c).1

end

/-! ### The bytes the read-modify-writes make, as numbers (R181, R182, R195 to R198) -/

theorem incResult_fst (v p : Byte) : (incResult v p).1 = BitVec.ofNat 8 (v.toNat + 1) := by
  simp [incResult, BitVec.ofNat_add]

theorem decResult_fst (v p : Byte) : (decResult v p).1 = BitVec.ofNat 8 (v.toNat + 255) := by
  simp only [decResult]
  bv_omega

theorem aslResult_fst (v p : Byte) : (aslResult v p).1 = BitVec.ofNat 8 (v.toNat * 2) := by
  simp only [aslResult]
  bv_omega

theorem lsrResult_fst (v p : Byte) : (lsrResult v p).1 = BitVec.ofNat 8 (v.toNat / 2) := by
  simp only [lsrResult]
  bv_omega

/-- The carry enters the bit a rotate has freed: added there, or or-ed in. -/
theorem rotate_carry_in : ∀ (v : Byte) (c : Bool),
    (v <<< 1 ||| BitVec.ofNat 8 c.toNat) = BitVec.ofNat 8 (v.toNat * 2 + c.toNat) ∧
      (v >>> 1 ||| BitVec.ofNat 8 c.toNat <<< 7) = BitVec.ofNat 8 (v.toNat / 2 + c.toNat * 128) := by
  decide

theorem rolResult_fst (v p : Byte) : (rolResult v p).1 = BitVec.ofNat 8 (v.toNat * 2 + (getFlag p .c).toNat) :=
  (rotate_carry_in v _).1

theorem rorResult_fst (v p : Byte) : (rorResult v p).1 = BitVec.ofNat 8 (v.toNat / 2 + (getFlag p .c).toNat * 128) :=
  (rotate_carry_in v _).2

/-! ### Every instruction -/

/-- An instruction without writes leaves memory and the recorder as they are. -/
theorem exec_sameStore {i : Instr} {s t : State} (h : exec i s = .next t) (hnone : writesOf i s = []) :
    SameStore s t := by
  cases i
  case sta | stx | sty | inc | dec | pha | php | jsr | brk | ill => cases hnone
  case asl p | lsr p | rol p | ror p =>
    simp only [exec_asl, exec_lsr, exec_rol, exec_ror] at h
    cases p
    · exact shiftClass_acc_sameStore h
    · cases hnone
  case lda | ldx | ldy | adc | sbc | and | ora | eor | bit | cmp | cpx | cpy =>
    simp only [exec_lda, exec_ldx, exec_ldy, exec_adc, exec_sbc, exec_and, exec_ora, exec_eor, exec_bit, exec_cmp,
      exec_cpx, exec_cpy] at h
    exact (readClass_sameStore h).after ⟨rfl, rfl⟩
  case tax | tay | txa | tya | tsx | txs | pla | plp | inx | iny | dex | dey | clc | cld | cli | clv | sec | sed | sei |
      nop =>
    simp only [exec_tax, exec_tay, exec_txa, exec_tya, exec_tsx, exec_txs, exec_pla, exec_plp, exec_inx, exec_iny,
      exec_dex, exec_dey, exec_clc, exec_cld, exec_cli, exec_clv, exec_sec, exec_sed, exec_sei, exec_nop] at h
    exact (impliedClass_sameStore h).after ⟨rfl, rfl⟩
  case bcc | bcs | beq | bmi | bne | bpl | bvc | bvs =>
    simp only [exec_bcc, exec_bcs, exec_beq, exec_bmi, exec_bne, exec_bpl, exec_bvc, exec_bvs] at h
    exact branchClass_sameStore h
  case jmp | rti =>
    simp only [exec_jmp, exec_rti] at h
    exact (transferClass_sameStore h).after ⟨rfl, rfl⟩
  case rts =>
    rw [exec_rts] at h
    refine (transferClass_sameStore h).after ?_
    cases rtsFindsEmptyStack s <;> exact ⟨rfl, rfl⟩

/-- Settles O59: the storing instructions by their classes; no other stores anything. -/
theorem everyWriteInRangeIsLoggedOnce : Obligations.EveryWriteInRangeIsLoggedOnce := by
  intro i s t h
  have quiet (hnone : writesOf i s = []) : StoresExactly s t (writesOf i s) := by
    obtain ⟨hm, hr⟩ := exec_sameStore h hnone
    exact hnone ▸ storesExactly_nil hm hr
  cases i
  case sta | stx | sty =>
    simp only [exec_sta, exec_stx, exec_sty] at h
    exact writeClass_stores h
  case inc => exact modifyMemClass_stores (incResult_fst · s.p) (exec_inc .. ▸ h)
  case dec => exact modifyMemClass_stores (decResult_fst · s.p) (exec_dec .. ▸ h)
  case asl p =>
    cases p
    · exact quiet rfl
    · exact modifyMemClass_stores (aslResult_fst · s.p) (exec_asl .. ▸ h)
  case lsr p =>
    cases p
    · exact quiet rfl
    · exact modifyMemClass_stores (lsrResult_fst · s.p) (exec_lsr .. ▸ h)
  case rol p =>
    cases p
    · exact quiet rfl
    · exact modifyMemClass_stores (rolResult_fst · s.p) (exec_rol .. ▸ h)
  case ror p =>
    cases p
    · exact quiet rfl
    · exact modifyMemClass_stores (rorResult_fst · s.p) (exec_ror .. ▸ h)
  case pha | php =>
    simp only [exec_pha, exec_php] at h
    exact (impliedClass_sameStore h).stores (push_stores s _)
  case jsr =>
    rw [exec_jsr] at h
    exact (transferClass_sameStore h).stores (storesExactly_frame (pushWord_stores s _) rfl rfl)
  case brk | ill =>
    simp only [exec_brk, exec_ill] at h
    exact (transferClass_sameStore h).stores (suspendEntry_stores s _)
  all_goals exact quiet rfl

/-- No operand in memory has the accumulator's mode. -/
theorem mode_ne_acc (m : MemOp) : m.mode ≠ .acc := by
  cases m <;> exact nofun

/-- Settles O18: such an instruction is one without writes. -/
theorem onlyStoringInstructionsChangeMemory : Obligations.OnlyStoringInstructionsChangeMemory := by
  intro i s t h hi
  have hnone : writesOf i s = [] := by
    cases i
    case asl p | lsr p | rol p | ror p =>
      cases p
      · rfl
      · simp [Instr.mnemonic, Instr.mode, Place.mode, mode_ne_acc] at hi
    case sta | stx | sty | inc | dec => simp [Instr.mnemonic, Instr.mode, mode_ne_acc] at hi
    case pha | php | jsr | brk | ill => simp [Instr.mnemonic, Instr.mode] at hi
    all_goals rfl
  obtain ⟨hm, hr⟩ := exec_sameStore h hnone
  exact ⟨fun a => by rw [State.read, hm, State.read], hm, hr⟩

/-! ### Pushes and pulls -/

/-- Page 1, at the offset SP (R60). -/
theorem stackAddr_toNat (sp : Byte) : (stackAddr sp).toNat = 0x0100 + sp.toNat := word_toNat 0x01 sp

/-- An implied instruction ends past itself, with its row's cycles (R103, R104). -/
theorem endsAfter_finish {d : Desc} {r : Row} {s u : State} (hsize : d.size = r.size) (hbase : d.base = r.base)
    (hpc : u.pc = s.pc) (hcycles : u.cycles = s.cycles) : EndsAfter r false s (u.finish d 0) := by
  simp [EndsAfter, hsize, hbase, hpc, hcycles]

/-- A push that is an implied instruction follows the rule of a push (R61, R118). -/
theorem pushRule_of_implied {i : Instr} {d : Desc} {r : Row} {value : State → Byte} (henc : EncodedAs i r)
    (hd : i.desc? = some d) (hsize : d.size = r.size) (hbase : d.base = r.base)
    (hexec : ∀ s, exec i s = impliedClass i (s.push (value s))) : PushRule i r value :=
  ⟨henc, fun s => ⟨(s.push (value s)).finish d 0, (hexec s).trans (impliedClass_next.2 ⟨d, hd, rfl⟩),
    endsAfter_finish hsize hbase rfl rfl, rfl, storesExactly_frame (push_stores s _) rfl rfl⟩⟩

/-- Settles O27: both pushes are implied instructions whose body is one push. -/
theorem pushesStoreAtTheStackPointer : Obligations.PushesStoreAtTheStackPointer :=
  ⟨stackAddr_toNat,
    pushRule_of_implied (d := ⟨.PHA, .imp, 3, 0⟩) ⟨[], rfl, rfl⟩ rfl rfl rfl exec_pha,
    pushRule_of_implied (d := ⟨.PHP, .imp, 3, 0⟩) ⟨[], rfl, rfl⟩ rfl rfl rfl exec_php⟩

/-- An implied instruction whose body leaves PC and the cycles alone, and P as `status`, follows the rule of one. -/
theorem impliedRule_of_implied {i : Instr} {d : Desc} {r : Row} {effect : State → State} {status : State → Byte}
    {flags : State → List (Flag × Bool)} (henc : EncodedAs i r) (hd : i.desc? = some d) (hsize : d.size = r.size)
    (hbase : d.base = r.base) (hexec : ∀ s, exec i s = impliedClass i ((effect s).setP (status s)))
    (hpc : ∀ s, (effect s).pc = s.pc) (hcycles : ∀ s, (effect s).cycles = s.cycles)
    (hflags : ∀ s, FlagsExactly s.p (status s) (flags s)) : ImpliedRule i r effect flags :=
  ⟨henc, fun s => ⟨((effect s).setP (status s)).finish d 0, (hexec s).trans (impliedClass_next.2 ⟨d, hd, rfl⟩),
    endsAfter_finish hsize hbase (hpc s) (hcycles s), rfl, hflags s⟩⟩

/-- Taking a whole status byte writes every flag (R163). -/
theorem flagsExactly_all (p q : Byte) :
    FlagsExactly p q ([Flag.n, .v, .u, .b, .d, .i, .z, .c].map fun f => (f, getFlag q f)) := by
  intro f
  cases f <;> rfl

/-- The flags N and Z of a result, and no other. -/
theorem flagsExactly_nz (p v : Byte) : FlagsExactly p (putNZ p v) (nz v) := by
  simpa using flagsExactly_putNZ (flagsExactly_refl p) v

/-- Settles O28: the byte pulled is that above SP; PLA writes N and Z by it, PLP takes it for P. -/
theorem pullsReadAboveTheStackPointer : Obligations.PullsReadAboveTheStackPointer :=
  ⟨impliedRule_of_implied (d := ⟨.PLA, .imp, 4, 0⟩) ⟨[], rfl, rfl⟩ rfl rfl rfl exec_pla (fun _ => rfl) (fun _ => rfl)
      fun _ => flagsExactly_nz _ _,
    impliedRule_of_implied (d := ⟨.PLP, .imp, 4, 0⟩) ⟨[], rfl, rfl⟩ rfl rfl rfl exec_plp (fun _ => rfl) (fun _ => rfl)
      fun _ => flagsExactly_all _ _⟩

end Sys2Proof.Machine
end

section
/-!
PROOFS of the family 30_encoding: what an opcode byte and the two bytes after it decode to, what a list of bytes decodes
to (`decode_ok_iff`), and from the two the round trips, the lengths and the totality of the step.
-/

namespace Sys2Proof.Machine

/-! ### Operands

An operand form fixes its operand bytes, low byte first (R82), and every form is one a mode makes of some bytes. -/

section
variable {md : Mode} {b1 b2 : Byte}

theorem memOp?_operandBytes {m : MemOp} (h : memOp? md b1 b2 = some m) :
    m.bytes = [b1, b2].take (m.mode.size - 1) := by
  cases md <;> cases h <;> simp [MemOp.bytes, MemOp.mode, Mode.size, addrBytes]

theorem src?_operandBytes {src : Src} (h : src? md b1 b2 = some src) :
    src.bytes = [b1, b2].take (src.mode.size - 1) := by
  unfold src? at h
  split at h
  · cases h; rfl
  · obtain ⟨m, hm, rfl⟩ := Option.map_eq_some_iff.1 h
    exact memOp?_operandBytes hm

theorem place?_operandBytes {place : Place} (h : place? md b1 b2 = some place) :
    place.bytes = [b1, b2].take (place.mode.size - 1) := by
  unfold place? at h
  split at h
  · cases h; rfl
  · obtain ⟨m, hm, rfl⟩ := Option.map_eq_some_iff.1 h
    exact memOp?_operandBytes hm

theorem target?_operandBytes {target : Target} (h : target? md b1 b2 = some target) :
    target.bytes = [b1, b2].take (target.mode.size - 1) := by
  cases md <;> cases h <;> simp [Target.bytes, Target.mode, Mode.size, addrBytes]

end

theorem exists_memOp? (m : MemOp) : ∃ b1 b2, memOp? m.mode b1 b2 = some m := by
  cases m
  case abs a | abx a | aby a => exact ⟨loByte a, hiByte a, by simp [memOp?, MemOp.mode]⟩
  all_goals exact ⟨_, 0, rfl⟩

theorem src?_mem (m : MemOp) (b1 b2 : Byte) : src? m.mode b1 b2 = (memOp? m.mode b1 b2).map .mem := by
  cases m <;> rfl

theorem place?_mem (m : MemOp) (b1 b2 : Byte) : place? m.mode b1 b2 = (memOp? m.mode b1 b2).map .mem := by
  cases m <;> rfl

theorem exists_src? (src : Src) : ∃ b1 b2, src? src.mode b1 b2 = some src := by
  cases src with
  | imm n => exact ⟨n, 0, rfl⟩
  | mem m =>
    obtain ⟨b1, b2, h⟩ := exists_memOp? m
    exact ⟨b1, b2, by rw [Src.mode, src?_mem, h]; rfl⟩

theorem exists_place? (place : Place) : ∃ b1 b2, place? place.mode b1 b2 = some place := by
  cases place with
  | acc => exact ⟨0, 0, rfl⟩
  | mem m =>
    obtain ⟨b1, b2, h⟩ := exists_memOp? m
    exact ⟨b1, b2, by rw [Place.mode, place?_mem, h]; rfl⟩

theorem exists_target? (target : Target) : ∃ b1 b2, target? target.mode b1 b2 = some target := by
  cases target with
  | abs a | ind a => exact ⟨loByte a, hiByte a, by simp [target?, Target.mode]⟩

/-! ### Documented instructions -/

/-- The operand bytes of what a descriptor makes of two bytes are as many of them as its mode is long (R80, R82). -/
theorem documented?_operandBytes {d : Desc} {b1 b2 : Byte} {i : Instr} (h : documented? d b1 b2 = some i) :
    i.operandBytes = [b1, b2].take (i.mode.size - 1) := by
  obtain ⟨mn, md, base, extra⟩ := d
  cases mn
  case LDA | LDX | LDY | ADC | SBC | AND | ORA | EOR | CMP | CPX | CPY =>
    obtain ⟨src, hsrc, rfl⟩ := Option.map_eq_some_iff.1 h
    exact src?_operandBytes hsrc
  case STA | STX | STY | BIT | INC | DEC =>
    obtain ⟨m, hm, rfl⟩ := Option.map_eq_some_iff.1 h
    exact memOp?_operandBytes hm
  case ASL | LSR | ROL | ROR =>
    obtain ⟨place, hplace, rfl⟩ := Option.map_eq_some_iff.1 h
    exact place?_operandBytes hplace
  case JMP =>
    obtain ⟨target, htarget, rfl⟩ := Option.map_eq_some_iff.1 h
    exact target?_operandBytes htarget
  case JSR => cases h; simp [Instr.operandBytes, Instr.mode, Mode.size, addrBytes]
  case ILL => cases h
  all_goals cases h; rfl

/-- A descriptor with the mnemonic and the mode of a documented instruction makes it of some operand bytes. -/
theorem exists_documented? {i : Instr} {d : Desc} (hmn : d.mnemonic = i.mnemonic) (hmd : d.mode = i.mode)
    (hdoc : i.mnemonic ≠ .ILL) : ∃ b1 b2, documented? d b1 b2 = some i := by
  obtain ⟨mn, md, base, extra⟩ := d
  obtain rfl : mn = i.mnemonic := hmn
  obtain rfl : md = i.mode := hmd
  cases i
  case lda src | ldx src | ldy src | adc src | sbc src | and src | ora src | eor src | cmp src | cpx src | cpy src =>
    obtain ⟨b1, b2, h⟩ := exists_src? src
    exact ⟨b1, b2, congrArg (Option.map _) h⟩
  case sta m | stx m | sty m | bit m | inc m | dec m =>
    obtain ⟨b1, b2, h⟩ := exists_memOp? m
    exact ⟨b1, b2, congrArg (Option.map _) h⟩
  case asl place | lsr place | rol place | ror place =>
    obtain ⟨b1, b2, h⟩ := exists_place? place
    exact ⟨b1, b2, congrArg (Option.map _) h⟩
  case jmp target =>
    obtain ⟨b1, b2, h⟩ := exists_target? target
    exact ⟨b1, b2, congrArg (Option.map _) h⟩
  case jsr a => exact ⟨loByte a, hiByte a, by simp [documented?, Instr.mnemonic]⟩
  case bcc offset | bcs offset | beq offset | bmi offset | bne offset | bpl offset | bvc offset | bvs offset =>
    exact ⟨offset, 0, rfl⟩
  case ill => exact absurd rfl hdoc
  all_goals exact ⟨0, 0, rfl⟩

/-- Which row a descriptor makes does not depend on the operand bytes. -/
theorem documented?_opcode? (d : Desc) (b1 b2 : Byte) :
    (documented? d b1 b2).map Instr.opcode? = (documented? d 0 0).map Instr.opcode? := by
  obtain ⟨mn, md, base, extra⟩ := d
  cases mn
  case LDA | LDX | LDY | ADC | SBC | AND | ORA | EOR | CMP | CPX | CPY | STA | STX | STY | BIT | INC | DEC | ASL | LSR |
      ROL | ROR | JMP => cases md <;> rfl
  all_goals rfl

/-! ### Every opcode byte -/

/-- The encoder gives what a byte decodes to that byte as its opcode: one look at each of the 256 values. -/
theorem opcode?_decodeOp (op b1 b2 : Byte) : (decodeOp op b1 b2).opcode? = some op := by
  have opcode?_eq (b1 b2 : Byte) :
      (decodeOp op b1 b2).opcode? = ((documented? (desc op) b1 b2).map Instr.opcode?).getD (Instr.ill op).opcode? := by
    rw [Option.getD_map, decodeOp]
  have all : ∀ op : Byte, (decodeOp op 0 0).opcode? = some op := by decide +kernel
  rw [opcode?_eq, documented?_opcode?, ← opcode?_eq, all]

theorem decodeOp_wellFormed (op b1 b2 : Byte) : (decodeOp op b1 b2).wellFormed = true := by
  rw [← opcode_isSome, opcode?_decodeOp]
  rfl

theorem decodeOp_mnemonic (op b1 b2 : Byte) : (decodeOp op b1 b2).mnemonic = (desc op).mnemonic :=
  (described _ op (opcode?_decodeOp op b1 b2)).1.symm

theorem decodeOp_mode (op b1 b2 : Byte) : (decodeOp op b1 b2).mode = (desc op).mode :=
  (described _ op (opcode?_decodeOp op b1 b2)).2.symm

theorem decodeOp_of_illegal {op : Byte} (h : op ∈ illegalOpcodes) (b1 b2 : Byte) : decodeOp op b1 b2 = .ill op := by
  rw [decodeOp, desc_of_illegal op h]
  rfl

theorem opcode?_ill_eq_some {x op : Byte} : (Instr.ill x).opcode? = some op ↔ x ∈ illegalOpcodes ∧ x = op := by
  simp [Instr.opcode?]

/-- Only an illegal byte decodes to `ILL` (R87). -/
theorem illegal_of_decodeOp_mnemonic {op b1 b2 : Byte} (h : (decodeOp op b1 b2).mnemonic = .ILL) :
    op ∈ illegalOpcodes := by
  have hop := opcode?_decodeOp op b1 b2
  cases hi : decodeOp op b1 b2
  case ill x =>
    obtain ⟨hx, rfl⟩ := opcode?_ill_eq_some.1 (hi ▸ hop)
    exact hx
  all_goals exact nomatch hi ▸ h

/-- An instruction's operand bytes are those its length takes in (R80, R82). -/
theorem decodeOp_operandBytes (op b1 b2 : Byte) :
    (decodeOp op b1 b2).operandBytes = [b1, b2].take ((desc op).size - 1) := by
  rw [Desc.size, ← decodeOp_mode op b1 b2]
  unfold decodeOp
  cases h : documented? (desc op) b1 b2 with
  | none => rfl
  | some i => exact documented?_operandBytes h

/-- Every row of the table is what its opcode makes of some operand bytes. -/
theorem exists_decodeOp {i : Instr} {op : Byte} (h : i.opcode? = some op) : ∃ b1 b2, decodeOp op b1 b2 = i := by
  by_cases hill : i.mnemonic = .ILL
  · cases i
    case ill x =>
      obtain ⟨hx, rfl⟩ := opcode?_ill_eq_some.1 h
      exact ⟨0, 0, decodeOp_of_illegal hx 0 0⟩
    all_goals cases hill
  · obtain ⟨hmn, hmd⟩ := described i op h
    obtain ⟨b1, b2, hdoc⟩ := exists_documented? hmn hmd hill
    exact ⟨b1, b2, by rw [decodeOp, hdoc, Option.getD_some]⟩

/-! ### Lists of bytes -/

/-- All that `decode` can answer: the instruction of an opcode and two bytes, where the list holds as many of them as
the instruction's length takes in (R80, R82). -/
theorem decode_ok_iff {bs rest : List Byte} {i : Instr} :
    decode bs = .ok (i, rest) ↔
      ∃ op b1 b2, decodeOp op b1 b2 = i ∧ bs = op :: ([b1, b2].take ((desc op).size - 1) ++ rest) := by
  constructor
  · intro h
    cases bs with
    | nil => cases h
    | cons op tail =>
      unfold decode at h
      dsimp only at h
      split at h
      next hsize => cases h; exact ⟨op, 0, 0, rfl, by simp [hsize]⟩
      next b1 _ hsize => cases h; exact ⟨op, b1, 0, rfl, by simp [hsize]⟩
      next b1 b2 _ hsize => cases h; exact ⟨op, b1, b2, rfl, by simp [hsize]⟩
      next => cases h
  · rintro ⟨op, b1, b2, rfl, rfl⟩
    obtain ⟨h1, h2⟩ := decodeOp_bytes op b1 b2
    rcases desc_size (desc op) with h | h | h
    · simp [decode, h, h1 h]
    · simp [decode, h, h2 h]
    · simp [decode, h]

/-- Three bytes are enough for every instruction; what its length does not take in is left unread (R80). -/
theorem decode_of_three (op b1 b2 : Byte) (rest : List Byte) :
    decode (op :: b1 :: b2 :: rest) = .ok (decodeOp op b1 b2, [b1, b2].drop ((desc op).size - 1) ++ rest) :=
  decode_ok_iff.2 ⟨op, b1, b2, rfl, by rw [← List.append_assoc, List.take_append_drop]; rfl⟩

/-! ### The statements -/

/-- Settles O1: a row is what its opcode makes of its operand bytes, and those are what its length takes in. -/
theorem decodeOfEncodeGivesTheInstruction : Obligations.DecodeOfEncodeGivesTheInstruction := by
  intro i rest hi
  obtain ⟨op, hop⟩ := Option.isSome_iff_exists.1 ((opcode_isSome i).trans hi)
  obtain ⟨b1, b2, rfl⟩ := exists_decodeOp hop
  refine ⟨op :: (decodeOp op b1 b2).operandBytes, by rw [encode, hop]; rfl, ?_⟩
  exact decode_ok_iff.2 ⟨op, b1, b2, rfl, by rw [decodeOp_operandBytes, List.cons_append]⟩

/-- Settles O2: what decodes has its opcode byte and its operand bytes from the list. -/
theorem decodedBytesEncodeBack : Obligations.DecodedBytesEncodeBack := by
  intro bs rest i h
  obtain ⟨op, b1, b2, rfl, rfl⟩ := decode_ok_iff.1 h
  refine ⟨decodeOp_wellFormed op b1 b2, op :: (decodeOp op b1 b2).operandBytes, ?_, ?_⟩
  · rw [encode, opcode?_decodeOp]; rfl
  · rw [decodeOp_operandBytes, List.cons_append]

/-- Settles O3: each word by evaluation. -/
theorem sampleWordsDecode : Obligations.SampleWordsDecode :=
  ⟨rfl, rfl, rfl, rfl, rfl, rfl, rfl, rfl, rfl, rfl, rfl, rfl, rfl, rfl, rfl⟩

/-- Settles O4: three bytes always decode, and to `ILL` exactly if the first is illegal. -/
theorem everyByteValueDecodes : Obligations.EveryByteValueDecodes := by
  refine ⟨rfl, fun op b1 b2 => ⟨fun hop => ⟨desc_of_illegal op hop, ?_⟩, fun hop => ?_⟩⟩
  · rw [decode_of_three, decodeOp_of_illegal hop, desc_of_illegal op hop]; rfl
  · exact ⟨_, _, decode_of_three op b1 b2 [], fun hill => hop (illegal_of_decodeOp_mnemonic hill)⟩

/-- Settles O5: the bytes left unread are those past the mode's length. -/
theorem lengthIsThatOfTheAddressingMode : Obligations.LengthIsThatOfTheAddressingMode := by
  intro op b1 b2 rest
  refine ⟨decodeOp op b1 b2, ?_, decodeOp_mode op b1 b2, decodeOp_mnemonic op b1 b2⟩
  rw [decode_of_three, Desc.size]
  cases (desc op).mode <;> rfl

/-- A row of the opcode table has a next state in every state. -/
theorem exec_next_of_wellFormed {i : Instr} (hi : i.wellFormed = true) (s : State) : ∃ t, exec i s = .next t := by
  obtain ⟨d, hd⟩ := (wellFormed_iff_desc i).1 hi
  obtain ⟨k, hk⟩ := exec_eq_withRow i s
  exact ⟨k d, hk.trans (withRow_of_desc k hd)⟩

/-- A term that is no row is refused by name (log 8). -/
theorem exec_refused_of_not_wellFormed {i : Instr} (hi : i.wellFormed = false) (s : State) :
    exec i s = .refused .noSuchForm := by
  obtain ⟨k, hk⟩ := exec_eq_withRow i s
  cases hd : i.desc? with
  | none => rw [hk, withRow, hd]
  | some d => exact absurd ((wellFormed_iff_desc i).2 ⟨d, hd⟩) (Bool.eq_false_iff.1 hi)

/-- Settles O8: a step does nothing or runs what is fetched, which is a row. -/
theorem everyStepHasANextState : Obligations.EveryStepHasANextState := by
  refine ⟨fun s => ?_, fun i s hi => exec_next_of_wellFormed hi s, fun i s hi => exec_refused_of_not_wellFormed hi s⟩
  cases hs : s.suspended
  · rw [step_running hs]
    exact exec_next_of_wellFormed (decodeOp_wellFormed _ _ _) s
  · exact ⟨s, step_suspended hs⟩

end Sys2Proof.Machine
end

section
/-!
PROOFS of the family 40_execute_cycle: the step as the meaning of the decoded bytes, the effective addresses and targets
as numbers, and the two instructions that only set PC, the branches and JMP.
-/

namespace Sys2Proof.Machine

open Sys2Proof.Safety

/-! ### The step -/

/-- Settles O6: three bytes decode to what a fetch of them gives. -/
theorem stepRunsTheDecodedInstruction : Obligations.StepRunsTheDecodedInstruction := by
  intro s i rest hrun h
  rw [decode_of_three] at h
  obtain ⟨hi, -⟩ := Prod.mk.inj (Except.ok.inj h)
  rw [step_running hrun, State.fetch, hi]

/-- `ExecuteInstruction` returns what a step added to the counter (R104). -/
theorem executeInstruction_of_step {s t : State} (h : step s = .next t) :
    executeInstruction s = .next (t, t.cycles - s.cycles) := by rw [executeInstruction, h]

/-- Settles O7: the step is the same state, so the counter has not moved. -/
theorem suspendedStepChangesNothing : Obligations.SuspendedStepChangesNothing := by
  intro s hs
  have h := step_suspended hs
  exact ⟨h, by rw [executeInstruction_of_step h, Nat.sub_self]⟩

/-! ### Addresses as numbers -/

@[simp] theorem zeroPage_toNat (z : Byte) : (zeroPage z).toNat = z.toNat :=
  BitVec.toNat_setWidth_of_le (by decide)

theorem hiByte_ne_iff (a b : Addr) : (hiByte a != hiByte b) = true ↔ a.toNat / 256 ≠ b.toNat / 256 := by
  rw [bne_iff_ne, ne_eq, ← BitVec.toNat_inj, hiByte_toNat, hiByte_toNat]

/-- Indexing wraps at the top of memory, and crosses a page where the high byte changes (R112, R113, R116). -/
theorem indexed_spec (base : Addr) (index : Byte) :
    (indexed base index).ea.toNat = (base.toNat + index.toNat) % 0x10000 ∧
      ((indexed base index).crossed = true ↔ base.toNat / 256 ≠ (indexed base index).ea.toNat / 256) :=
  ⟨by simp [indexed], hiByte_ne_iff _ _⟩

/-- A pointer in page 0 is read there, low byte first, its second byte at the next address modulo 256 (R115, R116). -/
theorem zeroPageWord_eq {s : State} {z lo hi : Byte} (hlo : s.mem.read z.toNat = lo)
    (hhi : s.mem.read ((z.toNat + 1) % 256) = hi) : s.zeroPageWord z = word hi lo := by
  simp [State.zeroPageWord, State.read, hlo, hhi]

/-- Settles O22: `zeroPage_toNat` for the modes of page 0, `indexed_spec` for the indexed absolute ones. -/
theorem directModesResolveAndReportPageCrosses : Obligations.DirectModesResolveAndReportPageCrosses := by
  intro n z a m s
  exact ⟨⟨zeroPage_toNat z, rfl⟩, ⟨by simp [resolve], rfl⟩, ⟨by simp [resolve], rfl⟩, rfl, indexed_spec a s.x,
    indexed_spec a s.y, ⟨rfl, rfl⟩, rfl, rfl⟩

/-- Settles O23: the pointer's word by `zeroPageWord_eq`, then indexed by Y in `izy` only. -/
theorem indirectModesReadTheirPointerInPageZero : Obligations.IndirectModesReadTheirPointerInPageZero := by
  refine fun z s => ⟨fun lo hi hlo hhi => ?_, fun lo hi hlo hhi => ?_⟩
  · have hword : s.zeroPageWord (z + s.x) = word hi lo := zeroPageWord_eq (by simpa using hlo) (by simpa using hhi)
    exact ⟨by rw [resolve, hword, word_toNat], rfl⟩
  · obtain ⟨hea, hcross⟩ := indexed_spec (word hi lo) s.y
    have hpage : (word hi lo).toNat / 256 = hi.toNat := by rw [← hiByte_toNat, hiByte_word]
    rw [resolve, zeroPageWord_eq hlo hhi]
    exact ⟨by rw [hea, word_toNat], by rw [hcross, hpage]⟩

/-! ### Branches -/

/-- A branch's target is `next` plus the signed offset, modulo 2^16 (R83, R117). -/
theorem branchTarget_toNat (next : Addr) (offset : Byte) :
    ((branchTarget next offset).toNat : Int) = (next.toNat + offset.toInt) % 0x10000 := by
  rw [branchTarget, ← BitVec.toInt_signExtend_of_le (w := 8) (v := 16) (by decide), BitVec.toInt_eq_toNat_cond,
    BitVec.toNat_add]
  split <;> omega

/-- The cycles of a taken branch: one more than its base of two, and another across a page (R122). -/
theorem takenCycles_eq (next target : Addr) :
    2 + (1 + (hiByte next != hiByte target).toNat) = if next.toNat / 256 = target.toNat / 256 then 3 else 4 := by
  have h := hiByte_ne_iff next target
  split
  next hsame => rw [Bool.eq_false_iff.2 fun hne => h.1 hne hsame]; rfl
  next hother => rw [h.2 hother]; rfl

/-- An instruction of the branch class, with the descriptor of a branch, follows the rule of a branch (R205, R122). -/
theorem branchRule_of_branchClass {c : Byte → Instr} {mn : Mnemonic} {op : Byte} {cond : State → Bool}
    (henc : ∀ offset, encode (c offset) = some [op, offset])
    (hd : ∀ offset, (c offset).desc? = some ⟨mn, .rel, 2, 0⟩)
    (hexec : ∀ offset s, exec (c offset) s = branchClass (c offset) (cond s) offset s) : BranchRule c op cond := by
  intro offset s
  refine ⟨⟨[offset], henc offset, rfl⟩, ?_⟩
  have hnext : (s.pc + BitVec.ofNat 16 Mode.rel.size).toNat = (s.pc.toNat + 2) % 0x10000 := by simp [Mode.size]
  rw [hexec]
  cases cond s with
  | false => exact ⟨_, withRow_of_desc _ (hd offset), rfl, fun _ => ⟨hnext, rfl⟩, nofun⟩
  | true =>
    refine ⟨_, withRow_of_desc _ (hd offset), rfl, nofun, fun _ => ?_⟩
    rw [← hnext]
    exact ⟨branchTarget_toNat _ _, congrArg (s.cycles + ·) (takenCycles_eq _ _)⟩

/-- Settles O42: each of the eight is of the branch class, on its own flag. -/
theorem branchesGoToTheirTarget : Obligations.BranchesGoToTheirTarget :=
  ⟨branchRule_of_branchClass (fun _ => rfl) (fun _ => rfl) exec_bcc,
    branchRule_of_branchClass (fun _ => rfl) (fun _ => rfl) exec_bcs,
    branchRule_of_branchClass (fun _ => rfl) (fun _ => rfl) exec_beq,
    branchRule_of_branchClass (fun _ => rfl) (fun _ => rfl) exec_bmi,
    branchRule_of_branchClass (fun _ => rfl) (fun _ => rfl) exec_bne,
    branchRule_of_branchClass (fun _ => rfl) (fun _ => rfl) exec_bpl,
    branchRule_of_branchClass (fun _ => rfl) (fun _ => rfl) exec_bvc,
    branchRule_of_branchClass (fun _ => rfl) (fun _ => rfl) exec_bvs⟩

/-! ### JMP -/

/-- The address of a pointer's second byte in the pointer's own page (R114). -/
theorem pageWrappedNext_toNat (ptr : Addr) :
    (word (hiByte ptr) (loByte ptr + 1)).toNat = ptr.toNat / 256 * 256 + (ptr.toNat + 1) % 256 := by
  simp [word_toNat, hiByte_toNat, loByte_toNat]

/-- The word at JMP's pointer, its high byte from where `JMP_IND_PAGE_WRAP` says (R114). -/
theorem jumpTarget_ind {ptr : Addr} {s : State} {lo hi : Byte} (hlo : s.mem.read ptr.toNat = lo)
    (hhi : s.mem.read (if s.cfg.jmpIndPageWrap then ptr.toNat / 256 * 256 + (ptr.toNat + 1) % 256
      else (ptr.toNat + 1) % 0x10000) = hi) : jumpTarget (.ind ptr) s = word hi lo := by
  cases hw : s.cfg.jmpIndPageWrap with
  | false =>
    rw [if_neg (Bool.eq_false_iff.1 hw)] at hhi
    simp [jumpTarget, hw, State.read, hlo, hhi]
  | true =>
    rw [if_pos hw, ← pageWrappedNext_toNat] at hhi
    simp only [jumpTarget, hw, if_true, State.read, hlo, hhi]

/-- JMP sets PC to its target, with its row's cycles, and nothing else (R214). -/
theorem exec_jmp_eq {target : Target} {d : Desc} (hd : (Instr.jmp target).desc? = some d) (s : State) :
    exec (.jmp target) s = .next { s with pc := jumpTarget target s, cycles := s.cycles + d.base } :=
  transferClass_next.2 ⟨d, hd, rfl⟩

/-- Settles O43: JMP sets PC to its target, which in the indirect form is the word at the pointer. -/
theorem jmpSetsOnlyPc : Obligations.JmpSetsOnlyPc := by
  refine fun a s => ⟨⟨⟨[loByte a, hiByte a], rfl, rfl⟩, exec_jmp_eq (d := ⟨.JMP, .abs, 3, 0⟩) rfl s⟩,
    ⟨[loByte a, hiByte a], rfl, rfl⟩, _, exec_jmp_eq (d := ⟨.JMP, .ind, 5, 0⟩) rfl s, rfl, fun lo hi hlo hhi => ?_⟩
  rw [jumpTarget_ind hlo hhi, word_toNat]

end Sys2Proof.Machine
end

section
/-!
PROOFS of the family 41_load_store_transfer: the rows of a rule as those of the opcode table, the read and write classes
as the rules of their instructions, and with them the loads, the stores and the transfers.
-/

namespace Sys2Proof.Machine

open Sys2Proof.Safety

/-! ### The rows of a rule -/

/-- The encoder's opcode and the decoder's descriptor for it make up the row. -/
structure HasRow (i : Instr) (r : Row) : Prop where
  opcode : i.opcode? = some r.op
  size : (desc r.op).size = r.size
  base : (desc r.op).base = r.base
  extra : (desc r.op).pageCrossExtra = r.extra

/-- A rule's rows are the descriptor table's for a documented mnemonic. -/
abbrev DocumentedRows (mn : Mnemonic) (rows : Rows) : Prop :=
  mn ≠ .ILL ∧ ∀ e ∈ rows, desc e.2.op = ⟨mn, e.1, e.2.base, e.2.extra⟩ ∧ e.1.size = e.2.size

section
variable {i : Instr} {r : Row}

/-- An opcode whose descriptor has the mnemonic and the mode of a documented instruction is its opcode. -/
theorem opcode?_of_desc {op : Byte} (hmn : (desc op).mnemonic = i.mnemonic) (hmd : (desc op).mode = i.mode)
    (hdoc : i.mnemonic ≠ .ILL) : i.opcode? = some op := by
  obtain ⟨b1, b2, h⟩ := exists_documented? hmn hmd hdoc
  have hi : decodeOp op b1 b2 = i := by rw [decodeOp, h, Option.getD_some]
  exact hi ▸ opcode?_decodeOp op b1 b2

/-- The operand bytes and the opcode are as many bytes as the instruction is long (R80). -/
theorem operandBytes_length {op : Byte} (h : i.opcode? = some op) : i.operandBytes.length + 1 = (desc op).size := by
  obtain ⟨b1, b2, rfl⟩ := exists_decodeOp h
  have hsize := desc_size (desc op)
  rw [decodeOp_operandBytes, List.length_take, List.length_cons, List.length_singleton]
  omega

theorem HasRow.encodedAs (h : HasRow i r) : EncodedAs i r :=
  ⟨i.operandBytes, by rw [encode, h.opcode]; rfl, (operandBytes_length h.opcode).trans h.size⟩

theorem mem_of_lookup {rows : Rows} {md : Mode} (h : rows.lookup md = some r) : (md, r) ∈ rows := by
  obtain ⟨l, l', rfl, -⟩ := List.lookup_eq_some_iff.1 h
  simp

/-- An instruction has the row its rule lists for its mode. -/
theorem hasRow_of_lookup {mn : Mnemonic} {md : Mode} {rows : Rows} (hmn : i.mnemonic = mn) (hmd : i.mode = md)
    (hrows : DocumentedRows mn rows) (h : rows.lookup md = some r) : HasRow i r := by
  subst hmn hmd
  obtain ⟨hdoc, hall⟩ := hrows
  obtain ⟨hdesc, hsize⟩ := hall _ (mem_of_lookup h)
  exact ⟨opcode?_of_desc (by rw [hdesc]) (by rw [hdesc]) hdoc, by rw [hdesc]; exact hsize,
    by rw [hdesc], by rw [hdesc]⟩

/-- An instruction with an operand ends past itself, with its row's cycles and page-cross extra (R103, R104, R121). -/
theorem HasRow.endsAfter (h : HasRow i r) {s u : State} (crossed : Bool) (hpc : u.pc = s.pc)
    (hcycles : u.cycles = s.cycles) :
    EndsAfter r crossed s (u.finish (desc r.op) (crossExtra (desc r.op) crossed)) := by
  simp [EndsAfter, crossExtra, h.size, h.base, h.extra, hpc, hcycles, Nat.add_assoc]

/-- A row without a page-cross extra ends alike whether or not a page was crossed. -/
theorem endsAfter_of_extra_zero {crossed : Bool} {s t : State} (hextra : r.extra = 0) (h : EndsAfter r crossed s t) :
    EndsAfter r false s t := by
  simpa [EndsAfter, hextra] using h

end

/-! ### The read and write classes -/

/-- An instruction of the read class whose body is `effect` of the operand byte, with the flags written in P, follows the
rule of one (R118). -/
theorem readRule_of_readClass {c : Src → Instr} {rows : Rows} {pre : State → Prop} {effect k : State → Byte → State}
    {flags : State → Byte → List (Flag × Bool)}
    (hrow : ∀ src r, rows.lookup src.mode = some r → HasRow (c src) r)
    (hexec : ∀ src s, exec (c src) s = readClass (c src) src s (k s))
    (hpc : ∀ s m, (effect s m).pc = s.pc) (hcycles : ∀ s m, (effect s m).cycles = s.cycles)
    (hbody : ∀ s m, pre s → k s m = { effect s m with p := (k s m).p } ∧ FlagsExactly s.p (k s m).p (flags s m)) :
    ReadRule c rows pre effect flags := by
  intro src s r hr hpre
  have row := hrow src r hr
  obtain ⟨hk, hflags⟩ := hbody s (srcValue src s) hpre
  refine ⟨row.encodedAs, _, (hexec src s).trans (readClass_next.2 ⟨_, desc?_eq row.opcode, rfl⟩), ?_, ?_, hflags⟩
  · exact row.endsAfter _ (by rw [hk]; exact hpc _ _) (by rw [hk]; exact hcycles _ _)
  · rw [hk]
    rfl

/-- An instruction of the write class without a page-cross extra follows the rule of one (R118). -/
theorem storeRule_of_writeClass {c : MemOp → Instr} {rows : Rows} {value : State → Byte}
    (hrow : ∀ m r, rows.lookup m.mode = some r → HasRow (c m) r) (hextra : ∀ e ∈ rows, e.2.extra = 0)
    (hexec : ∀ m s, exec (c m) s = writeClass (c m) m (value s) s) : StoreRule c rows value := by
  intro m s r hr
  have row := hrow m r hr
  refine ⟨row.encodedAs, _, (hexec m s).trans (writeClass_next.2 ⟨_, desc?_eq row.opcode, rfl⟩), ?_, rfl,
    storesExactly_frame (write_stores s _ _) rfl rfl⟩
  exact endsAfter_of_extra_zero (hextra _ (mem_of_lookup hr)) (row.endsAfter _ rfl rfl)

/-! ### The statements -/

/-- Settles O24: the loads are of the read class, and their body sets the register, then N and Z. -/
theorem loadsSetTheRegisterAndNZ : Obligations.LoadsSetTheRegisterAndNZ :=
  ⟨readRule_of_readClass (fun _ _ => hasRow_of_lookup (mn := .LDA) rfl rfl (by decide)) exec_lda
      (fun _ _ => rfl) (fun _ _ => rfl) fun _ _ _ => ⟨rfl, flagsExactly_nz _ _⟩,
    readRule_of_readClass (fun _ _ => hasRow_of_lookup (mn := .LDX) rfl rfl (by decide)) exec_ldx
      (fun _ _ => rfl) (fun _ _ => rfl) fun _ _ _ => ⟨rfl, flagsExactly_nz _ _⟩,
    readRule_of_readClass (fun _ _ => hasRow_of_lookup (mn := .LDY) rfl rfl (by decide)) exec_ldy
      (fun _ _ => rfl) (fun _ _ => rfl) fun _ _ _ => ⟨rfl, flagsExactly_nz _ _⟩⟩

/-- Settles O25: the stores are of the write class, and none of their rows has a page-cross extra. -/
theorem storesWriteTheRegister : Obligations.StoresWriteTheRegister :=
  ⟨storeRule_of_writeClass (fun _ _ => hasRow_of_lookup (mn := .STA) rfl rfl (by decide)) (by decide) exec_sta,
    storeRule_of_writeClass (fun _ _ => hasRow_of_lookup (mn := .STX) rfl rfl (by decide)) (by decide) exec_stx,
    storeRule_of_writeClass (fun _ _ => hasRow_of_lookup (mn := .STY) rfl rfl (by decide)) (by decide) exec_sty⟩

/-- A transfer that writes N and Z by the byte it copies follows the rule of an implied instruction. -/
theorem impliedRule_of_transfer {i : Instr} {mn : Mnemonic} {op : Byte} {effect : State → State} {source : State → Byte}
    (henc : encode i = some [op]) (hd : i.desc? = some ⟨mn, .imp, 2, 0⟩)
    (hexec : ∀ s, exec i s = impliedClass i ((effect s).setP (putNZ s.p (source s))))
    (hpc : ∀ s, (effect s).pc = s.pc) (hcycles : ∀ s, (effect s).cycles = s.cycles) :
    ImpliedRule i ⟨op, 1, 2, 0⟩ effect fun s => nz (source s) :=
  impliedRule_of_implied ⟨[], henc, rfl⟩ hd rfl rfl hexec hpc hcycles fun _ => flagsExactly_nz _ _

/-- Settles O26: the transfers are implied instructions; TXS leaves P as it is. -/
theorem transfersCopyTheRegister : Obligations.TransfersCopyTheRegister :=
  ⟨impliedRule_of_transfer rfl rfl exec_tax (fun _ => rfl) fun _ => rfl,
    impliedRule_of_transfer rfl rfl exec_tay (fun _ => rfl) fun _ => rfl,
    impliedRule_of_transfer rfl rfl exec_txa (fun _ => rfl) fun _ => rfl,
    impliedRule_of_transfer rfl rfl exec_tya (fun _ => rfl) fun _ => rfl,
    impliedRule_of_transfer rfl rfl exec_tsx (fun _ => rfl) fun _ => rfl,
    impliedRule_of_implied (status := State.p) ⟨[], rfl, rfl⟩ (d := ⟨.TXS, .imp, 2, 0⟩) rfl rfl rfl exec_txs
      (fun _ => rfl) (fun _ => rfl) fun s => flagsExactly_refl s.p⟩

end Sys2Proof.Machine
end

section
/-!
PROOFS of the family 43_arith_logic, first part: the read-modify-write class as the rule of its instructions, and the
instructions whose result is not decimal: logic, BIT, the compares, and the increments and decrements.
-/

namespace Sys2Proof.Machine

open Sys2Proof.Safety

/-- An instruction of the read-modify-write class without a page-cross extra, whose computation makes `value` of the
byte and writes the flags in P, follows the rule of one (R118). -/
theorem modifyRule_of_modifyMemClass {c : MemOp → Instr} {rows : Rows} {f : Byte → Byte → Byte × Byte}
    {value : State → Byte → Byte} {flags : State → Byte → List (Flag × Bool)}
    (hrow : ∀ m r, rows.lookup m.mode = some r → HasRow (c m) r) (hextra : ∀ e ∈ rows, e.2.extra = 0)
    (hexec : ∀ m s, exec (c m) s = modifyMemClass (c m) m s f)
    (hvalue : ∀ s v, (f v s.p).1 = value s v) (hflags : ∀ s v, FlagsExactly s.p (f v s.p).2 (flags s v)) :
    ModifyRule c rows value flags := by
  intro m s r hr
  have row := hrow m r hr
  refine ⟨row.encodedAs, _, (hexec m s).trans (modifyMemClass_next.2 ⟨_, desc?_eq row.opcode, rfl⟩), ?_, rfl, ?_,
    hflags s _⟩
  · exact endsAfter_of_extra_zero (hextra _ (mem_of_lookup hr)) (row.endsAfter _ rfl rfl)
  · rw [← hvalue]
    exact storesExactly_frame (write_stores s _ _) rfl rfl

/-- Settles O38: INC and DEC are of the read-modify-write class, and write N and Z by the new byte. -/
theorem incAndDecWriteMemoryOnce : Obligations.IncAndDecWriteMemoryOnce :=
  ⟨modifyRule_of_modifyMemClass (fun _ _ => hasRow_of_lookup (mn := .INC) rfl rfl (by decide)) (by decide) exec_inc
      (fun _ _ => rfl) fun _ _ => flagsExactly_nz _ _,
    modifyRule_of_modifyMemClass (fun _ _ => hasRow_of_lookup (mn := .DEC) rfl rfl (by decide)) (by decide) exec_dec
      (fun _ _ => rfl) fun _ _ => flagsExactly_nz _ _⟩

/-- Settles O39: as a transfer does, each sets its register to a byte and writes N and Z by it. -/
theorem indexRegistersCountModulo256 : Obligations.IndexRegistersCountModulo256 :=
  ⟨impliedRule_of_transfer rfl rfl exec_inx (fun _ => rfl) fun _ => rfl,
    impliedRule_of_transfer rfl rfl exec_iny (fun _ => rfl) fun _ => rfl,
    impliedRule_of_transfer rfl rfl exec_dex (fun _ => rfl) fun _ => rfl,
    impliedRule_of_transfer rfl rfl exec_dey (fun _ => rfl) fun _ => rfl⟩

/-- An instruction of the read class that sets A to `op` of A and the operand byte, then N and Z, follows its rule. -/
theorem readRule_of_logic {c : Src → Instr} {rows : Rows} {op : Byte → Byte → Byte}
    (hrow : ∀ src r, rows.lookup src.mode = some r → HasRow (c src) r)
    (hexec : ∀ src s, exec (c src) s = readClass (c src) src s fun m => (s.setA (op s.a m)).setNZ (op s.a m)) :
    ReadRule c rows (fun _ => True) (fun s m => { s with a := op s.a m }) fun s m => nz (op s.a m) :=
  readRule_of_readClass hrow hexec (fun _ _ => rfl) (fun _ _ => rfl) fun _ _ _ => ⟨rfl, flagsExactly_nz _ _⟩

/-- Settles O35: each of the three is of the read class, with its own bitwise operation. -/
theorem logicInstructionsCombineBitwise : Obligations.LogicInstructionsCombineBitwise :=
  ⟨readRule_of_logic (op := (· &&& ·)) (fun _ _ => hasRow_of_lookup (mn := .AND) rfl rfl (by decide)) exec_and,
    readRule_of_logic (op := (· ||| ·)) (fun _ _ => hasRow_of_lookup (mn := .ORA) rfl rfl (by decide)) exec_ora,
    readRule_of_logic (op := (· ^^^ ·)) (fun _ _ => hasRow_of_lookup (mn := .EOR) rfl rfl (by decide)) exec_eor⟩

/-- The flags BIT writes: N and V from the operand, Z from A and the operand (R177). -/
theorem flagsExactly_bitFlags (a m p : Byte) :
    FlagsExactly p (bitFlags a m p) [(.n, m.getLsbD 7), (.v, m.getLsbD 6), (.z, decide (a &&& m = 0))] :=
  flagsExactly_congr
    (flagsExactly_put (flagsExactly_put (flagsExactly_put (flagsExactly_refl p) .n (m.getLsbD 7)) .v (m.getLsbD 6)) .z
      ((a &&& m) == 0))
    fun f => by cases f <;> rfl

/-- Settles O36: BIT is of the read class on a memory operand, and its body sets P only. -/
theorem bitTestsTheOperand : Obligations.BitTestsTheOperand := by
  intro m s r hr
  have row : HasRow (.bit m) r := hasRow_of_lookup (mn := .BIT) rfl rfl (by decide) hr
  have hextra : r.extra = 0 := (by decide : ∀ e ∈ bitRows, e.2.extra = 0) _ (mem_of_lookup hr)
  exact ⟨row.encodedAs, _, (exec_bit m s).trans (readClass_next.2 ⟨_, desc?_eq row.opcode, rfl⟩),
    endsAfter_of_extra_zero hextra (row.endsAfter _ rfl rfl), rfl, flagsExactly_bitFlags _ _ _⟩

/-- The flags a compare writes, with N that of the difference modulo 256 (R178 to R180). -/
theorem flagsExactly_compareFlags (r m p : Byte) :
    FlagsExactly p (compareFlags r m p)
      [(.c, decide (r.toNat ≥ m.toNat)), (.z, decide (r = m)),
        (.n, (BitVec.ofNat 8 ((256 + r.toNat - m.toNat) % 256)).getLsbD 7)] := by
  have hdiff : BitVec.ofNat 8 ((256 + r.toNat - m.toNat) % 256) = r - m := by bv_omega
  rw [hdiff]
  refine flagsExactly_congr
    (flagsExactly_put (flagsExactly_put (flagsExactly_put (flagsExactly_refl p) .c (decide (m ≤ r))) .z (r == m)) .n
      (r - m).msb) fun f => ?_
  rw [BitVec.msb_eq_getLsbD_last]
  cases f <;> rfl

/-- An instruction of the read class that only compares a register with the operand byte follows its rule. -/
theorem readRule_of_compare {c : Src → Instr} {rows : Rows} {reg : State → Byte}
    (hrow : ∀ src r, rows.lookup src.mode = some r → HasRow (c src) r)
    (hexec : ∀ src s, exec (c src) s = readClass (c src) src s fun m => s.setP (compareFlags (reg s) m s.p)) :
    ReadRule c rows (fun _ => True) (fun s _ => s) fun s m =>
      [(.c, decide ((reg s).toNat ≥ m.toNat)), (.z, decide (reg s = m)),
        (.n, (BitVec.ofNat 8 ((256 + (reg s).toNat - m.toNat) % 256)).getLsbD 7)] :=
  readRule_of_readClass hrow hexec (fun _ _ => rfl) (fun _ _ => rfl) fun _ _ _ => ⟨rfl, flagsExactly_compareFlags _ _ _⟩

/-- Settles O37: each of the three is of the read class, and compares its own register. -/
theorem comparesSetCZN : Obligations.ComparesSetCZN :=
  ⟨readRule_of_compare (reg := State.a) (fun _ _ => hasRow_of_lookup (mn := .CMP) rfl rfl (by decide)) exec_cmp,
    readRule_of_compare (reg := State.x) (fun _ _ => hasRow_of_lookup (mn := .CPX) rfl rfl (by decide)) exec_cpx,
    readRule_of_compare (reg := State.y) (fun _ _ => hasRow_of_lookup (mn := .CPY) rfl rfl (by decide)) exec_cpy⟩

end Sys2Proof.Machine
end

section
/-!
PROOFS of the family 43_arith_logic, second part: ADC and SBC, binary and decimal. Each computation is taken apart once,
into the byte it leaves in A and the flags it writes; a decimal one is two digits, each adjusted by 6 where it leaves
the range of a decimal digit, and on valid digits the adjustment makes it a digit of base 10 with its carry or borrow.
-/

namespace Sys2Proof.Machine

open Sys2Proof.Safety

/-! ### Which computation A and P come from -/

/-- With D set, in NMOS mode, ADC and SBC do decimal arithmetic (R170, R172). -/
theorem decimalActive_eq_true {mode : DecimalMode} {p : Byte} (h : getFlag p .d = true ∧ mode = .nmos) :
    decimalActive mode p = true := by
  obtain ⟨hd, rfl⟩ := h
  rw [decimalActive, hd]
  rfl

section
variable {mode : DecimalMode} {a m p : Byte}

theorem adcResult_of_binary (h : getFlag p .d = false ∨ mode = .binary) : adcResult mode a m p = adcBinary a m p := by
  rw [adcResult, decimalActive_eq_false h, if_neg (by decide)]

theorem adcResult_of_decimal (h : getFlag p .d = true ∧ mode = .nmos) : adcResult mode a m p = adcDecimal a m p := by
  rw [adcResult, decimalActive_eq_true h, if_pos rfl]

theorem sbcResult_of_binary (h : getFlag p .d = false ∨ mode = .binary) : sbcResult mode a m p = sbcBinary a m p := by
  rw [sbcResult, decimalActive_eq_false h, if_neg (by decide)]

theorem sbcResult_of_decimal (h : getFlag p .d = true ∧ mode = .nmos) : sbcResult mode a m p = sbcDecimal a m p := by
  rw [sbcResult, decimalActive_eq_true h, if_pos rfl]

end

/-- An instruction of the read class that takes A and P from `result` follows the rule of one whose A is `value`. -/
theorem readRule_of_result {c : Src → Instr} {rows : Rows} {result : DecimalMode → Byte → Byte → Byte → Byte × Byte}
    {pre : State → Prop} {value : State → Byte → Byte} {flags : State → Byte → List (Flag × Bool)}
    (hrow : ∀ src r, rows.lookup src.mode = some r → HasRow (c src) r)
    (hexec : ∀ src s, exec (c src) s = readClass (c src) src s fun m =>
      let r := result s.cfg.decimalMode s.a m s.p
      (s.setA r.1).setP r.2)
    (h : ∀ s m, pre s → (result s.cfg.decimalMode s.a m s.p).1 = value s m ∧
      FlagsExactly s.p (result s.cfg.decimalMode s.a m s.p).2 (flags s m)) :
    ReadRule c rows pre (fun s m => { s with a := value s m }) flags :=
  readRule_of_readClass hrow hexec (fun _ _ => rfl) (fun _ _ => rfl) fun s m hpre => by
    obtain ⟨hvalue, hflags⟩ := h s m hpre
    exact ⟨by rw [← hvalue]; rfl, hflags⟩

theorem adc_hasRow {src : Src} {r : Row} (h : adcRows.lookup src.mode = some r) : HasRow (.adc src) r :=
  hasRow_of_lookup (mn := .ADC) rfl rfl (by decide) h

theorem sbc_hasRow {src : Src} {r : Row} (h : sbcRows.lookup src.mode = some r) : HasRow (.sbc src) r :=
  hasRow_of_lookup (mn := .SBC) rfl rfl (by decide) h

/-! ### Binary -/

theorem bne_eq_decide_ne (v w : Byte) : (v != w) = decide (v ≠ w) := by
  rw [bne, decide_not]
  rfl

/-- Writing C and V, then N and Z of a result, writes exactly those four. -/
theorem flagsExactly_cv_nz (p r : Byte) (c v : Bool) :
    FlagsExactly p (putNZ (putFlag (putFlag p .c c) .v v) r) ([(.c, c), (.v, v)] ++ nz r) :=
  flagsExactly_congr (flagsExactly_putNZ (flagsExactly_put (flagsExactly_put (flagsExactly_refl p) .c c) .v v) r)
    fun f => by cases f <;> rfl

theorem ofNat_mod_256 (n : Nat) : BitVec.ofNat 8 (n % 256) = BitVec.ofNat 8 n := by bv_omega

/-- The subtrahend enters SBC's sum complemented (R173). -/
theorem sbcSum_eq (a m p : Byte) : sbcSum a m p = a.toNat + (255 - m.toNat) + (getFlag p .c).toNat := by
  rw [sbcSum, BitVec.toNat_not]
  rfl

/-- Settles O29: A is the sum modulo 256, C its ninth bit, and V, N and Z are of it. -/
theorem adcAddsInBinary : Obligations.AdcAddsInBinary := by
  unfold Obligations.AdcAddsInBinary
  intro sum
  refine readRule_of_result (fun _ _ => adc_hasRow) exec_adc fun s m hbin => ?_
  simp only [adcResult_of_binary hbin, ofNat_mod_256, ← bne_eq_decide_ne]
  exact ⟨rfl, flagsExactly_cv_nz _ _ _ _⟩

/-- The flags of SBC, binary and decimal alike, in the terms of the rule (R172, R173). -/
theorem flagsExactly_sbcFlags (a m p : Byte) {sum : Nat}
    (hsum : sum = a.toNat + (255 - m.toNat) + (getFlag p .c).toNat) :
    FlagsExactly p (sbcFlags a m p)
      ([(.c, decide (sum > 0xFF)), (.v, decide (((a ^^^ m) &&& (a ^^^ BitVec.ofNat 8 (sum % 256)) &&& 0x80) ≠ 0))] ++
        nz (BitVec.ofNat 8 (sum % 256))) := by
  rw [ofNat_mod_256, hsum, ← sbcSum_eq, ← bne_eq_decide_ne]
  exact flagsExactly_cv_nz _ _ _ _

/-- Settles O31: A is the sum with the complement modulo 256, C its ninth bit, and V, N and Z are of it. -/
theorem sbcSubtractsInBinary : Obligations.SbcSubtractsInBinary := by
  unfold Obligations.SbcSubtractsInBinary
  intro sum
  refine readRule_of_result (fun _ _ => sbc_hasRow) exec_sbc fun s m hbin => ?_
  rw [sbcResult_of_binary hbin]
  refine ⟨?_, flagsExactly_sbcFlags _ _ _ rfl⟩
  rw [ofNat_mod_256, sbcBinary, sbcSum_eq]

/-! ### Decimal addition -/

/-- A digit of a sum, 6 higher where it is past 9 (R171). -/
def addAdjust (n : Nat) : Nat := if n > 9 then n + 6 else n

/-- The low digit of a decimal sum, before its adjustment (R171). -/
def lowSum (a m p : Byte) : Nat := a.toNat % 16 + m.toNat % 16 + carryIn p

/-- The high digit of a decimal sum, before its adjustment (R171). -/
def highSum (a m p : Byte) : Nat := a.toNat / 16 + m.toNat / 16 + (if addAdjust (lowSum a m p) > 0x0F then 1 else 0)

theorem adcDecimal_fst (a m p : Byte) :
    (adcDecimal a m p).1 = BitVec.ofNat 8 (addAdjust (highSum a m p) * 16 + addAdjust (lowSum a m p) % 16) := rfl

/-- V after a decimal ADC: A and the operand agree in sign, and the high digit does not (R171). -/
theorem decimal_overflow (a m : Byte) (n : Nat) :
    ((~~~(a ^^^ m) &&& (a ^^^ BitVec.ofNat 8 (n * 16)) &&& 0x80) != 0) =
      (a.getLsbD 7 == m.getLsbD 7 && a.getLsbD 7 != (n <<< 4).testBit 7) := by
  have signs : ∀ x y z : Bool, (!(x ^^ y) && (x ^^ z)) = (x == y && x != z) := by decide
  have hbit : (BitVec.ofNat 8 (n * 16)).getLsbD 7 = (n <<< 4).testBit 7 := by
    rw [BitVec.getLsbD_ofNat, Nat.shiftLeft_eq]
    rfl
  rw [and_0x80_ne_zero, ← hbit, ← signs]
  simp [BitVec.msb_eq_getLsbD_last]

/-- The flags of a decimal ADC, in the terms of the rule (R171). -/
theorem flagsExactly_adcDecimal (a m p : Byte) :
    FlagsExactly p (adcDecimal a m p).2
      [(.z, decide ((a.toNat + m.toNat + carryIn p) % 256 = 0)), (.n, decide (highSum a m p &&& 0x08 ≠ 0)),
        (.v, a.getLsbD 7 == m.getLsbD 7 && a.getLsbD 7 != (highSum a m p <<< 4).testBit 7),
        (.c, decide (addAdjust (highSum a m p) > 0x0F))] := by
  have hz : (BitVec.ofNat 8 (a.toNat + m.toNat + carryIn p) == 0) =
      decide ((a.toNat + m.toNat + carryIn p) % 256 = 0) := by
    rw [Bool.eq_iff_iff, beq_iff_eq, ← BitVec.toNat_inj, decide_eq_true_iff]
    rfl
  have hn : (highSum a m p).testBit 3 = decide (highSum a m p &&& 0x08 ≠ 0) := by
    rw [show 0x08 = 2 ^ 3 from rfl, Nat.and_two_pow]
    cases (highSum a m p).testBit 3 <;> rfl
  rw [← hz, ← hn, ← decimal_overflow]
  exact flagsExactly_congr (flagsExactly_put (flagsExactly_put (flagsExactly_put (flagsExactly_put (flagsExactly_refl p)
    .z _) .n _) .v _) .c _) fun f => by cases f <;> rfl

/-- Two digits put together by their bits are those of a sum. -/
theorem shiftLeft_four_or {hi lo : Nat} (h : lo < 16) : hi <<< 4 ||| lo = hi * 16 + lo := by
  rw [← Nat.shiftLeft_add_eq_or_of_lt h, Nat.shiftLeft_eq]

/-- Settles O30: the rule's intermediates are `lowSum` and `highSum` and what `addAdjust` makes of them. -/
theorem adcAddsInNmosDecimal : Obligations.AdcAddsInNmosDecimal := by
  unfold Obligations.AdcAddsInNmosDecimal
  intro c lo0 lo hi0 hi
  have low (n : Nat) : n &&& 0x0F = n % 16 := Nat.and_two_pow_sub_one_eq_mod n 4
  have high (n : Nat) : n >>> 4 = n / 16 := Nat.shiftRight_eq_div_pow n 4
  have hlo (s : State) (m : Byte) : lo s m = addAdjust (lowSum s.a m s.p) := by
    simp only [lo, lo0, low]
    rfl
  have hhi0 (s : State) (m : Byte) : hi0 s m = highSum s.a m s.p := by
    simp only [hi0, hlo, high]
    rfl
  have hhi (s : State) (m : Byte) : hi s m = addAdjust (highSum s.a m s.p) := by
    simp only [hi, hhi0]
    rfl
  refine readRule_of_result (fun _ _ => adc_hasRow) exec_adc fun s m hdec => ?_
  rw [adcResult_of_decimal hdec, hhi0, hhi, hlo]
  refine ⟨?_, flagsExactly_adcDecimal _ _ _⟩
  rw [adcDecimal_fst, ofNat_mod_256, low, shiftLeft_four_or (Nat.mod_lt _ (by decide))]

/-! ### Decimal subtraction -/

/-- A digit of a difference, 6 lower where it is negative (R172). -/
def subAdjust (n : Int) : Int := if n < 0 then n - 6 else n

/-- The low digit of a decimal difference, before its adjustment (R172). -/
def lowDiff (a m p : Byte) : Int := (a.toNat % 16 : Nat) - (m.toNat % 16 : Nat) - (1 - carryIn p)

/-- The high digit of a decimal difference, before its adjustment (R172). -/
def highDiff (a m p : Byte) : Int :=
  (a.toNat / 16 : Nat) - (m.toNat / 16 : Nat) - (if lowDiff a m p < 0 then 1 else 0)

theorem sbcDecimal_fst (a m p : Byte) :
    (sbcDecimal a m p).1 = BitVec.ofInt 8 (subAdjust (highDiff a m p) % 16 * 16 + subAdjust (lowDiff a m p) % 16) := rfl

/-- The low four bits of a number of either sign. -/
theorem exists_nat_emod_sixteen (n : Int) : ∃ k : Nat, n % 16 = k ∧ k < 16 :=
  ⟨(n % 16).toNat, by omega, by omega⟩

/-- A byte of two digits, each the low four bits of a number of either sign. -/
theorem ofInt_digits (hi lo : Int) :
    BitVec.ofInt 8 (hi % 16 * 16 + lo % 16) = BitVec.ofNat 8 (((hi % 16).toNat <<< 4) ||| (lo % 16).toNat) := by
  obtain ⟨h, hh, -⟩ := exists_nat_emod_sixteen hi
  obtain ⟨l, hl, hlt⟩ := exists_nat_emod_sixteen lo
  rw [hh, hl, Int.toNat_natCast, Int.toNat_natCast, shiftLeft_four_or hlt, ← BitVec.ofInt_natCast]
  push_cast
  rfl

/-- Settles O32: the byte is that of the two adjusted digits, and the flags are those of the binary subtraction. -/
theorem sbcSubtractsInNmosDecimal : Obligations.SbcSubtractsInNmosDecimal := by
  unfold Obligations.SbcSubtractsInNmosDecimal
  intro sum lo0 lo hi0 hi
  refine readRule_of_result (fun _ _ => sbc_hasRow) exec_sbc fun s m hdec => ?_
  rw [sbcResult_of_decimal hdec]
  exact ⟨ofInt_digits _ _, flagsExactly_sbcFlags _ _ _ rfl⟩

/-! ### Valid digits -/

/-- Both digits of the byte are decimal. -/
def ValidBcd (v : Byte) : Prop := v.toNat / 16 ≤ 9 ∧ v.toNat % 16 ≤ 9

/-- The number a byte of two decimal digits stands for. -/
def bcdValue (v : Byte) : Nat := v.toNat / 16 * 10 + v.toNat % 16

/-- A byte made of two decimal digits. -/
theorem bcd_of_digits {v : Byte} {hi lo : Nat} (hhi : hi ≤ 9) (hlo : lo ≤ 9) (hv : v.toNat = hi * 16 + lo) :
    ValidBcd v ∧ bcdValue v = hi * 10 + lo := by
  simp only [ValidBcd, bcdValue]
  omega

/-- The adjustment of a sum of two decimal digits and a carry: the digit of base 10, with its carry past 0x0F. -/
theorem addAdjust_digit {n : Nat} (h : n ≤ 19) : addAdjust n % 16 = n % 10 ∧ (addAdjust n > 0x0F ↔ n ≥ 10) := by
  rw [addAdjust]
  split <;> omega

/-- The adjustment of a difference of two decimal digits and a borrow: the digit of base 10. -/
theorem subAdjust_digit {n : Int} (hlo : -10 ≤ n) (hhi : n ≤ 9) : subAdjust n % 16 = n % 10 := by
  rw [subAdjust]
  split <;> omega

section
variable {a m : Byte} (p : Byte)

/-- On valid digits a decimal ADC is the sum modulo 100, with C its carry (R171). -/
theorem adcDecimal_bcd (ha : ValidBcd a) (hm : ValidBcd m) :
    ValidBcd (adcDecimal a m p).1 ∧
      bcdValue (adcDecimal a m p).1 = (bcdValue a + bcdValue m + carryIn p) % 100 ∧
      getFlag (adcDecimal a m p).2 .c = decide (bcdValue a + bcdValue m + carryIn p ≥ 100) := by
  obtain ⟨ha1, ha0⟩ := ha
  obtain ⟨hm1, hm0⟩ := hm
  have hcarry : carryIn p ≤ 1 := Bool.toNat_le _
  have hlow : lowSum a m p = a.toNat % 16 + m.toNat % 16 + carryIn p := rfl
  obtain ⟨hlowDigit, hlowCarry⟩ := addAdjust_digit (n := lowSum a m p) (by omega)
  have hhigh : highSum a m p = a.toNat / 16 + m.toNat / 16 + lowSum a m p / 10 := by
    rw [highSum]
    split <;> omega
  obtain ⟨hhighDigit, hhighCarry⟩ := addAdjust_digit (n := highSum a m p) (by omega)
  have hdigits : (adcDecimal a m p).1.toNat = highSum a m p % 10 * 16 + lowSum a m p % 10 := by
    rw [adcDecimal_fst, BitVec.toNat_ofNat]
    omega
  obtain ⟨hvalid, hvalue⟩ := bcd_of_digits (by omega) (by omega) hdigits
  have hc : getFlag (adcDecimal a m p).2 .c = decide (addAdjust (highSum a m p) > 0x0F) :=
    flagsExactly_adcDecimal a m p .c
  refine ⟨hvalid, ?_, ?_⟩
  · rw [hvalue, bcdValue, bcdValue]
    omega
  · rw [hc, decide_eq_decide, hhighCarry]
    simp only [bcdValue]
    omega

/-- On valid digits a decimal SBC is the difference modulo 100, with C clear where it borrows (R172). -/
theorem sbcDecimal_bcd (ha : ValidBcd a) (hm : ValidBcd m) :
    ValidBcd (sbcDecimal a m p).1 ∧
      (bcdValue (sbcDecimal a m p).1 : Int) = ((bcdValue a : Int) - bcdValue m - (1 - carryIn p)) % 100 ∧
      getFlag (sbcDecimal a m p).2 .c = decide ((bcdValue a : Int) - bcdValue m - (1 - carryIn p) ≥ 0) := by
  obtain ⟨ha1, ha0⟩ := ha
  obtain ⟨hm1, hm0⟩ := hm
  have hcarry : carryIn p ≤ 1 := Bool.toNat_le _
  have hlow : lowDiff a m p = (a.toNat % 16 : Nat) - (m.toNat % 16 : Nat) - (1 - carryIn p) := rfl
  have hhigh : highDiff a m p = (a.toNat / 16 : Nat) - (m.toNat / 16 : Nat) + lowDiff a m p / 10 := by
    rw [highDiff]
    split <;> omega
  have hdigits : (sbcDecimal a m p).1.toNat = (highDiff a m p % 10).toNat * 16 + (lowDiff a m p % 10).toNat := by
    rw [sbcDecimal_fst, subAdjust_digit (n := highDiff a m p) (by omega) (by omega),
      subAdjust_digit (n := lowDiff a m p) (by omega) (by omega), BitVec.toNat_ofInt]
    omega
  obtain ⟨hvalid, hvalue⟩ := bcd_of_digits (by omega) (by omega) hdigits
  have hc : getFlag (sbcDecimal a m p).2 .c = decide (a.toNat + (255 - m.toNat) + carryIn p > 0xFF) :=
    flagsExactly_sbcFlags a m p rfl .c
  refine ⟨hvalid, ?_, ?_⟩
  · rw [hvalue, bcdValue, bcdValue]
    omega
  · rw [hc, decide_eq_decide]
    simp only [bcdValue]
    omega

end

/-- Settles O33: on the immediate form, ADC and SBC leave A and P as the decimal computation makes them. -/
theorem decimalArithmeticIsBcdOnValidDigits : Obligations.DecimalArithmeticIsBcdOnValidDigits := by
  intro n s hd hmode ha1 ha0 hn1 hn0
  constructor
  · refine ⟨_, (exec_adc ..).trans (readClass_next.2 ⟨⟨.ADC, .imm, 2, 0⟩, rfl, rfl⟩), ?_⟩
    obtain ⟨⟨hhi, hlo⟩, hvalue, hc⟩ := adcDecimal_bcd s.p ⟨ha1, ha0⟩ ⟨hn1, hn0⟩
    rw [← adcResult_of_decimal ⟨hd, hmode⟩] at hhi hlo hvalue hc
    exact ⟨hhi, hlo, hvalue, hc⟩
  · refine ⟨_, (exec_sbc ..).trans (readClass_next.2 ⟨⟨.SBC, .imm, 2, 0⟩, rfl, rfl⟩), ?_⟩
    obtain ⟨⟨hhi, hlo⟩, hvalue, hc⟩ := sbcDecimal_bcd s.p ⟨ha1, ha0⟩ ⟨hn1, hn0⟩
    rw [← sbcResult_of_decimal ⟨hd, hmode⟩] at hhi hlo hvalue hc
    exact ⟨hhi, hlo, hvalue, hc⟩

end Sys2Proof.Machine
end

section
/-!
PROOFS of the family 44_shift_rotate: a shift or rotate as the two rules of its forms, of A and of memory, which its one
computation makes alike; then each of the four by the byte its computation makes.
-/

namespace Sys2Proof.Machine

open Sys2Proof.Safety

/-- Writing C, then N and Z of a result, writes exactly those three (R195 to R198). -/
theorem flagsExactly_c_nz (p r : Byte) (c : Bool) : FlagsExactly p (putNZ (putFlag p .c c) r) ((.c, c) :: nz r) :=
  flagsExactly_congr (flagsExactly_putNZ (flagsExactly_put (flagsExactly_refl p) .c c) r) fun f => by cases f <;> rfl

section
variable {c : Place → Instr} {f : Byte → Byte → Byte × Byte} {value : State → Byte → Byte}

/-- The accumulator form of an instruction of the shift class, whose computation makes `value` of A and writes the flags
in P, follows the rule of one without a memory operand (R106). -/
theorem impliedRule_of_shiftClass_acc {r : Row} {flags : State → List (Flag × Bool)} (row : HasRow (c .acc) r)
    (hexec : ∀ place s, exec (c place) s = shiftClass (c place) place s f) (hvalue : ∀ s v, (f v s.p).1 = value s v)
    (hflags : ∀ s, FlagsExactly s.p (f s.a s.p).2 (flags s)) :
    ImpliedRule (c .acc) r (fun s => { s with a := value s s.a }) flags := by
  refine impliedRule_of_implied row.encodedAs (desc?_eq row.opcode) row.size row.base (fun s => ?_) (fun _ => rfl)
    (fun _ => rfl) hflags
  rw [hexec, ← hvalue]
  rfl

/-- An instruction of the shift class whose computation makes `value` of the byte, puts the bit `out` of it in C and
writes N and Z by the result, follows the rules of both its forms. -/
theorem shiftRules_of_shiftClass {r : Row} {rows : Rows} {out : Byte → Bool} (hacc : HasRow (c .acc) r)
    (hmem : ∀ m r, rows.lookup m.mode = some r → HasRow (c (.mem m)) r) (hextra : ∀ e ∈ rows, e.2.extra = 0)
    (hexec : ∀ place s, exec (c place) s = shiftClass (c place) place s f) (hvalue : ∀ s v, (f v s.p).1 = value s v)
    (hstatus : ∀ v p, (f v p).2 = putNZ (putFlag p .c (out v)) (f v p).1) :
    ImpliedRule (c .acc) r (fun s => { s with a := value s s.a }) (fun s => (.c, out s.a) :: nz (value s s.a)) ∧
      ModifyRule (fun m => c (.mem m)) rows value fun s v => (.c, out v) :: nz (value s v) := by
  have hflags (s : State) (v : Byte) : FlagsExactly s.p (f v s.p).2 ((.c, out v) :: nz (value s v)) := by
    rw [hstatus, hvalue]
    exact flagsExactly_c_nz _ _ _
  exact ⟨impliedRule_of_shiftClass_acc hacc hexec hvalue fun s => hflags s s.a,
    modifyRule_of_modifyMemClass hmem hextra (fun m => hexec (.mem m)) hvalue hflags⟩

end

/-- Settles O40: ASL makes twice the byte modulo 256, LSR half of it, and C is the bit at the end left. -/
theorem shiftsMoveOneBitIntoCarry : Obligations.ShiftsMoveOneBitIntoCarry := by
  obtain ⟨aslAcc, aslMem⟩ := shiftRules_of_shiftClass (r := ⟨0x0A, 1, 2, 0⟩) (rows := aslRows) ⟨rfl, rfl, rfl, rfl⟩
    (fun _ _ => hasRow_of_lookup (mn := .ASL) rfl rfl (by decide)) (by decide) exec_asl
    (fun s v => (aslResult_fst v s.p).trans (ofNat_mod_256 _).symm) fun _ _ => rfl
  obtain ⟨lsrAcc, lsrMem⟩ := shiftRules_of_shiftClass (r := ⟨0x4A, 1, 2, 0⟩) (rows := lsrRows) ⟨rfl, rfl, rfl, rfl⟩
    (fun _ _ => hasRow_of_lookup (mn := .LSR) rfl rfl (by decide)) (by decide) exec_lsr
    (fun s v => lsrResult_fst v s.p) fun _ _ => rfl
  exact ⟨aslAcc, aslMem, lsrAcc, lsrMem⟩

/-- Settles O41: as the shifts, with the carry added at the end the byte has moved away from. -/
theorem rotatesMoveOneBitThroughCarry : Obligations.RotatesMoveOneBitThroughCarry := by
  obtain ⟨rolAcc, rolMem⟩ := shiftRules_of_shiftClass (r := ⟨0x2A, 1, 2, 0⟩) (rows := rolRows) ⟨rfl, rfl, rfl, rfl⟩
    (fun _ _ => hasRow_of_lookup (mn := .ROL) rfl rfl (by decide)) (by decide) exec_rol
    (fun s v => (rolResult_fst v s.p).trans (ofNat_mod_256 _).symm) fun _ _ => rfl
  obtain ⟨rorAcc, rorMem⟩ := shiftRules_of_shiftClass (r := ⟨0x6A, 1, 2, 0⟩) (rows := rorRows) ⟨rfl, rfl, rfl, rfl⟩
    (fun _ _ => hasRow_of_lookup (mn := .ROR) rfl rfl (by decide)) (by decide) exec_ror
    (fun s v => rorResult_fst v s.p) fun _ _ => rfl
  exact ⟨rolAcc, rolMem, rorAcc, rorMem⟩

end Sys2Proof.Machine
end

section
/-!
PROOFS of the family 45_control: JSR, RTS and RTI as one equation each for what they make of the state, and RTS after JSR
by reading back the word that was pushed.
-/

namespace Sys2Proof.Machine

/-! ### The stack -/

/-- Different stack pointers stand for different addresses (R60). -/
@[simp] theorem stackAddr_inj {p q : Byte} : stackAddr p = stackAddr q ↔ p = q := by
  rw [← BitVec.toNat_inj, stackAddr_toNat, stackAddr_toNat, Nat.add_left_cancel_iff, BitVec.toNat_inj]

/-- Pushing a word moves SP two down (R58, R61). -/
@[simp] theorem State.pushWord_sp (s : State) (w : Addr) : (s.pushWord w).sp = s.sp - 2 := by
  have hsp : s.sp - 2 = s.sp - 1 - 1 := by bv_omega
  rw [hsp]
  rfl

/-- Two above SP, after a word is pushed, is where SP stood. -/
theorem pushWord_sp_add_two (s : State) (w : Addr) : (s.pushWord w).sp + 2 = s.sp := by
  rw [State.pushWord_sp, BitVec.sub_add_cancel]

/-- The word just pushed stands above SP, low byte first, wherever SP pointed (R58). -/
theorem word_above_pushWord (s : State) (w : Addr) :
    word ((s.pushWord w).read (stackAddr ((s.pushWord w).sp + 2)))
      ((s.pushWord w).read (stackAddr ((s.pushWord w).sp + 1))) = w := by
  have hlow : (s.pushWord w).sp + 1 = s.sp - 1 := by rw [State.pushWord_sp]; bv_omega
  rw [pushWord_sp_add_two, hlow]
  simp [State.pushWord, State.read_push]

/-! ### JSR -/

/-- JSR pushes PC + 2 and goes to its operand (R215). -/
theorem exec_jsr_eq (a : Addr) (s : State) :
    exec (.jsr a) s = .next { s.pushWord (s.pc + 2) with pc := a, cycles := s.cycles + 6 } :=
  (exec_jsr a s).trans (transferClass_next.2 ⟨⟨.JSR, .abs, 6, 0⟩, rfl, rfl⟩)

/-- Settles O44: the stores are those of pushing one word. -/
theorem jsrPushesTheReturnAddress : Obligations.JsrPushesTheReturnAddress :=
  fun a s => ⟨⟨[loByte a, hiByte a], rfl, rfl⟩, _, exec_jsr_eq a s,
    State.ext rfl rfl rfl (s.pushWord_sp _) rfl rfl rfl rfl rfl rfl rfl rfl rfl,
    storesExactly_frame (pushWord_stores s (s.pc + 2)) rfl rfl⟩

/-! ### RTS -/

/-- RTS finds the stack empty at SP = 0xFF, and at SP = 0xFE where `RTS_SUSPEND_AT_FE` says so (R216, R217). -/
theorem rtsFindsEmptyStack_iff (s : State) :
    rtsFindsEmptyStack s = true ↔ s.sp = 0xFF ∨ (s.cfg.rtsSuspendAtFe = true ∧ s.sp = 0xFE) := by
  simp [rtsFindsEmptyStack]

/-- RTS on an empty stack suspends, and counts its cycles (R217). -/
theorem exec_rts_of_empty {s : State} (h : s.sp = 0xFF ∨ (s.cfg.rtsSuspendAtFe = true ∧ s.sp = 0xFE)) :
    exec .rts s = .next { s with suspended := true, cause := some .rtsEmptyStack, cycles := s.cycles + 6 } := by
  rw [exec_rts, if_pos ((rtsFindsEmptyStack_iff s).2 h)]
  exact transferClass_next.2 ⟨⟨.RTS, .imp, 6, 0⟩, rfl, rfl⟩

/-- RTS on a stack that is not empty goes one past the word it pulls (R216). -/
theorem exec_rts_of_not_empty {s : State} (hff : s.sp ≠ 0xFF) (hfe : s.cfg.rtsSuspendAtFe = true → s.sp ≠ 0xFE) :
    exec .rts s = .next
      { s with
        sp := s.sp + 2
        pc := word (s.read (stackAddr (s.sp + 2))) (s.read (stackAddr (s.sp + 1))) + 1
        cycles := s.cycles + 6 } := by
  have hempty : ¬ rtsFindsEmptyStack s = true := fun h =>
    ((rtsFindsEmptyStack_iff s).1 h).elim hff fun ⟨hset, hsp⟩ => hfe hset hsp
  have hsp : s.sp + 2 = s.sp + 1 + 1 := by bv_omega
  rw [exec_rts, if_neg hempty, returnFromSubroutine, pullWord_eq, hsp]
  exact transferClass_next.2 ⟨⟨.RTS, .imp, 6, 0⟩, rfl, rfl⟩

/-- Settles O45: the two branches of RTS. -/
theorem rtsReturnsOrSuspendsOnAnEmptyStack : Obligations.RtsReturnsOrSuspendsOnAnEmptyStack :=
  ⟨⟨[], rfl, rfl⟩, fun _ => exec_rts_of_not_empty, fun _ => exec_rts_of_empty⟩

/-- Settles O47: SP is two lower after JSR, so RTS finds a stack that is not empty, and on it the word JSR pushed. -/
theorem rtsUndoesJsr : Obligations.RtsUndoesJsr := by
  intro a s hff hfe
  have hsp := s.pushWord_sp (s.pc + 2)
  have hff' : s.sp - 2 ≠ 0xFF := by bv_omega
  have hfe' (hset : s.cfg.rtsSuspendAtFe = true) : s.sp - 2 ≠ 0xFE := by
    have := hfe hset
    bv_omega
  have hpc := congrArg (· + 1) (word_above_pushWord s (s.pc + 2))
  exact ⟨_, _, exec_jsr_eq a s, exec_rts_of_not_empty (hsp ▸ hff') (hsp ▸ hfe'),
    State.ext rfl rfl rfl (pushWord_sp_add_two s _) rfl (hpc.trans (BitVec.add_assoc ..)) rfl rfl rfl rfl rfl rfl rfl⟩

/-! ### RTI -/

/-- Settles O46: the three bytes RTI pulls, with its row's cycles. -/
theorem rtiRestoresStatusAndPc : Obligations.RtiRestoresStatusAndPc := by
  refine ⟨⟨[], rfl, rfl⟩, fun s => ?_⟩
  have hsp2 : s.sp + 2 = s.sp + 1 + 1 := by bv_omega
  have hsp3 : s.sp + 3 = s.sp + 1 + 1 + 1 := by bv_omega
  rw [exec_rti, returnFromInterrupt_eq, hsp2, hsp3]
  exact transferClass_next.2 ⟨⟨.RTI, .imp, 6, 0⟩, rfl, rfl⟩

end Sys2Proof.Machine
end

section
/-!
PROOFS of the family 46_flags_system: the flag instructions and NOP as implied instructions, and BRK with the illegal
opcodes as one instruction that makes the suspend entry.
-/

namespace Sys2Proof.Machine

open Sys2Proof.Safety

/-! ### The flag instructions and NOP -/

/-- An implied instruction whose body writes one flag follows the rule of one, with that flag written. -/
theorem impliedRule_of_putFlag {i : Instr} {r : Row} {f : Flag} {v : Bool} (row : HasRow i r)
    (hexec : ∀ s, exec i s = impliedClass i (s.setP (putFlag s.p f v))) : ImpliedRule i r id fun _ => [(f, v)] :=
  impliedRule_of_implied row.encodedAs (desc?_eq row.opcode) row.size row.base hexec (fun _ => rfl) (fun _ => rfl)
    fun s => flagsExactly_put (flagsExactly_refl s.p) f v

/-- Settles O48: each of the seven writes its one flag; NOP's body is the state itself. -/
theorem flagInstructionsWriteOneFlagAndNopNone : Obligations.FlagInstructionsWriteOneFlagAndNopNone :=
  ⟨impliedRule_of_putFlag ⟨rfl, rfl, rfl, rfl⟩ exec_clc,
    impliedRule_of_putFlag ⟨rfl, rfl, rfl, rfl⟩ exec_cld,
    impliedRule_of_putFlag ⟨rfl, rfl, rfl, rfl⟩ exec_cli,
    impliedRule_of_putFlag ⟨rfl, rfl, rfl, rfl⟩ exec_clv,
    impliedRule_of_putFlag ⟨rfl, rfl, rfl, rfl⟩ exec_sec,
    impliedRule_of_putFlag ⟨rfl, rfl, rfl, rfl⟩ exec_sed,
    impliedRule_of_putFlag ⟨rfl, rfl, rfl, rfl⟩ exec_sei,
    impliedRule_of_implied (status := State.p) (d := ⟨.NOP, .imp, 2, 0⟩) ⟨[], rfl, rfl⟩ rfl rfl rfl exec_nop
      (fun _ => rfl) (fun _ => rfl) fun s => flagsExactly_refl s.p⟩

/-! ### BRK and the illegal opcodes -/

/-- The stack is page 1 alone (R60). -/
theorem stackAddr_ne_of_le {a : Addr} (h : 0x0200 ≤ a.toNat) (sp : Byte) : stackAddr sp ≠ a := by
  rintro rfl
  have hsp := stackAddr_toNat sp
  omega

/-- The suspend entry stores in page 1 alone, so its pushes do not reach the vector (R233). -/
theorem suspendEntry_read_of_le {a : Addr} (h : 0x0200 ≤ a.toNat) (s : State) (c : SuspendCause) :
    (s.suspendEntry c).read a = s.read a :=
  (suspendEntry_stores s c).elsewhere a (by simp [stackAddr_ne_of_le h])

/-- An instruction whose body is the suspend entry follows its rule: the vector it may go through is read after the
pushes, which leave it as it was. -/
theorem suspendRule_of_suspendEntry {i : Instr} {op : Byte} {c : SuspendCause} (row : HasRow i ⟨op, 1, 7, 0⟩)
    (hexec : ∀ s, exec i s = transferClass i (s.suspendEntry c)) : SuspendRule i op c := by
  refine ⟨row.encodedAs, fun s => ?_⟩
  obtain ⟨-, hregs, hliteral, hvector⟩ := suspendEntry_spec s c
  have hsp : s.sp - 3 = s.sp - 1 - 1 - 1 := by bv_omega
  have hcycles : (s.suspendEntry c).cycles = s.cycles := by rw [hregs]
  refine ⟨_, (hexec s).trans (transferClass_next.2 ⟨_, desc?_eq row.opcode, rfl⟩), ?_,
    storesExactly_frame (suspendEntry_stores s c) rfl rfl, ?_, hliteral, fun hmode => ?_⟩
  · rw [hsp, State.finishTransfer, row.base, State.addCycles, hcycles]
    exact congrArg (fun u : State => { u with cycles := s.cycles + 7 }) hregs
  · rw [State.finishTransfer_p, State.suspendEntry_p]
    exact flagsExactly_put (flagsExactly_refl s.p) .i true
  · rw [State.finishTransfer_pc, hvector hmode, suspendEntry_read_of_le (by decide),
      suspendEntry_read_of_le (by decide)]
    rfl

/-- An illegal opcode's row (R87). -/
theorem ill_hasRow {op : Byte} (h : op ∈ illegalOpcodes) : HasRow (.ill op) ⟨op, 1, 7, 0⟩ := by
  have hdesc := desc_of_illegal op h
  exact ⟨opcode?_ill_eq_some.2 ⟨h, rfl⟩, by rw [hdesc]; rfl, by rw [hdesc], by rw [hdesc]⟩

/-- Settles O49: both are the suspend entry, each with its own cause. -/
theorem brkAndIllegalOpcodesSaveAndSuspend : Obligations.BrkAndIllegalOpcodesSaveAndSuspend :=
  ⟨suspendRule_of_suspendEntry ⟨rfl, rfl, rfl, rfl⟩ exec_brk,
    fun op h => suspendRule_of_suspendEntry (ill_hasRow h) (exec_ill op)⟩

end Sys2Proof.Machine
end

section
/-!
PROOFS of the family 60_exceptions, first part: the invariant and the log under a step, what suspends, and the run
loop of a window.
-/

namespace Sys2Proof.Machine

open Sys2Proof.Safety

/-- Settles O11: the effect all instructions share keeps the invariant, and a suspended step changes nothing. -/
theorem stepKeepsTheInvariant : Obligations.StepKeepsTheInvariant := fun _ _ => step_keeps_stateInv

/-! ### Suspension -/

section
variable {i : Instr} {s t : State}

theorem mnemonic_eq_ill_iff : i.mnemonic = .ILL ↔ ∃ op, i = .ill op := by
  cases i <;> simp [Instr.mnemonic]

theorem causeOf_eq_brk_iff : causeOf i s = some .brk ↔ i = .brk := by
  unfold causeOf
  split
  case h_4 hbrk _ _ => exact iff_of_false nofun hbrk
  all_goals simp

theorem causeOf_eq_illegalOpcode_iff : causeOf i s = some .illegalOpcode ↔ i.mnemonic = .ILL := by
  rw [mnemonic_eq_ill_iff]
  unfold causeOf
  split
  case h_4 hill _ => exact iff_of_false nofun fun ⟨op, hop⟩ => hill op hop
  all_goals simp

theorem causeOf_eq_rtsEmptyStack_iff :
    causeOf i s = some .rtsEmptyStack ↔ i = .rts ∧ rtsFindsEmptyStack s = true := by
  unfold causeOf
  split
  case h_4 hrts => exact iff_of_false nofun fun h => hrts h.1
  all_goals simp

/-- From a running machine without a cause: the cause is exactly what the instruction gives, and it is suspended exactly
if it has one. -/
theorem Suspends.of_running {c : Option SuspendCause} (h : Suspends s t c) (hrun : s.suspended = false)
    (hcause : s.cause = none) : t.suspended = t.cause.isSome ∧ t.cause = c := by
  cases c <;> obtain ⟨hsus, hc⟩ := h
  · exact ⟨by rw [hsus, hc, hrun, hcause]; rfl, hc.trans hcause⟩
  · exact ⟨by rw [hsus, hc]; rfl, hc⟩

theorem isSome_suspendCause_iff {c : Option SuspendCause} :
    c.isSome = true ↔ c = some .brk ∨ c = some .illegalOpcode ∨ c = some .rtsEmptyStack := by
  cases c with
  | none => simp
  | some c => cases c <;> simp

/-- Every step has a next state. -/
theorem exists_step (s : State) : ∃ t, step s = .next t := everyStepHasANextState.1 s

end

/-- Settles O13: a running step has the suspension of `causeOf`, whose values are the three causes. -/
theorem suspensionHasExactlyThreeCauses : Obligations.SuspensionHasExactlyThreeCauses := by
  intro s hrun hcause
  obtain ⟨t, h⟩ := exists_step s
  obtain ⟨_, -, e⟩ := exec_effect (step_running hrun ▸ h)
  obtain ⟨hsus, hc⟩ := e.suspends.of_running hrun hcause
  have hbrk : t.cause = some .brk ↔ s.fetch = .brk := hc ▸ causeOf_eq_brk_iff
  have hill : t.cause = some .illegalOpcode ↔ s.fetch.mnemonic = .ILL := hc ▸ causeOf_eq_illegalOpcode_iff
  have hrts : t.cause = some .rtsEmptyStack ↔ s.fetch = .rts ∧ rtsFindsEmptyStack s = true :=
    hc ▸ causeOf_eq_rtsEmptyStack_iff
  have hthree := hsus ▸ isSome_suspendCause_iff (c := t.cause)
  refine ⟨t, h, ?_, hbrk, hill, fun hempty => ⟨hthree.2 (.inr (.inr hempty)), (hrts.1 hempty).1⟩,
    fun ⟨hsuspended, hfetch⟩ => ?_⟩
  · rw [hthree, hbrk, hill, hrts, rtsFindsEmptyStack_iff]
  · rcases hthree.1 hsuspended with hisBrk | hisIll | hempty
    · cases hfetch ▸ hbrk.1 hisBrk
    · cases hfetch ▸ hill.1 hisIll
    · exact hempty

/-! ### The log -/

/-- The writes of a step, of which there are at most three, are what it adds to the log; it does not set the counter
back. -/
theorem step_logs {s t : State} (h : step s = .next t) {r : Recorder} (hr : s.recorder = some r) :
    (∃ ws, ws.length ≤ 3 ∧ t.recorder = some { r with log := r.log ++ captured r ws s.cycles }) ∧
      s.cycles ≤ t.cycles := by
  cases hrun : s.suspended
  · rw [step_running hrun] at h
    obtain ⟨_, -, e⟩ := exec_effect h
    obtain ⟨ws, hlen, hws⟩ := e.stores
    exact ⟨⟨ws, hlen, hws.logged r hr⟩, le_trans (Nat.le_add_right _ _) e.atLeast⟩
  · rw [step_suspended hrun] at h
    cases h
    exact ⟨⟨[], by simp, by simpa [captured] using hr⟩, le_rfl⟩

/-- A run of writes makes at most one entry each. -/
theorem captured_length_le (r : Recorder) (ws : List (Addr × Byte)) (n : Nat) :
    (captured r ws n).length ≤ ws.length := by
  rw [captured, List.length_map]
  exact List.length_filter_le _ _

/-- Settles O15: the new entries are the captured ones of the step's writes. -/
theorem stepAppendsToTheLogWithItsStartStamp : Obligations.StepAppendsToTheLogWithItsStartStamp := by
  intro s t r hr h
  obtain ⟨⟨ws, hlen, hlog⟩, -⟩ := step_logs h hr
  exact ⟨_, hlog, (captured_length_le r ws _).trans hlen, fun _ => captured_mem⟩

/-! ### The run loop of a window -/

section
variable {limit : Nat} {s t : State}

/-- The run loop answers a next state, whatever the fuel. -/
theorem exists_runWindow (limit fuel : Nat) (s : State) : ∃ t, runWindow limit fuel s = .next t := by
  induction fuel generalizing s with
  | zero => exact ⟨s, rfl⟩
  | succ fuel ih =>
    obtain ⟨u, hu⟩ := exists_step s
    rw [runWindow, hu]
    split
    · exact ⟨s, rfl⟩
    · exact ih u

/-- A window's run does not set the counter back, and its last instruction, begun below the limit, takes it at most 6
cycles past (R272). -/
theorem runsWindow_cycles (h : RunsWindow limit s t) :
    s.cycles ≤ t.cycles ∧ t.cycles ≤ max s.cycles (limit + 6) := by
  induction h with
  | stop => exact ⟨le_rfl, le_max_left _ _⟩
  | go hrun hlt hstep _ ih =>
    obtain ⟨hlo, hhi, -⟩ := runningStepTakesTwoToSevenCycles _ _ hrun hstep
    omega

/-- A window begun at or past its limit executes nothing (R272). -/
theorem runsWindow_at_limit (h : RunsWindow limit s t) (hlimit : limit ≤ s.cycles) : t = s := by
  cases h with
  | stop => rfl
  | go _ hlt => omega

end

/-- Settles O51: the run loop is the run of its window. -/
theorem windowEndsSuspendedOrAtItsLimit : Obligations.WindowEndsSuspendedOrAtItsLimit := by
  intro limit s
  obtain ⟨t, ht⟩ := exists_runWindow limit (limit - s.cycles) s
  have hruns := runWindow_runs le_rfl ht
  obtain ⟨hlo, hhi⟩ := runsWindow_cycles hruns
  exact ⟨t, ht, runsWindow_ends hruns, hlo, hhi, runsWindow_at_limit hruns⟩

end Sys2Proof.Machine
end

section
/-!
PROOFS of the family 60_exceptions, second part: Capture as the run of its repetitions. Each repetition is a function
of the state before it, since every window's run ends; what a Capture keeps and how far its counter comes are then
inductions over the repetitions.
-/

namespace Sys2Proof.Machine

open Sys2Proof.Safety

/-! ### The repetitions as functions -/

/-- The state a window's run from `s` ends in (R272). -/
def windowEnd (limit : Nat) (s : State) : State :=
  match runWindow limit (limit - s.cycles) s with
  | .next t => t
  | .fault _ | .refused _ => s

theorem runWindow_eq_windowEnd (limit : Nat) (s : State) :
    runWindow limit (limit - s.cycles) s = .next (windowEnd limit s) := by
  obtain ⟨t, ht⟩ := exists_runWindow limit (limit - s.cycles) s
  rw [windowEnd, ht]

theorem runsWindow_windowEnd (limit : Nat) (s : State) : RunsWindow limit s (windowEnd limit s) :=
  runWindow_runs le_rfl (runWindow_eq_windowEnd limit s)

section
variable (entry : Addr) (seed : Byte) (reps k : Nat) (s : State)

/-- Where the window of repetition `k` starts (R271, R273). -/
def repetitionStart : State := (s.forceCycles (k * windowSize s.cfg.maxCycles reps)).startRepetition entry seed

theorem repetitionStart_cycles :
    (repetitionStart entry seed reps k s).cycles = max s.cycles (k * windowSize s.cfg.maxCycles reps) := rfl

/-- Where the window of repetition `k` ends, before that is noted. -/
def repetitionEnd : State := windowEnd (windowLimit s.cfg.maxCycles reps k) (repetitionStart entry seed reps k s)

theorem runsWindow_repetitionEnd :
    RunsWindow (windowLimit s.cfg.maxCycles reps k) (repetitionStart entry seed reps k s)
      (repetitionEnd entry seed reps k s) := runsWindow_windowEnd _ _

/-- The state after the first `k` repetitions, from `s` on (R270). -/
def afterRepetitions : Nat → State
  | 0 => s
  | k + 1 => (repetitionEnd entry seed reps k (afterRepetitions k)).noteWindowEnd

theorem runRepetition_eq :
    runRepetition entry seed reps k s = .next (repetitionEnd entry seed reps k s).noteWindowEnd := by
  simp only [runRepetition]
  rw [runWindow_eq_windowEnd]
  rfl

theorem runRepetitions_eq {todo : Nat} (h : todo ≤ reps) :
    runRepetitions entry seed reps todo (afterRepetitions entry seed reps s (reps - todo)) =
      .next (afterRepetitions entry seed reps s reps) := by
  induction todo with
  | zero => rfl
  | succ todo ih =>
    have hnext : reps - todo = reps - (todo + 1) + 1 := by omega
    rw [runRepetitions, runRepetition_eq]
    rw [hnext, afterRepetitions] at ih
    exact ih (by omega)

/-- The state a Capture on recorder `r` runs its repetitions from (R270, R300). -/
def captureStart (r : Recorder) : State := { s.cpuReset with recorder := some r.clear }

/-- The state after the first `k` repetitions of a Capture. -/
abbrev duringCapture (r : Recorder) : Nat → State := afterRepetitions entry seed reps (captureStart s r)

end

section
variable {entry : Addr} {seed : Byte} {reps : Nat} {s t u : State} {r : Recorder} {b : Bool}

theorem capture_eq (hreps : reps ≠ 0) (hr : s.recorder = some r) {r' : Recorder}
    (hr' : (duringCapture entry seed reps s r reps).recorder = some r') :
    capture entry seed reps s =
      .next (duringCapture entry seed reps s r reps,
        ⟨r'.log, r'.reachedMaxCycles, (duringCapture entry seed reps s r reps).cycles⟩) := by
  have hruns : runRepetitions entry seed reps reps (captureStart s r) =
      .next (duringCapture entry seed reps s r reps) := by
    simpa [afterRepetitions] using runRepetitions_eq entry seed reps (captureStart s r) le_rfl
  rw [captureStart] at hruns
  simp only [capture, hreps, hr, hruns, hr', if_false]

/-! ### What a Capture keeps -/

/-- What holds of a state `u` during a Capture from `s` on recorder `r`: the parameters and the snapshot are those of
`s`, and the recorder is `r` with a log in range and ordered, and with the indicator `b`. -/
structure Capturing (s : State) (r : Recorder) (b : Bool) (u : State) : Prop where
  cfg : u.cfg = s.cfg
  snapshot : u.snapshot = s.snapshot
  recorder : ∃ q, u.recorder = some q ∧ q.rangeBegin = r.rangeBegin ∧ q.rangeEnd = r.rangeEnd ∧
    q.reachedMaxCycles = b ∧ LogOk q u.cycles

theorem capturing_start : Capturing s r false (captureStart s r) :=
  ⟨rfl, rfl, _, rfl, rfl, rfl, rfl, logOk_empty rfl _⟩

theorem Capturing.step (hu : Capturing s r b u) (h : step u = .next t) : Capturing s r b t := by
  obtain ⟨q, hq, hbegin, hend, hb, hlog⟩ := hu.recorder
  obtain ⟨-, hcfg, hsnap⟩ := step_host h
  obtain ⟨⟨ws, -, hq'⟩, hle⟩ := step_logs h hq
  exact ⟨hcfg.trans hu.cfg, hsnap.trans hu.snapshot, _, hq', hbegin, hend, hb, logOk_captured hlog hle ws⟩

theorem Capturing.repetitionStart (hu : Capturing s r b u) (k : Nat) :
    Capturing s r b (repetitionStart entry seed reps k u) := by
  obtain ⟨q, hq, hbegin, hend, hb, hlog⟩ := hu.recorder
  exact ⟨hu.cfg, hu.snapshot, q, hq, hbegin, hend, hb, logOk_mono hlog (le_max_left _ _)⟩

theorem Capturing.repetitionEnd (hu : Capturing s r b u) (k : Nat) :
    Capturing s r b (repetitionEnd entry seed reps k u) :=
  runsWindow_keeps (fun _ _ => Capturing.step) (runsWindow_repetitionEnd entry seed reps k u) (hu.repetitionStart k)

theorem Capturing.noteWindowEnd (hu : Capturing s r b u) : Capturing s r (b || !u.suspended) u.noteWindowEnd := by
  obtain ⟨q, hq, hbegin, hend, rfl, hlog⟩ := hu.recorder
  obtain ⟨hin, hord, hlate⟩ := hlog
  rw [State.noteWindowEnd_eq, hq]
  exact ⟨hu.cfg, hu.snapshot, _, rfl, hbegin, hend, rfl, hin, hord, hlate⟩

/-- During a Capture the indicator is set exactly if a window has ended not suspended (R276). -/
theorem capturing_during (entry : Addr) (seed : Byte) (reps : Nat) (s : State) (r : Recorder) (k : Nat) :
    ∃ b, Capturing s r b (duringCapture entry seed reps s r k) ∧
      (b = true ↔
        ∃ j < k, (repetitionEnd entry seed reps j (duringCapture entry seed reps s r j)).suspended = false) := by
  induction k with
  | zero => exact ⟨false, capturing_start, by simp⟩
  | succ k ih =>
    obtain ⟨b, hb, hiff⟩ := ih
    refine ⟨_, (hb.repetitionEnd k).noteWindowEnd, ?_⟩
    simp only [Bool.or_eq_true, hiff, Bool.not_eq_true', Nat.exists_lt_succ_right]

/-! ### How far the counter comes -/

/-- No window's limit is past the budget, and none starts past it. -/
theorem windowLimit_le {budget k : Nat} (hk : k < reps) :
    windowLimit budget reps k ≤ budget ∧ k * windowSize budget reps ≤ budget := by
  have hall : reps * windowSize budget reps ≤ budget := Nat.mul_div_le budget reps
  refine ⟨?_, (Nat.mul_le_mul_right _ hk.le).trans hall⟩
  unfold windowLimit
  split
  · exact le_rfl
  · exact (Nat.mul_le_mul_right _ hk).trans hall

/-- A repetition ends at most 6 cycles past the budget if it starts there (R272, R273). -/
theorem repetitionEnd_cycles_le {k : Nat} (hk : k < reps) (hu : u.cycles ≤ u.cfg.maxCycles + 6) :
    (repetitionEnd entry seed reps k u).cycles ≤ u.cfg.maxCycles + 6 := by
  obtain ⟨hlimit, hstart⟩ := windowLimit_le (budget := u.cfg.maxCycles) hk
  obtain ⟨-, hend⟩ := runsWindow_cycles (runsWindow_repetitionEnd entry seed reps k u)
  rw [repetitionStart_cycles] at hend
  omega

theorem duringCapture_cycles_le {k : Nat} (hk : k ≤ reps) :
    (duringCapture entry seed reps s r k).cycles ≤ s.cfg.maxCycles + 6 := by
  induction k with
  | zero => exact Nat.zero_le _
  | succ k ih =>
    obtain ⟨b, hb, -⟩ := capturing_during entry seed reps s r k
    rw [duringCapture, afterRepetitions, State.noteWindowEnd_eq, ← hb.cfg]
    exact repetitionEnd_cycles_le hk (hb.cfg ▸ ih (by omega))

end

/-- Settles O52: what a Capture keeps, and how far its counter comes, at the end of its last repetition. -/
theorem captureReturnsWithinTheBudget : Obligations.CaptureReturnsWithinTheBudget := by
  intro entry seed reps s r hreps hr
  obtain ⟨b, hb, -⟩ := capturing_during entry seed reps s r reps
  obtain ⟨r', hr', hbegin, hend, -, -⟩ := hb.recorder
  exact ⟨_, r', capture_eq hreps hr hr', hr', hbegin, hend, duringCapture_cycles_le le_rfl, hb.cfg, hb.snapshot⟩

/-- Settles O53: the log a Capture returns is that of the recorder at its end. -/
theorem captureLogIsInRangeAndOrdered : Obligations.CaptureLogIsInRangeAndOrdered := by
  intro entry seed reps s t r res hr h
  have hreps : reps ≠ 0 := by rintro rfl; cases h
  obtain ⟨b, hb, -⟩ := capturing_during entry seed reps s r reps
  obtain ⟨r', hr', hbegin, hend, -, hin, hord, hlate⟩ := hb.recorder
  cases h.symm.trans (capture_eq hreps hr hr')
  refine ⟨fun w hw => ?_, hord, hlate⟩
  obtain ⟨hge, hle⟩ := hin w hw
  exact ⟨hbegin ▸ hge, hend ▸ hle⟩

/-- Settles O60: the states before the repetitions and at the ends of their windows are those of `duringCapture` and
`repetitionEnd`. -/
theorem captureRunsEachRepetitionInItsWindow : Obligations.CaptureRunsEachRepetitionInItsWindow := by
  intro entry seed reps s r hreps hr part
  obtain ⟨b, hb, hiff⟩ := capturing_during entry seed reps s r reps
  obtain ⟨r', hr', -, -, rfl, -⟩ := hb.recorder
  refine ⟨duringCapture entry seed reps s r,
    fun k => repetitionEnd entry seed reps k (duringCapture entry seed reps s r k), r', rfl, fun k hk => ?_, hr',
    capture_eq hreps hr hr', hiff⟩
  obtain ⟨b, hb, -⟩ := capturing_during entry seed reps s r k
  obtain ⟨q, hq, -⟩ := (hb.repetitionEnd (entry := entry) (seed := seed) (reps := reps) k).recorder
  refine ⟨?_, q, hq, ?_⟩
  · have hlimit : windowLimit s.cfg.maxCycles reps k = if k = reps - 1 then s.cfg.maxCycles else (k + 1) * part :=
      if_congr (by omega) rfl rfl
    have hwindow := runsWindow_repetitionEnd entry seed reps k (duringCapture entry seed reps s r k)
    rw [repetitionStart, hb.cfg, hlimit] at hwindow
    exact hwindow
  · rw [duringCapture, afterRepetitions, State.noteWindowEnd_eq, hq]
    rfl

/-- Settles O54: the one window is the last, so it runs to the budget, and the indicator says how it ended. -/
theorem oneRepetitionReportsTheBudgetIffNotSuspended : Obligations.OneRepetitionReportsTheBudgetIffNotSuspended := by
  intro entry seed s t res h
  obtain ⟨r, hr, -⟩ := capture_next h
  obtain ⟨before, ended, r', -, hruns, -, hcap, hiff⟩ :=
    captureRunsEachRepetitionInItsWindow entry seed 1 s r one_ne_zero hr
  cases h.symm.trans hcap
  obtain ⟨hwindow, q, -, hbefore⟩ := hruns 0 Nat.one_pos
  have hends := runsWindow_ends hwindow
  have hsus : (before 1).suspended = (ended 0).suspended := by rw [hbefore]
  have hcycles : (before 1).cycles = (ended 0).cycles := by rw [hbefore]
  simp only [hiff, hsus, hcycles, Nat.lt_one_iff, exists_eq_left, true_and]
  intro hrunning
  simpa [hrunning] using hends

end Sys2Proof.Machine
end

section
/-!
PROOFS of the family 70_reset_and_hazards: what reset and the start of a repetition set.
-/

namespace Sys2Proof.Machine

/-- Settles O50: the two operations are these updates by definition, and the state after reset has the values R8 gives
the parameters of R300 as defaults. -/
theorem resetAndRepetitionStartSetTheirRegisters : Obligations.ResetAndRepetitionStartSetTheirRegisters := by
  refine ⟨fun s => ?reset, fun s entry seed => ?start, ?values⟩
  case reset => rfl
  case start => rfl
  case values => exact ⟨rfl, rfl, rfl, rfl, rfl, rfl⟩

end Sys2Proof.Machine
end
